-- ==== Sys2Proof/Word.lean ====
section
/-! DEFINITION. The word types of F2T-CORE: a register is one 32-bit word (00_scope.md R9, 10_state.md R20), a buffer
element is a byte or a 16-bit sample (20_memory.md R64), a codeword has 12 positions (43_hamming.md R160). -/

namespace Sys2Proof

/-- A register or a command word (00_scope.md R9, 30_encoding.md R80). -/
abbrev Word := BitVec 32

/-- An element of a byte buffer, the unit of the line format (20_memory.md R64, R67). -/
abbrev Byte := BitVec 8

/-- A 16-bit two's-complement sample, an element of a wave buffer (20_memory.md R64). -/
abbrev Sample := BitVec 16

/-- A 12-bit codeword; bit `12 - p` is position p (10_state.md R32, 30_encoding.md R90). -/
abbrev Codeword := BitVec 12

end Sys2Proof
end

