-- ==== Sys2Proof/Syntax.lean ====
section
/-! DEFINITION. The syntax of F2T-CORE: the symbol alphabet (30_encoding.md R87) and the twelve commands (R85), one
constructor per row of spec/opcode_table.json. -/

namespace Sys2Proof

/-- The symbol alphabet, exactly three members (00_scope.md R6, 30_encoding.md R87): ZERO, ONE, END. -/
inductive Symbol where
  | zero
  | one
  | endSym
deriving DecidableEq, Repr

/-- A command (30_encoding.md R85). Operands are the fields of the command word, used as they stand (R82 to R84). -/
inductive Instr where
  /-- TONE sym (format S); the code 3 is no symbol (30_encoding.md R82). -/
  | tone (sym : BitVec 2)
  /-- ENCB b (format B). -/
  | encb (b : Byte)
  /-- ENCH b (format B). -/
  | ench (b : Byte)
  /-- ENCF (format N). -/
  | encf
  /-- DSYM (format N). -/
  | dsym
  /-- DECB (format N). -/
  | decb
  /-- DECH (format N). -/
  | dech
  /-- DECF (format N). -/
  | decf
  /-- DINIT (format N). -/
  | dinit
  /-- DSTEP (format N). -/
  | dstep
  /-- HENC b (format B). -/
  | henc (b : Byte)
  /-- HDEC cw (format C). -/
  | hdec (cw : Codeword)
deriving DecidableEq, Repr

end Sys2Proof
end

