-- ==== Sys2Proof/WellFormed.lean ====
section
/-! DEFINITION. Which commands some word spells: the operand widths are in the types, so one check is left, the symbol
code of format S (30_encoding.md R82, R86). -/

namespace Sys2Proof

/-- The command has an encoding (30_encoding.md R86): the symbol code of TONE is 0, 1 or 2. -/
def Instr.wellFormed : Instr → Bool
  | .tone sym => sym != 3#2
  | .encb _ => true
  | .ench _ => true
  | .encf => true
  | .dsym => true
  | .decb => true
  | .dech => true
  | .decf => true
  | .dinit => true
  | .dstep => true
  | .henc _ => true
  | .hdec _ => true

end Sys2Proof
end

