-- ==== Sys2Proof/Decode.lean ====
section
/-! DEFINITION. Decoding of a command word (30_encoding.md R80 to R86): strict, total on all 32-bit words, every word
that spells no command rejected by name. After it the encoder, and the opcode map as rows of mask and match. -/

namespace Sys2Proof

/-- Why a word spells no command (30_encoding.md R86). The core reports each of them as ILLEGAL_CMD (60_exceptions.md R217). -/
inductive DecodeError where
  /-- OP is not one of the twelve values of 30_encoding.md R85. -/
  | unknownOpcode (op : Byte)
  /-- A bit the format does not use is 1 (30_encoding.md R80 to R84). -/
  | reservedBits (w : Word)
  /-- Format S with the code 3 (30_encoding.md R82). -/
  | badSymbol
deriving DecidableEq, Repr

/-- OP, bits 7:0 (30_encoding.md R80). -/
def opField (w : Word) : Byte := w.extractLsb' 0 8

/-- Format N (30_encoding.md R81): bits 31:8 are 0. -/
def formatN (i : Instr) (w : Word) : Except DecodeError Instr :=
  if w.extractLsb' 8 24 = 0#24 then .ok i else .error (.reservedBits w)

/-- Format S (30_encoding.md R82): bits 9:8 are the symbol code, bits 31:10 are 0, the code 3 is illegal. -/
def formatS (f : BitVec 2 → Instr) (w : Word) : Except DecodeError Instr :=
  if w.extractLsb' 10 22 = 0#22 then
    if w.extractLsb' 8 2 = 3#2 then .error .badSymbol else .ok (f (w.extractLsb' 8 2))
  else .error (.reservedBits w)

/-- Format B (30_encoding.md R83): bits 15:8 are the byte, bits 31:16 are 0. -/
def formatB (f : Byte → Instr) (w : Word) : Except DecodeError Instr :=
  if w.extractLsb' 16 16 = 0#16 then .ok (f (w.extractLsb' 8 8)) else .error (.reservedBits w)

/-- Format C (30_encoding.md R84): bits 19:8 are the codeword, bits 31:20 are 0. -/
def formatC (f : Codeword → Instr) (w : Word) : Except DecodeError Instr :=
  if w.extractLsb' 20 12 = 0#12 then .ok (f (w.extractLsb' 8 12)) else .error (.reservedBits w)

/-- Decoding of a command word (30_encoding.md R85, R86). -/
def decode (w : Word) : Except DecodeError Instr :=
  match (opField w).toNat with
  | 0x10 => formatS .tone w
  | 0x11 => formatB .encb w
  | 0x12 => formatB .ench w
  | 0x13 => formatN .encf w
  | 0x20 => formatN .dsym w
  | 0x21 => formatN .decb w
  | 0x22 => formatN .dech w
  | 0x23 => formatN .decf w
  | 0x24 => formatN .dinit w
  | 0x25 => formatN .dstep w
  | 0x30 => formatB .henc w
  | 0x31 => formatC .hdec w
  | _ => .error (.unknownOpcode (opField w))

/-- A command word from its operand field and its opcode: `W = (ARG << 8) | OP` (30_encoding.md R80 to R84). -/
def commandWord (arg : BitVec 12) (op : Byte) : Word :=
  (arg.setWidth 32 <<< 8) ||| op.setWidth 32

/-- The word of a command (30_encoding.md R81 to R85, R99). -/
def encode : Instr → Word
  | .tone sym => commandWord (sym.setWidth 12) 0x10#8
  | .encb b => commandWord (b.setWidth 12) 0x11#8
  | .ench b => commandWord (b.setWidth 12) 0x12#8
  | .encf => commandWord 0#12 0x13#8
  | .dsym => commandWord 0#12 0x20#8
  | .decb => commandWord 0#12 0x21#8
  | .dech => commandWord 0#12 0x22#8
  | .decf => commandWord 0#12 0x23#8
  | .dinit => commandWord 0#12 0x24#8
  | .dstep => commandWord 0#12 0x25#8
  | .henc b => commandWord (b.setWidth 12) 0x30#8
  | .hdec cw => commandWord cw 0x31#8

/-- A row of the opcode table: a word is of the row when `w &&& mask = pattern` (30_encoding.md R81 to R85). -/
structure OpcodeRow where
  mask : Word
  pattern : Word
deriving DecidableEq, Repr

/-- The rows of the opcode map, in its order, with the masks of formats S, B, N and C (30_encoding.md R81 to R85). -/
def opcodeRows : List OpcodeRow :=
  [⟨0xFFFFFCFF#32, 0x10#32⟩, ⟨0xFFFF00FF#32, 0x11#32⟩, ⟨0xFFFF00FF#32, 0x12#32⟩, ⟨0xFFFFFFFF#32, 0x13#32⟩,
   ⟨0xFFFFFFFF#32, 0x20#32⟩, ⟨0xFFFFFFFF#32, 0x21#32⟩, ⟨0xFFFFFFFF#32, 0x22#32⟩, ⟨0xFFFFFFFF#32, 0x23#32⟩,
   ⟨0xFFFFFFFF#32, 0x24#32⟩, ⟨0xFFFFFFFF#32, 0x25#32⟩, ⟨0xFFFF00FF#32, 0x30#32⟩, ⟨0xFFF000FF#32, 0x31#32⟩]

/-- The command word that the opcode table's bits `w`, of which it gives `nbits`, stand for: one 32-bit word, every bit
above `nbits` zero (30_encoding.md R80). `none` where the bits do not fit one word. -/
def tableWord (nbits w : Nat) : Option Word :=
  if w % 2 ^ nbits < 2 ^ 32 then some (BitVec.ofNat 32 (w % 2 ^ nbits)) else none

/-- The command this decoder reads from a row's bits, `none` where it refuses. -/
def decodeTableWord (nbits w : Nat) : Option Instr :=
  match tableWord nbits w with
  | none => none
  | some v => (decode v).toOption

end Sys2Proof
end

