-- ==== Sys2Proof/Config.lean ====
section
/-! DEFINITION. What is fixed for the machine: the fixed parameters of 00_scope.md R6, the value the capacities have in
`State.reset`, and the free values the spec leaves open (20_memory.md R70). -/

namespace Sys2Proof.Config

/-- SAMPLE_RATE, samples per second (00_scope.md R6). -/
def sampleRate : Nat := 44100

/-- FULL_SCALE, the largest sample (00_scope.md R6). -/
def fullScale : Nat := 32767

/-- PLAIN_LEN, symbols of a plain byte (00_scope.md R6). -/
def plainLen : Nat := 8

/-- CW_LEN, symbols of a protected byte (00_scope.md R6). -/
def cwLen : Nat := 12

/-- PREAMBLE_LEN, symbols of the preamble (00_scope.md R6). -/
def preambleLen : Nat := 10

/-- DESIGN CHOICE (unsafe, assumption 4): the capacities are open parameters (92_eei_decisions.md D5) and stand in the
state; only `State.reset` needs a value, the largest that 20_memory.md R69 allows. -/
def resetCapacity : Word := 0xFFFFFFFF#32

/-- The free value of an unspecified byte (20_memory.md R70): no body that a proof could see. The arguments are the
state's counter, the buffer's Sel number and the index (assumption 2). -/
opaque unspecifiedByte : Nat → Nat → Nat → Byte

/-- The free value of an unspecified sample (20_memory.md R70), as `unspecifiedByte`. -/
opaque unspecifiedSample : Nat → Nat → Nat → Sample

end Sys2Proof.Config
end

