-- ==== Sys2Proof/Machine/Numeric.lean ====
section
/-! DEFINITION. The two real-valued functions of 00_scope.md R13, exactly, by integer arithmetic (assumption 5).
QSAMPLE (40_tone_generator.md R117) and PEAKBIN (41_symbol_detector.md R132) only ever ask for the sign of a sum
`c₁·cos(2π·t₁/N) + c₂·cos(2π·t₂/N) + …` with integer c and t. `cosSign` decides that sign: a fixed-point evaluation with a
bound on its error; where the bound leaves the sign open, an exact test whether the sum is 0; and where it is not, the
evaluation again at twice the precision, up to a precision at which a sum that is not 0 must show its sign.
Sys2Proof/Laws/Numeric*.lean prove that the sign is that of the real number. -/

namespace Sys2Proof.Machine

/-- A sum of cosines: the pair (t, c) stands for `c·cos(2π·t/N)`. -/
abbrev CosSum := List (Nat × Int)

/-- The first n terms of `2^P·arctan(1/q)`, each cut off to an integer. -/
def arctanInvFix (q P : Nat) : Nat → Int
  | 0 => 0
  | n + 1 =>
    arctanInvFix q P n
      + (if n % 2 = 0 then 1 else -1) * ((2 ^ P / ((2 * n + 1) * q ^ (2 * n + 1)) : Nat) : Int)

/-- `2^P·π`, by `π = 16·arctan(1/5) - 4·arctan(1/239)`. -/
def piFix (P : Nat) : Nat :=
  (16 * arctanInvFix 5 P (P / 4 + 1) - 4 * arctanInvFix 239 P (P / 4 + 1)).toNat

/-- The cosine series from its term j on, m terms deep, for `Y = 2^P·x²`; from j = 0 it is `2^P·cos x`. -/
def cosHorner (P Y : Nat) : Nat → Nat → Nat
  | 0, _ => 2 ^ P
  | m + 1, j => 2 ^ P - Y * cosHorner P Y m (j + 1) / (2 ^ P * ((2 * j + 1) * (2 * j + 2)))

/-- `2^P·x` for the angle `x = π·a/b`, cut off to an integer. -/
def angleFix (P a b : Nat) : Nat := piFix P * a / b

/-- `2^P·cos(π·a/b)` for `2a ≤ b`. -/
def cosFix (P a b : Nat) : Nat :=
  cosHorner P (angleFix P a b * angleFix P a b / 2 ^ P) (P / 4 + 2) 0

/-- The angle `2π·t/N` folded into half a turn: the cosine is the same at `t`, at `t mod N` and at `N - t mod N`. -/
def foldTurn (N t : Nat) : Nat := min (t % N) (N - t % N)

/-- `2^P·cos(2π·t/N)`. -/
def cosTurnFix (P N t : Nat) : Int :=
  if 4 * foldTurn N t ≤ N then (cosFix P (2 * foldTurn N t) N : Int)
  else -(cosFix P (N - 2 * foldTurn N t) N : Int)

/-- `2^P` times a sum of cosines. -/
def cosSumFix (P N : Nat) : CosSum → Int
  | [] => 0
  | (t, c) :: r => c * cosTurnFix P N t + cosSumFix P N r

/-- The error of `cosTurnFix` is at most this. -/
def cosError (P : Nat) : Nat := 10 * P + 100

/-- The sum of the magnitudes of a sum's coefficients. -/
def weight : CosSum → Nat
  | [] => 0
  | (_, c) :: r => c.natAbs + weight r

/-- The sign of a sum of cosines, where precision P settles it. -/
def approxSign (P N : Nat) (l : CosSum) : Option Int :=
  if ((cosError P * weight l : Nat) : Int) < cosSumFix P N l then some 1
  else if cosSumFix P N l < -((cosError P * weight l : Nat) : Int) then some (-1)
  else none

/-- Add a term, joining it with the term of the same t. -/
def addTerm (t : Nat) (c : Int) : CosSum → CosSum
  | [] => [(t, c)]
  | (u, d) :: r => if u = t then (u, d + c) :: r else (u, d) :: addTerm t c r

/-- Join the terms of equal t. -/
def joinTerms : CosSum → CosSum
  | [] => []
  | (t, c) :: r => addTerm t c (joinTerms r)

/-- Join the terms of equal t and drop those that cancel. -/
def collect (l : CosSum) : CosSum := (joinTerms l).filter (fun x => x.2 != 0)

/-- The prime factors of n from d on, by trial division with the given fuel. -/
def trialFactors : Nat → Nat → Nat → List Nat
  | 0, _, n => if 1 < n then [n] else []
  | f + 1, d, n =>
    if n < d * d then (if 1 < n then [n] else [])
    else if n % d = 0 then
      (if (trialFactors f d (n / d)).head? = some d then trialFactors f d (n / d)
       else d :: trialFactors f d (n / d))
    else trialFactors f (d + 1) n

/-- A polynomial in a primitive N-th root of unity ζ, (t, c) standing for `c·ζ^t`, multiplied by `ζ^(N/q) - 1`. -/
def mulRootMinusOne (N q : Nat) (l : CosSum) : CosSum :=
  collect (l.flatMap (fun x => [((x.1 + N / q) % N, x.2), (x.1, -x.2)]))

/-- The exact test for 0. Twice the sum is `Σ c·(ζ^t + ζ^(N-t))`, ζ a primitive N-th root of unity. It is multiplied by
`ζ^(N/q) - 1` for the prime factors q of N; none of these factors is 0, and together they kill every root of unity that is
not primitive, so the sum is 0 exactly when every coefficient modulo `x^N - 1` cancels. -/
def vanishes (N : Nat) (l : CosSum) : Bool :=
  ((trialFactors N 2 N).foldr (mulRootMinusOne N)
    (collect (l.flatMap (fun x => [(x.1 % N, x.2), ((N - x.1 % N) % N, x.2)])))).isEmpty

/-- Double the precision until it settles the sign. -/
def refineSign (N : Nat) (l : CosSum) : Nat → Nat → Int
  | 0, _ => 0
  | f + 1, P =>
    match approxSign P N l with
    | some s => s
    | none => refineSign N l f (2 * P)

/-- Doublings that are enough: a sum that is not 0 is half an algebraic integer whose conjugates are at most twice its
weight, so it is not smaller than the inverse of their product. -/
def refineFuel (N : Nat) (l : CosSum) : Nat := (N + 1) * (Nat.log2 (2 * weight l) + 1) + 1

/-- The sign, -1, 0 or 1, of a sum of cosines whose t are folded and joined. -/
def cosSignCollected (N : Nat) (l : CosSum) : Int :=
  match approxSign 64 N l with
  | some s => s
  | none => if vanishes N l then 0 else refineSign N l (refineFuel N l) 128

/-- The sign, -1, 0 or 1, of a sum of cosines `Σ c·cos(2π·t/N)`. -/
def cosSign (N : Nat) (l : CosSum) : Int :=
  cosSignCollected N (collect (l.map (fun x => (foldTurn N x.1, x.2))))

/-- `Σ w[n]·w[(n+m) mod N]`, the circular autocorrelation of a window at lag m. -/
def autocorrAt (w : List Int) (m : Nat) : Int :=
  (List.zipWith (· * ·) w (w.drop m ++ w.take m)).sum

/-- The circular autocorrelation of a window at every lag: `MAG2(w, k) = Σ r[m]·cos(2π·k·m/N)`. -/
def autocorr (w : List Int) : List Int := (List.range w.length).map (autocorrAt w)

/-- The terms of `Σ r[m]·cos(2π·k·m/N)` from lag m on, each times s. -/
def magTerms (N k : Nat) (s : Int) : Nat → List Int → CosSum
  | _, [] => []
  | m, r :: rs => (k * m % N, s * r) :: magTerms N k s (m + 1) rs

/-- `MAG2(w, k) > MAG2(w, j)` for the window with autocorrelation r (41_symbol_detector.md R131). -/
def magGreater (N : Nat) (r : List Int) (k j : Nat) : Bool :=
  cosSign N (magTerms N k 1 0 r ++ magTerms N j (-1) 0 r) == 1

/-- Look at the bins k, k+1, …, f of them, with `best` the best so far: a later bin must be strictly greater. -/
def scanBins (N : Nat) (r : List Int) : Nat → Nat → Nat → Nat
  | 0, _, best => best
  | f + 1, k, best =>
    match magGreater N r k best with
    | true => scanBins N r f (k + 1) k
    | false => scanBins N r f (k + 1) best

/-- PEAKBIN (41_symbol_detector.md R132): the least k in `0 .. floor(N/2)` of the greatest MAG2. -/
def peakBin (w : List Int) : Nat := scanBins w.length (autocorr w) (w.length / 2) 1 0

/-- `d(p) = |2·((2p) mod M) - M|` (40_tone_generator.md R116): |SINE(p, M)| decreases as d(p) increases. -/
def phaseDist (M p : Nat) : Nat := (2 * ((2 * p % M : Nat) : Int) - (M : Int)).natAbs

/-- The first phase of least d among `best` and a list (40_tone_generator.md R116). -/
def leastDist (M : Nat) : List Nat → Nat → Nat
  | [], best => best
  | p :: r, best =>
    match decide (phaseDist M p < phaseDist M best) with
    | true => leastDist M r p
    | false => leastDist M r best

/-- `c·SINE(p, M)` as a term over 4M parts of a turn: `sin(2π·p/M) = cos(2π·(4p + 3M)/(4M))`. -/
def sineTerm (M p : Nat) (c : Int) : Nat × Int := ((4 * p + 3 * M) % (4 * M), c)

/-- `c·|SINE(p, M)|` as a term over 4M parts of a turn: the sine is negative past half a turn. -/
def absSineTerm (M p : Nat) (c : Int) : Nat × Int := sineTerm M p (if 2 * (p % M) ≤ M then c else -c)

/-- `32767·|SINE(p, M)| / |SINE(ps, M)| ≥ k - 1/2`: the rounded magnitude is at least k (40_tone_generator.md R117). -/
def reaches (M p ps k : Nat) : Bool :=
  decide (0 ≤ cosSign (4 * M)
    [absSineTerm M p (2 * Config.fullScale), absSineTerm M ps (1 - 2 * (k : Int))])

/-- `2^P·|SINE(p, M)|`. -/
def absSineFix (P M p : Nat) : Nat := (cosTurnFix P (4 * M) ((4 * p + 3 * M) % (4 * M))).natAbs

/-- A guess at the rounded magnitude; `roundedMag` checks it. -/
def guessMag (M p ps : Nat) : Nat :=
  (2 * Config.fullScale * absSineFix 64 M p + absSineFix 64 M ps) / (2 * absSineFix 64 M ps)

/-- The greatest magnitude that is reached, bit by bit from above. -/
def searchMag (M p ps : Nat) : Nat → Nat → Nat
  | 0, k => k
  | b + 1, k =>
    match reaches M p ps (k + 2 ^ b) with
    | true => searchMag M p ps b (k + 2 ^ b)
    | false => searchMag M p ps b k

/-- `32767·|SINE(p, M)| / |SINE(ps, M)|` rounded to the nearest integer, a half upwards: the greatest magnitude that is
reached. -/
def roundedMag (M p ps : Nat) : Nat :=
  match reaches M p ps (guessMag M p ps) && !reaches M p ps (guessMag M p ps + 1) with
  | true => guessMag M p ps
  | false => searchMag M p ps 16 0

/-- QSAMPLE (40_tone_generator.md R117): `RN(32767·SINE(p, M) / |SINE(ps, M)|)`, halves away from zero. -/
def qsample (M p ps : Nat) : Int :=
  if 2 * (p % M) ≤ M then (roundedMag M p ps : Int) else -(roundedMag M p ps : Int)

end Sys2Proof.Machine
end

