-- ==== Sys2Proof/Machine/Flags.lean ====
section
/-! DEFINITION. STATUS (10_state.md R22, R40 to R43) and the error codes (60_exceptions.md R216). -/

namespace Sys2Proof.Machine

/-- The errors a command can end with (60_exceptions.md R216). -/
inductive CoreError where
  | illegalCmd
  | badConfig
  | rateMismatch
  | shortWindow
  | zeroPeak
  | overflow
deriving DecidableEq, Repr

/-- ERRCODE (60_exceptions.md R216). -/
def CoreError.code : CoreError → BitVec 4
  | .illegalCmd => 1#4
  | .badConfig => 2#4
  | .rateMismatch => 3#4
  | .shortWindow => 4#4
  | .zeroPeak => 5#4
  | .overflow => 6#4

/-- The STATUS of a command that is carried out: ERR = 0, ERRCODE = 0, BUSY and the reserved bits 0 (10_state.md R22). -/
def statusOk (isend trunc : Bool) : BitVec 12 :=
  BitVec.ofNat 12 (2 * isend.toNat + 4 * trunc.toNat)

/-- The STATUS of a command that ends with an error: ERR = 1, ERRCODE, ISEND = TRUNC = 0 (60_exceptions.md R226). -/
def statusError (e : CoreError) : BitVec 12 := BitVec.ofNat 12 (8 + 256 * e.code.toNat)

/-- BUSY, bit 0 (10_state.md R22). -/
def busyFlag (status : BitVec 12) : Bool := status.getLsbD 0

/-- ISEND, bit 1 (10_state.md R22, R40). -/
def isendFlag (status : BitVec 12) : Bool := status.getLsbD 1

/-- TRUNC, bit 2 (10_state.md R22, R41). -/
def truncFlag (status : BitVec 12) : Bool := status.getLsbD 2

/-- ERR, bit 3 (10_state.md R22, R42). -/
def errFlag (status : BitVec 12) : Bool := status.getLsbD 3

/-- The reserved bits 7:4 (10_state.md R22). -/
def statusReserved (status : BitVec 12) : BitVec 4 := status.extractLsb' 4 4

/-- ERRCODE, bits 11:8 (10_state.md R22). -/
def errCode (status : BitVec 12) : BitVec 4 := status.extractLsb' 8 4

end Sys2Proof.Machine
end

