-- ==== Sys2Proof/Machine/Operands.lean ====
section
/-! DEFINITION. The operand forms of the commands and the line formats (30_encoding.md R82 to R98): symbols, bits, plain
bytes, codeword positions, frames. -/

namespace Sys2Proof

/-- The code of a symbol: ZERO 0, ONE 1, END 2 (30_encoding.md R87). -/
def Symbol.code : Symbol → BitVec 2
  | .zero => 0#2
  | .one => 1#2
  | .endSym => 2#2

/-- The symbol of a code; 3 is no symbol (30_encoding.md R82). -/
def Symbol.ofCode (c : BitVec 2) : Option Symbol :=
  match c.toNat with
  | 0 => some .zero
  | 1 => some .one
  | 2 => some .endSym
  | _ => none

end Sys2Proof

namespace Sys2Proof.Machine

/-- A data bit as a symbol: 0 is ZERO, 1 is ONE (30_encoding.md R87). -/
def bitSymbol : Bool → Symbol
  | false => .zero
  | true => .one

/-- The number whose binary numeral is a list of bits, the first the most significant (30_encoding.md R89, R90). -/
def bitsToNat (v : List Bool) : Nat := v.foldl (fun n x => 2 * n + x.toNat) 0

/-- The bits `b[7], …, b[0]` of a byte (20_memory.md R66). -/
def byteBits (b : Byte) : List Bool := [7, 6, 5, 4, 3, 2, 1, 0].map b.getLsbD

/-- PackMSB (42_byte_codec.md R145): the first bit is the most significant. -/
def packMSB (v : List Bool) : Byte := BitVec.ofNat 8 (bitsToNat v)

/-- PlainSyms (30_encoding.md R89): eight symbols, most significant bit first. -/
def plainSyms (b : Byte) : List Symbol := (byteBits b).map bitSymbol

/-- `c(p)`, the bit at position p of a codeword, at CW bit `12 - p` (30_encoding.md R90). -/
def posBit (c : Codeword) (p : Nat) : Bool := c.getLsbD (12 - p)

/-- The bits `c(1), …, c(12)` of a codeword (30_encoding.md R90). -/
def codeBits (c : Codeword) : List Bool := [1, 2, 3, 4, 5, 6, 7, 8, 9, 10, 11, 12].map (posBit c)

/-- The codeword of a list of twelve bits, the first at position 1 (30_encoding.md R90). -/
def packCode (v : List Bool) : Codeword := BitVec.ofNat 12 (bitsToNat v)

/-- CwSyms (30_encoding.md R90): twelve symbols, position 1 first. -/
def cwSyms (c : Codeword) : List Symbol := (codeBits c).map bitSymbol

/-- PreambleSyms (30_encoding.md R93). -/
def preambleSyms : List Symbol :=
  [.one, .zero, .one, .zero, .one, .zero, .one, .zero, .one, .zero]

/-- HeaderSyms (30_encoding.md R94): every character plain, then the zero byte, whatever the mode. -/
def headerSyms (ext : List Byte) : List Symbol := ext.flatMap plainSyms ++ plainSyms 0#8

/-- PayloadSyms (30_encoding.md R95), `enc` giving the symbols of one byte. -/
def payloadSyms (enc : Byte → List Symbol) (data : List Byte) : List Symbol := data.flatMap enc

/-- SentinelSyms (30_encoding.md R96). -/
def sentinelSyms (n : Nat) : List Symbol := List.replicate n .endSym

/-- Symbols of a payload byte: 12 when MODE = 1, else 8 (30_encoding.md R98). -/
def payloadLen (mode : BitVec 1) : Nat := if mode = 1#1 then Config.cwLen else Config.plainLen

/-- Symbols of the preamble: 10 when MODE = 1, else none (30_encoding.md R93). -/
def preambleCount (mode : BitVec 1) : Nat := if mode = 1#1 then Config.preambleLen else 0

/-- The number of symbols of a frame (30_encoding.md R97). -/
def frameLen (mode : BitVec 1) (extLen dataLen endRepeat : Nat) : Nat :=
  preambleCount mode + 8 * (extLen + 1) + payloadLen mode * dataLen + endRepeat

end Sys2Proof.Machine
end

