-- ==== Sys2Proof/Machine/Memory.lean ====
section
/-! DEFINITION. A buffer's contents (10_state.md R39, 20_memory.md R60): a list of (index, element) pairs in one
canonical form, indices strictly rising. An unlisted index reads as no value (20_memory.md R70: a never-written element
holds no defined value; what a reader then gets is the free value of Machine/Ops.lean). -/

namespace Sys2Proof.Machine

/-- The contents of a buffer whose elements have w bits (`Host.Cell` pairs for w = 8). -/
abbrev Memory (w : Nat) := List (Nat × BitVec w)

/-- The canonical form: indices strictly rising. An unlisted index has no value, so no entry can equal it. -/
def Memory.wf {w : Nat} : Memory w → Bool
  | [] => true
  | [_] => true
  | (a, _) :: (b, v) :: r => decide (a < b) && Memory.wf ((b, v) :: r)

/-- The element last written at an index; `none` where nothing has been written since reset. -/
def Memory.read? {w : Nat} : Memory w → Nat → Option (BitVec w)
  | [], _ => none
  | (a, v) :: r, i => if a = i then some v else Memory.read? r i

/-- A write of one element, `BUF[i] <- v` (00_scope.md R12). -/
def Memory.write {w : Nat} : Memory w → Nat → BitVec w → Memory w
  | [], i, v => [(i, v)]
  | (a, x) :: r, i, v =>
    if a < i then (a, x) :: Memory.write r i v
    else if a = i then (i, v) :: r
    else (i, v) :: (a, x) :: r

/-- The pairs of a list of elements stored in ascending index from `base`. -/
def Memory.cells {w : Nat} : Nat → List (BitVec w) → Memory w
  | _, [] => []
  | base, v :: vs => (base, v) :: Memory.cells (base + 1) vs

/-- `BUF[0 .. len) <- vs` in ascending index (20_memory.md R75); elements at and above `len` stay as they were. -/
def Memory.writeFront {w : Nat} (m : Memory w) (vs : List (BitVec w)) : Memory w :=
  Memory.cells 0 vs ++ m.filter (fun c => decide (vs.length ≤ c.1))

end Sys2Proof.Machine
end

