-- ==== Sys2Proof/Machine/State.lean ====
section
/-! DEFINITION. The state of F2T-CORE: every register and buffer of 10_state.md R20, the open capacities, and the
model's own fields (the host's queue of actions, the values its reads returned, the counter of free values). -/

namespace Sys2Proof.Machine

/-- The states of the frame decoder (10_state.md R30). -/
inductive FState where
  | preamble
  | header
  | payload
  | done
deriving DecidableEq, Repr

/-- One action of the host (30_encoding.md R99), or of the reset input (70_reset_and_hazards.md R240). -/
inductive HostAction where
  /-- WR: write a word to the register at a byte offset. -/
  | wr (offset value : Word)
  /-- RD: read the register at a byte offset. -/
  | rd (offset : Word)
  /-- WR of the value the host's last read returned, as LOOPBACK does (30_encoding.md R100; assumption 6). -/
  | wrLast (offset : Word)
  /-- The reset event (70_reset_and_hazards.md R240; assumption 10). -/
  | reset
deriving DecidableEq, Repr

/-- Why the model's machine stops. No command stops: the core's own errors are next states (60_exceptions.md R215). -/
inductive Fault where
  /-- Raised by a host access at an offset that is not a multiple of 4, which the spec puts outside itself
  (20_memory.md R61, 70_reset_and_hazards.md R245 U11). Safe: nothing is claimed of such an access (assumption 7). -/
  | misalignedAccess (offset : Word)
  /-- Raised by the action `wrLast` when the host has read nothing: there is no value to write back. Safe: it is an
  error of the host's program (assumption 6). -/
  | nothingRead
deriving DecidableEq, Repr

/-- Why the model gives no meaning. -/
inductive Refusal where
  /-- Raised by an arm of exec whose instruction has no meaning yet; no arm is one. Safe: the run stops. -/
  | notModelled (mnemonic : String)
deriving DecidableEq, Repr

/-- The architectural state (10_state.md R20), the open parameters (00_scope.md R9) and the model's own fields. -/
structure State where
  /-- MODE (10_state.md R23). -/
  mode : BitVec 1
  /-- SYMBOL_RATE (10_state.md R24). -/
  symbolRate : Word
  /-- FREQ_LOW (10_state.md R25). -/
  freqLow : Word
  /-- FREQ_HIGH (10_state.md R25). -/
  freqHigh : Word
  /-- FREQ_END (10_state.md R25). -/
  freqEnd : Word
  /-- END_REPEAT (10_state.md R26). -/
  endRepeat : Word
  /-- IN_RATE (10_state.md R27). -/
  inRate : Word
  /-- NSYM (10_state.md R28). -/
  nsym : Word
  /-- FSTATE (10_state.md R30). -/
  fstate : FState
  /-- CURSOR (10_state.md R29). -/
  cursor : Word
  /-- BYTE (10_state.md R31). -/
  byte : Byte
  /-- CW (10_state.md R32). -/
  cw : Codeword
  /-- SYN (10_state.md R33). -/
  syn : BitVec 4
  /-- SYM (10_state.md R34): a symbol, so the code 3 cannot stand in it (assumption 12). -/
  sym : Symbol
  /-- BIN (10_state.md R35). -/
  bin : Word
  /-- STATUS (10_state.md R22). -/
  status : BitVec 12
  /-- EXT_IN_LEN (10_state.md R36). -/
  extInLen : Word
  /-- DATA_IN_LEN (10_state.md R36). -/
  dataInLen : Word
  /-- WAVE_IN_LEN (10_state.md R36). -/
  waveInLen : Word
  /-- EXT_OUT_LEN (10_state.md R37). -/
  extOutLen : Word
  /-- DATA_OUT_LEN (10_state.md R37). -/
  dataOutLen : Word
  /-- WAVE_OUT_LEN (10_state.md R37). -/
  waveOutLen : Word
  /-- BUF_SEL (10_state.md R38). -/
  bufSel : BitVec 3
  /-- BUF_IDX (10_state.md R38). -/
  bufIdx : Word
  /-- EXT_IN (10_state.md R39). -/
  extIn : Memory 8
  /-- DATA_IN (10_state.md R39). -/
  dataIn : Memory 8
  /-- WAVE_IN (10_state.md R39). -/
  waveIn : Memory 16
  /-- EXT_OUT (10_state.md R39). -/
  extOut : Memory 8
  /-- DATA_OUT (10_state.md R39). -/
  dataOut : Memory 8
  /-- WAVE_OUT (10_state.md R39). -/
  waveOut : Memory 16
  /-- EXT_CAP (20_memory.md R69): an open parameter; no step changes it. -/
  extCap : Word
  /-- DATA_CAP (20_memory.md R69), as `extCap`. -/
  dataCap : Word
  /-- WAVE_CAP (20_memory.md R69), as `extCap`. -/
  waveCap : Word
  /-- The MODEL's: the host's actions still to be taken, the next one first (assumption 1). -/
  pending : List HostAction
  /-- The MODEL's: the values the host's reads returned, newest first (70_reset_and_hazards.md R251). -/
  reads : List Word
  /-- The MODEL's: the counter the free values are taken at (20_memory.md R70; assumption 2). -/
  freeCtr : Nat
deriving DecidableEq, Repr

/-- The machine right after reset (10_state.md R46, 70_reset_and_hazards.md R240): every register 0 but FSTATE = DONE, no
element of a buffer with a defined value. The capacities have the value of `Config.resetCapacity` (DESIGN CHOICE,
assumption 4) and the model's own fields are empty (DESIGN CHOICE, assumptions 1 and 2). -/
def State.reset : State where
  mode := 0#1
  symbolRate := 0#32
  freqLow := 0#32
  freqHigh := 0#32
  freqEnd := 0#32
  endRepeat := 0#32
  inRate := 0#32
  nsym := 0#32
  fstate := .done
  cursor := 0#32
  byte := 0#8
  cw := 0#12
  syn := 0#4
  sym := .zero
  bin := 0#32
  status := 0#12
  extInLen := 0#32
  dataInLen := 0#32
  waveInLen := 0#32
  extOutLen := 0#32
  dataOutLen := 0#32
  waveOutLen := 0#32
  bufSel := 0#3
  bufIdx := 0#32
  extIn := []
  dataIn := []
  waveIn := []
  extOut := []
  dataOut := []
  waveOut := []
  extCap := Config.resetCapacity
  dataCap := Config.resetCapacity
  waveCap := Config.resetCapacity
  pending := []
  reads := []
  freeCtr := 0

end Sys2Proof.Machine
end

