-- ==== Sys2Proof/Machine/Ops.lean ====
section
/-! DEFINITION. The named operations over the state: the updates of 00_scope.md R12, how a command ends (carried out, or with
an error: 60_exceptions.md R215, R226), the derived parameters and predicates (00_scope.md R8, R16), reads of the input
buffers (20_memory.md R70) and windows (R68). -/

namespace Sys2Proof.Machine

/-! Updates. -/

/-- STATUS <- st: every command writes it whole (10_state.md R22). -/
def State.setStatus (s : State) (st : BitVec 12) : State := { s with status := st }

/-- SYM <- x, BIN <- k (10_state.md R34, R35). -/
def State.setSymBin (s : State) (x : Symbol) (k : Word) : State := { s with sym := x, bin := k }

/-- BYTE <- b (10_state.md R31). -/
def State.setByte (s : State) (b : Byte) : State := { s with byte := b }

/-- CW <- c, SYN <- y (10_state.md R32, R33). -/
def State.setCode (s : State) (c : Codeword) (y : BitVec 4) : State := { s with cw := c, syn := y }

/-- CURSOR <- c (10_state.md R29). -/
def State.setCursor (s : State) (c : Word) : State := { s with cursor := c }

/-- FSTATE <- f, the only control transfer of the core (10_state.md R30). -/
def State.setFstate (s : State) (f : FState) : State := { s with fstate := f }

/-- WAVE_OUT and WAVE_OUT_LEN (10_state.md R37). -/
def State.setWaveOut (s : State) (m : Memory 16) (n : Word) : State := { s with waveOut := m, waveOutLen := n }

/-- EXT_OUT_LEN <- 0, DATA_OUT_LEN <- 0 (44_frame_codec.md R190). -/
def State.clearOutputs (s : State) : State := { s with extOutLen := 0#32, dataOutLen := 0#32 }

/-- append(EXT_OUT, b) (00_scope.md R12). -/
def State.appendExtOut (s : State) (b : Byte) : State :=
  { s with extOut := s.extOut.write s.extOutLen.toNat b, extOutLen := s.extOutLen + 1#32 }

/-- append(DATA_OUT, b) (00_scope.md R12). -/
def State.appendDataOut (s : State) (b : Byte) : State :=
  { s with dataOut := s.dataOut.write s.dataOutLen.toNat b, dataOutLen := s.dataOutLen + 1#32 }

/-! How a command ends. -/

/-- Ending with an error, the core's counterpart of taking an exception (60_exceptions.md R215, R226): ERR <- 1, ERRCODE,
ISEND <- 0, TRUNC <- 0. The writes the pseudocode made before the raise stand (00_scope.md R12); nothing is saved and
nothing is returned to (R228). -/
def raise (e : CoreError) (s : State) : State := s.setStatus (statusError e)

/-- Ending normally: ISEND and TRUNC as given, ERR <- 0, ERRCODE <- 0 (10_state.md R22). The next command overwrites
whatever an earlier one left, which is all the return from an error there is (60_exceptions.md R228). -/
def finish (isend trunc : Bool) (s : State) : State := s.setStatus (statusOk isend trunc)

/-- How a procedure of the pseudocode ends: with its effect, or by `raise`, with the state its writes had made. -/
inductive Ended where
  | completed (s : State)
  | raised (e : CoreError) (s : State)
deriving DecidableEq, Repr

/-! Derived parameters and predicates. -/

/-- NSYM as a function of SYMBOL_RATE (00_scope.md R8): the nearest integer to 44100 / rate, halves up; 0 for rate 0. -/
def nsymOf (rate : Word) : Word :=
  if rate = 0#32 then 0#32
  else BitVec.ofNat 32 ((2 * Config.sampleRate + rate.toNat) / (2 * rate.toNat))

/-- CFG_OK (00_scope.md R16). -/
def State.cfgOk (s : State) : Bool := decide (1 ≤ s.symbolRate.toNat) && decide (1 ≤ s.nsym.toNat)

/-- PHASE_MOD (00_scope.md R8). -/
def State.phaseMod (s : State) : Nat := s.symbolRate.toNat * s.nsym.toNat

/-- FREQ(X), the carrier of a symbol (30_encoding.md R87). -/
def State.freq (s : State) : Symbol → Nat
  | .zero => s.freqLow.toNat
  | .one => s.freqHigh.toNat
  | .endSym => s.freqEnd.toNat

/-! Reads of the input buffers. -/

/-- EXT_IN[i]; a never-written element gives a free value (20_memory.md R70; assumption 2). -/
def State.extInAt (s : State) (i : Nat) : Byte := (s.extIn.read? i).getD (Config.unspecifiedByte s.freeCtr 0 i)

/-- DATA_IN[i], as `extInAt`. -/
def State.dataInAt (s : State) (i : Nat) : Byte := (s.dataIn.read? i).getD (Config.unspecifiedByte s.freeCtr 1 i)

/-- WAVE_IN[i], as `extInAt`. -/
def State.waveInAt (s : State) (i : Nat) : Sample :=
  (s.waveIn.read? i).getD (Config.unspecifiedSample s.freeCtr 2 i)

/-- `EXT_IN[0 .. EXT_IN_LEN)` (44_frame_codec.md R186). -/
def State.extInput (s : State) : List Byte := (List.range s.extInLen.toNat).map s.extInAt

/-- `DATA_IN[0 .. DATA_IN_LEN)` (44_frame_codec.md R186). -/
def State.dataInput (s : State) : List Byte := (List.range s.dataInLen.toNat).map s.dataInAt

/-! Windows. -/

/-- Remaining(c) (41_symbol_detector.md R130): 0 when c is past WAVE_IN_LEN. -/
def State.remaining (s : State) (c : Nat) : Nat := s.waveInLen.toNat - c

/-- Avail(c, L) (41_symbol_detector.md R130): L whole windows remain from c. -/
def State.avail (s : State) (c L : Nat) : Bool := decide (L * s.nsym.toNat ≤ s.remaining c)

/-- Win(c) (41_symbol_detector.md R130): NSYM samples as the signed integers they are. -/
def State.window (s : State) (c : Nat) : List Int :=
  (List.range s.nsym.toNat).map (fun n => (s.waveInAt (c + n)).toInt)

/-- CURSOR <- CURSOR + L*NSYM (10_state.md R29). -/
def State.advance (s : State) (L : Nat) : State :=
  s.setCursor (BitVec.ofNat 32 (s.cursor.toNat + L * s.nsym.toNat))

end Sys2Proof.Machine
end

