-- ==== Sys2Proof/Machine/Detector.lean ====
section
/-! DEFINITION. The FSK tone detector: the two-stage classification (41_symbol_detector.md R130 to R135, R138) and the command
DSYM (R136, R140). -/

namespace Sys2Proof.Machine

/-- `|num - f*den|`, den times the distance of the frequency num/den from the carrier f (41_symbol_detector.md R134). -/
def carrierDist (num den f : Nat) : Nat := ((num : Int) - (f : Int) * (den : Int)).natAbs

/-- ClassifyQ(num, den) (41_symbol_detector.md R134): the two-stage rule, not a nearest-carrier vote (R138). -/
def State.classifyQ (s : State) (num den : Nat) : Symbol :=
  if carrierDist num den (s.freq .zero) < carrierDist num den (s.freq .one) then .zero
  else if carrierDist num den (s.freq .endSym) < carrierDist num den (s.freq .one) then .endSym
  else .one

/-- Classify(k): bin k stands for `k * SAMPLE_RATE / NSYM` hertz (41_symbol_detector.md R133, R134). -/
def State.classify (s : State) (k : Nat) : Symbol := s.classifyQ (k * Config.sampleRate) s.nsym.toNat

/-- DecodeSymbol (41_symbol_detector.md R135). -/
def State.decodeSymbol (s : State) (w : List Int) : Symbol := s.classify (peakBin w)

/-- Classify the window at c: SYM <- s, BIN <- k (41_symbol_detector.md R135, R136). -/
def State.classifyWindow (s : State) (c : Nat) : State :=
  s.setSymBin (s.decodeSymbol (s.window c)) (BitVec.ofNat 32 (peakBin (s.window c)))

/-- DSYM (41_symbol_detector.md R136): one window at CURSOR; a short one is refused (R140). -/
def dsym (s : State) : State :=
  if !s.cfgOk then raise .badConfig s
  else if !s.avail s.cursor.toNat 1 then raise .shortWindow s
  else
    finish (s.decodeSymbol (s.window s.cursor.toNat) == .endSym) false
      ((s.classifyWindow s.cursor.toNat).advance 1)

/-- DSYM (41_symbol_detector.md R136). -/
def execDsym (s : State) : Host.Outcome State Fault Refusal := .next (dsym s)

end Sys2Proof.Machine
end

