-- ==== Sys2Proof/Machine/Tone.lean ====
section
/-! DEFINITION. The tone generator and BuildWave, the tail of every encode command (40_tone_generator.md R110 to R122), and
the command TONE (R119). -/

namespace Sys2Proof.Machine

/-- TonePhase(F, n) (40_tone_generator.md R110), in units of `1/PHASE_MOD` turns. -/
def tonePhase (M F n : Nat) : Nat := F * n % M

/-- The phases of a symbol's tone (40_tone_generator.md R111, R112): every tone starts at phase 0 (R113). -/
def State.tonePhases (s : State) (x : Symbol) : List Nat :=
  (List.range s.nsym.toNat).map (tonePhase s.phaseMod (s.freq x))

/-- The symbols that occur in a list (40_tone_generator.md R115: the peak depends on nothing else of it). -/
def usedSymbols (syms : List Symbol) : List Symbol := [.zero, .one, .endSym].filter (fun x => syms.contains x)

/-- pstar, a phase of least d over the phases of the given symbols (40_tone_generator.md R116). Every tone has phase 0. -/
def State.peakPhase (s : State) (used : List Symbol) : Nat :=
  leastDist s.phaseMod (used.flatMap s.tonePhases) 0

/-- P = 0: every raw sample is 0 (40_tone_generator.md R116). -/
def State.zeroPeak (s : State) (used : List Symbol) : Bool :=
  decide (phaseDist s.phaseMod (s.peakPhase used) = s.phaseMod)

/-- The quantised samples of one symbol's tone in a waveform with peak phase ps (40_tone_generator.md R117). -/
def State.toneSamples (s : State) (ps : Nat) (x : Symbol) : List Int :=
  (s.tonePhases x).map (fun p => qsample s.phaseMod p ps)

/-- The samples of a waveform: the tones in list order, nothing between them (30_encoding.md R88, 40_tone_generator.md
R114), with one peak for the whole of it (R115). -/
def State.waveSamples (s : State) (syms : List Symbol) : List Sample :=
  (syms.flatMap (s.toneSamples (s.peakPhase (usedSymbols syms)))).map (BitVec.ofInt 16)

/-- BuildWave (40_tone_generator.md R118); `count` is the length of `syms`. The checks come in this order. -/
def buildWave (count : Nat) (syms : List Symbol) (s : State) : Ended :=
  if !s.cfgOk then .raised .badConfig s
  else if s.waveCap.toNat < s.nsym.toNat * count then .raised .overflow (s.setWaveOut s.waveOut 0#32)
  else if s.zeroPeak (usedSymbols syms) then .raised .zeroPeak (s.setWaveOut s.waveOut 0#32)
  else .completed
    (s.setWaveOut (s.waveOut.writeFront (s.waveSamples syms)) (BitVec.ofNat 32 (s.nsym.toNat * count)))

/-- An encode command: BuildWave, then the command's own result registers, then the flags cleared; on an error of BuildWave
only what BuildWave wrote (60_exceptions.md R226). -/
def encodeCommand (count : Nat) (syms : List Symbol) (results : State → State) (s : State) : State :=
  match buildWave count syms s with
  | .completed t => finish false false (results t)
  | .raised e t => raise e t

/-- TONE sym (40_tone_generator.md R119). The code 3 is ILLEGAL_CMD; no word spells it (30_encoding.md R82). -/
def execTone (sym : BitVec 2) (s : State) : Host.Outcome State Fault Refusal :=
  match Symbol.ofCode sym with
  | none => .next (raise .illegalCmd s)
  | some x => .next (encodeCommand 1 [x] (fun t => t.setSymBin x t.bin) s)

end Sys2Proof.Machine
end

