-- ==== Sys2Proof/Machine/ByteCodec.lean ====
section
/-! DEFINITION. The byte codec in plain mode: DecodeByteWindow (42_byte_codec.md R147), ENCB (R146) and DECB (R148). -/

namespace Sys2Proof.Machine

/-- The result of a byte window (42_byte_codec.md R147). -/
inductive ByteResult where
  | trunc
  | endMark
  | bits (v : List Bool)
deriving DecidableEq, Repr

/-- The data bit of a symbol; END carries none (30_encoding.md R87). -/
def symbolBit : Symbol → Option Bool
  | .zero => some false
  | .one => some true
  | .endSym => none

/-- The windows of a byte window, n of them from c on: SYM and BIN are written for each one classified, and the first END
ends it (42_byte_codec.md R147). `v` holds the bits so far, the last one first. -/
def classifyRun : Nat → Nat → List Bool → State → ByteResult × State
  | 0, _, v, s => (.bits v.reverse, s)
  | n + 1, c, v, s =>
    match symbolBit (s.decodeSymbol (s.window c)) with
    | none => (.endMark, s.classifyWindow c)
    | some x => classifyRun n (c + s.nsym.toNat) (x :: v) (s.classifyWindow c)

/-- DecodeByteWindow(c, L) (42_byte_codec.md R147): the availability of the whole byte window is tested first. -/
def decodeByteWindow (c L : Nat) (s : State) : ByteResult × State :=
  if s.avail c L then classifyRun L c [] s else (.trunc, s)

/-- ENCB b (42_byte_codec.md R146). MODE is ignored. -/
def execEncb (b : Byte) (s : State) : Host.Outcome State Fault Refusal :=
  .next (encodeCommand Config.plainLen (plainSyms b) (fun t => t.setByte b) s)

/-- DECB (42_byte_codec.md R148). -/
def decb (s : State) : State :=
  if !s.cfgOk then raise .badConfig s
  else
    match decodeByteWindow s.cursor.toNat Config.plainLen s with
    | (.trunc, t) => finish false true t
    | (.endMark, t) => finish true false t
    | (.bits v, t) => finish false false ((t.setByte (packMSB v)).advance Config.plainLen)

/-- DECB (42_byte_codec.md R148). -/
def execDecb (s : State) : Host.Outcome State Fault Refusal := .next (decb s)

end Sys2Proof.Machine
end

