-- ==== Sys2Proof/Machine/Hamming.lean ====
section
/-! DEFINITION. The byte codec in protected mode, Hamming(12,8) (43_hamming.md R160 to R169), and the commands HENC (R170),
HDEC (R171), ENCH (R172) and DECH (R174). -/

namespace Sys2Proof.Machine

/-- HamEnc(b) (43_hamming.md R161, R163, R164): the data bits at positions 1, 2, 3, 5, 6, 7, 9 and 4, the parity bits in
the order R163 computes them. -/
def hamEnc (b : Byte) : Codeword :=
  let c1 := b.getLsbD 7
  let c2 := b.getLsbD 6
  let c3 := b.getLsbD 5
  let c5 := b.getLsbD 4
  let c6 := b.getLsbD 3
  let c7 := b.getLsbD 2
  let c9 := b.getLsbD 1
  let c4 := b.getLsbD 0
  let c11 := c1 ^^ c3 ^^ c5 ^^ c7 ^^ c9
  let c10 := c2 ^^ c3 ^^ c6 ^^ c7 ^^ c11
  let c12 := c4 ^^ c5 ^^ c6 ^^ c7
  let c8 := c9 ^^ c10 ^^ c11 ^^ c12
  packCode [c1, c2, c3, c4, c5, c6, c7, c8, c9, c10, c11, c12]

/-- The xor of c(p) over a check set (43_hamming.md R162). -/
def checkBit (c : Codeword) (positions : List Nat) : Bool := positions.foldl (fun x p => x ^^ posBit c p) false

/-- The check sets K8, K4, K2, K1 (43_hamming.md R160, R162), the heaviest first. -/
def checkSets : List (List Nat) := [[8, 9, 10, 11, 12], [4, 5, 6, 7, 12], [2, 3, 6, 7, 10, 11], [1, 3, 5, 7, 9, 11]]

/-- Syndrome(c) = 8*s8 + 4*s4 + 2*s2 + s1 (43_hamming.md R165). -/
def syndrome (c : Codeword) : BitVec 4 := BitVec.ofNat 4 (bitsToNat (checkSets.map (checkBit c)))

/-- A word with the bit at position p inverted (43_hamming.md R166). -/
def flipPos (c : Codeword) (p : Nat) : Codeword := c ^^^ (1#12 <<< (12 - p))

/-- Correct(c) (43_hamming.md R166): syndromes 13, 14 and 15 name no position (R169). -/
def correct (c : Codeword) : Codeword :=
  if 1 ≤ (syndrome c).toNat ∧ (syndrome c).toNat ≤ 12 then flipPos c (syndrome c).toNat else c

/-- Extract(c) (43_hamming.md R167). -/
def extract (c : Codeword) : Byte := packMSB ([1, 2, 3, 5, 6, 7, 9, 4].map (posBit c))

/-- The registers HamDec(c) writes (43_hamming.md R168): SYN and CW and BYTE. -/
def State.setDecoded (s : State) (c : Codeword) : State :=
  (s.setCode (correct c) (syndrome c)).setByte (extract (correct c))

/-- HENC b (43_hamming.md R170): the configuration is not consulted. -/
def execHenc (b : Byte) (s : State) : Host.Outcome State Fault Refusal :=
  .next (finish false false ((s.setByte b).setCode (hamEnc b) 0#4))

/-- HDEC cw (43_hamming.md R171): the configuration is not consulted; no syndrome is an error (R169). -/
def execHdec (cw : Codeword) (s : State) : Host.Outcome State Fault Refusal :=
  .next (finish false false (s.setDecoded cw))

/-- ENCH b (43_hamming.md R172). MODE is ignored. -/
def execEnch (b : Byte) (s : State) : Host.Outcome State Fault Refusal :=
  .next (encodeCommand Config.cwLen (cwSyms (hamEnc b)) (fun t => (t.setByte b).setCode (hamEnc b) 0#4) s)

/-- DECH (43_hamming.md R174): an END among the twelve ends the codeword, as in plain mode. -/
def dech (s : State) : State :=
  if !s.cfgOk then raise .badConfig s
  else
    match decodeByteWindow s.cursor.toNat Config.cwLen s with
    | (.trunc, t) => finish false true t
    | (.endMark, t) => finish true false t
    | (.bits v, t) => finish false false ((t.setDecoded (packCode v)).advance Config.cwLen)

/-- DECH (43_hamming.md R174). -/
def execDech (s : State) : Host.Outcome State Fault Refusal := .next (dech s)

end Sys2Proof.Machine
end

