-- ==== Sys2Proof/Machine/Frame.lean ====
section
/-! DEFINITION. The frame assembler (44_frame_codec.md R185, R186) and the frame decoder's state machine (R189 to R196): the
commands ENCF, DINIT, DSTEP and DECF. -/

namespace Sys2Proof.Machine

/-- The symbols of one payload byte (30_encoding.md R95). -/
def payloadByteSyms (mode : BitVec 1) (b : Byte) : List Symbol :=
  if mode = 1#1 then cwSyms (hamEnc b) else plainSyms b

/-- FrameSyms (30_encoding.md R97): preamble in protected mode only, header always plain, payload by mode, sentinel. -/
def frameSyms (mode : BitVec 1) (ext data : List Byte) (endRepeat : Nat) : List Symbol :=
  (if mode = 1#1 then preambleSyms else []) ++ headerSyms ext
    ++ payloadSyms (payloadByteSyms mode) data ++ sentinelSyms endRepeat

/-- ENCF (44_frame_codec.md R186). The number of symbols is computed without wrap-around (00_scope.md R10). -/
def execEncf (s : State) : Host.Outcome State Fault Refusal :=
  .next (encodeCommand (frameLen s.mode s.extInLen.toNat s.dataInLen.toNat s.endRepeat.toNat)
    (frameSyms s.mode s.extInput s.dataInput s.endRepeat.toNat) id s)

/-- The state in which a decode starts (44_frame_codec.md R190). -/
def startState (mode : BitVec 1) : FState := if mode = 1#1 then .preamble else .header

/-- DINIT up to its flags (44_frame_codec.md R190). -/
def dinitCore (s : State) : Ended :=
  if !s.cfgOk then .raised .badConfig s
  else if s.inRate.toNat ≠ Config.sampleRate then
    .raised .rateMismatch ((s.setFstate .done).clearOutputs)
  else .completed (((s.clearOutputs).setCursor 0#32).setFstate (startState s.mode))

/-- DINIT (44_frame_codec.md R190). -/
def dinit (s : State) : State :=
  match dinitCore s with
  | .completed t => finish false false t
  | .raised e t => raise e t

/-- StepPreamble (44_frame_codec.md R192): the ten windows are skipped by count, not classified. -/
def stepPreamble (s : State) : State :=
  if s.avail s.cursor.toNat Config.preambleLen then
    finish false false ((s.advance Config.preambleLen).setFstate .header)
  else finish false true (s.setFstate .done)

/-- What StepHeader does with a byte (44_frame_codec.md R193). -/
def takeHeaderByte (b : Byte) (s : State) : State :=
  if b = 0#8 then finish false false ((s.advance Config.plainLen).setFstate .payload)
  else if s.extOutLen = s.extCap then raise .overflow (s.setFstate .done)
  else finish false false ((s.appendExtOut b).advance Config.plainLen)

/-- StepHeader (44_frame_codec.md R193): always plain. -/
def stepHeader (s : State) : State :=
  match decodeByteWindow s.cursor.toNat Config.plainLen s with
  | (.trunc, t) => finish false true (t.setFstate .done)
  | (.endMark, t) => finish true false (t.setFstate .done)
  | (.bits v, t) => takeHeaderByte (packMSB v) (t.setByte (packMSB v))

/-- SYN, CW (in protected mode) and BYTE from the bits of a payload byte (44_frame_codec.md R194). -/
def State.setPayload (s : State) (v : List Bool) : State :=
  if s.mode = 1#1 then s.setDecoded (packCode v) else s.setByte (packMSB v)

/-- What StepPayload does with the byte in BYTE (44_frame_codec.md R194). -/
def takePayloadByte (s : State) : State :=
  if s.dataOutLen = s.dataCap then raise .overflow (s.setFstate .done)
  else finish false false ((s.appendDataOut s.byte).advance (payloadLen s.mode))

/-- StepPayload (44_frame_codec.md R194). -/
def stepPayload (s : State) : State :=
  match decodeByteWindow s.cursor.toNat (payloadLen s.mode) s with
  | (.trunc, t) => finish false true (t.setFstate .done)
  | (.endMark, t) => finish true false (t.setFstate .done)
  | (.bits v, t) => takePayloadByte (t.setPayload v)

/-- DSTEP (44_frame_codec.md R191): the step taken depends on FSTATE as the command finds it. -/
def dstep (s : State) : State :=
  if !s.cfgOk then raise .badConfig s
  else
    match s.fstate with
    | .preamble => stepPreamble s
    | .header => stepHeader s
    | .payload => stepPayload s
    | .done => finish false false s

/-- DSTEPs until FSTATE = DONE (44_frame_codec.md R196), at most `fuel` of them. -/
def decodeLoop : Nat → State → State
  | 0, s => s
  | fuel + 1, s =>
    match s.fstate with
    | .done => s
    | .preamble => decodeLoop fuel (dstep s)
    | .header => decodeLoop fuel (dstep s)
    | .payload => decodeLoop fuel (dstep s)

/-- The most DSTEPs a decode can take (44_frame_codec.md R197; assumption 13). -/
def decodeBound (s : State) : Nat := 2 + s.waveInLen.toNat / (8 * s.nsym.toNat)

/-- DECF (44_frame_codec.md R196): DINIT, and where it neither refuses nor faults, DSTEPs until DONE. -/
def decf (s : State) : State :=
  match dinitCore s with
  | .completed t => decodeLoop (decodeBound s) (finish false false t)
  | .raised e t => raise e t

/-- DINIT (44_frame_codec.md R190). -/
def execDinit (s : State) : Host.Outcome State Fault Refusal := .next (dinit s)

/-- DSTEP (44_frame_codec.md R191). -/
def execDstep (s : State) : Host.Outcome State Fault Refusal := .next (dstep s)

/-- DECF (44_frame_codec.md R196). -/
def execDecf (s : State) : Host.Outcome State Fault Refusal := .next (decf s)

end Sys2Proof.Machine
end

