-- ==== Sys2Proof/Machine/Dispatch.lean ====
section
/-! DEFINITION. exec: one arm per command, each one call of its meaning. -/

namespace Sys2Proof.Machine

def exec (i : Instr) (s : State) : Host.Outcome State Fault Refusal :=
  match i with
  | .tone sym => Sys2Proof.Machine.execTone sym s
  | .encb b => Sys2Proof.Machine.execEncb b s
  | .ench b => Sys2Proof.Machine.execEnch b s
  | .encf => Sys2Proof.Machine.execEncf s
  | .dsym => Sys2Proof.Machine.execDsym s
  | .decb => Sys2Proof.Machine.execDecb s
  | .dech => Sys2Proof.Machine.execDech s
  | .decf => Sys2Proof.Machine.execDecf s
  | .dinit => Sys2Proof.Machine.execDinit s
  | .dstep => Sys2Proof.Machine.execDstep s
  | .henc b => Sys2Proof.Machine.execHenc b s
  | .hdec cw => Sys2Proof.Machine.execHdec cw s

end Sys2Proof.Machine
end

