-- ==== Sys2Proof/Machine/HostAccess.lean ====
section
/-! DEFINITION. The register map (10_state.md R20) and what a host read or write of each register does (R21 to R38, R45;
20_memory.md R61 to R65), the reset event (70_reset_and_hazards.md R240), and the host's notation for programs
(30_encoding.md R99, R100). The write of CMD is Machine/Step.lean's. -/

namespace Sys2Proof.Machine

/-- The registers of the map (10_state.md R20), with a last one for every reserved offset (R45). -/
inductive Reg where
  | cmd | status | mode | symbolRate | freqLow | freqHigh | freqEnd | endRepeat | inRate | nsym | cursor | fstate
  | byte | cw | syn | sym | bin | extInLen | dataInLen | waveInLen | extOutLen | dataOutLen | waveOutLen
  | bufSel | bufIdx | bufData | reserved
deriving DecidableEq, Repr

/-- The register at a byte offset (10_state.md R20); every offset not in the table is reserved (R45; assumption 8). -/
def Reg.ofOffset (off : Word) : Reg :=
  match off.toNat with
  | 0x00 => .cmd
  | 0x04 => .status
  | 0x08 => .mode
  | 0x0C => .symbolRate
  | 0x10 => .freqLow
  | 0x14 => .freqHigh
  | 0x18 => .freqEnd
  | 0x1C => .endRepeat
  | 0x20 => .inRate
  | 0x24 => .nsym
  | 0x28 => .cursor
  | 0x2C => .fstate
  | 0x30 => .byte
  | 0x34 => .cw
  | 0x38 => .syn
  | 0x3C => .sym
  | 0x40 => .bin
  | 0x44 => .extInLen
  | 0x48 => .dataInLen
  | 0x4C => .waveInLen
  | 0x50 => .extOutLen
  | 0x54 => .dataOutLen
  | 0x58 => .waveOutLen
  | 0x5C => .bufSel
  | 0x60 => .bufIdx
  | 0x64 => .bufData
  | _ => .reserved

/-- The byte offset of a register of the map (10_state.md R20); the first reserved offset for `reserved`. -/
def Reg.offset : Reg → Word
  | .cmd => 0x00#32
  | .status => 0x04#32
  | .mode => 0x08#32
  | .symbolRate => 0x0C#32
  | .freqLow => 0x10#32
  | .freqHigh => 0x14#32
  | .freqEnd => 0x18#32
  | .endRepeat => 0x1C#32
  | .inRate => 0x20#32
  | .nsym => 0x24#32
  | .cursor => 0x28#32
  | .fstate => 0x2C#32
  | .byte => 0x30#32
  | .cw => 0x34#32
  | .syn => 0x38#32
  | .sym => 0x3C#32
  | .bin => 0x40#32
  | .extInLen => 0x44#32
  | .dataInLen => 0x48#32
  | .waveInLen => 0x4C#32
  | .extOutLen => 0x50#32
  | .dataOutLen => 0x54#32
  | .waveOutLen => 0x58#32
  | .bufSel => 0x5C#32
  | .bufIdx => 0x60#32
  | .bufData => 0x64#32
  | .reserved => 0x68#32

/-- A register access is at an offset that is a multiple of 4 (20_memory.md R61). -/
def aligned (off : Word) : Bool := decide (off.toNat % 4 = 0)

/-- The code of a decoder state (10_state.md R30). -/
def FState.code : FState → BitVec 2
  | .preamble => 0#2
  | .header => 1#2
  | .payload => 2#2
  | .done => 3#2

/-- The host's view of an element of a buffer, any of the six: at or above the length register, and where nothing has been
written since reset, it is unspecified (20_memory.md R62, R70; 92_eei_decisions.md D35; assumptions 2 and 3). -/
def bufferElement {w : Nat} (m : Memory w) (len i : Nat) (free : BitVec w) : BitVec w :=
  if i < len then (m.read? i).getD free else free

/-- The host's view of a byte buffer at BUF_IDX: zero-extended, 0 at or above the capacity (20_memory.md R62). -/
def State.hostByte (s : State) (sel : Nat) (m : Memory 8) (len cap : Word) : Word :=
  let i := s.bufIdx.toNat
  if i < cap.toNat then (bufferElement m len.toNat i (Config.unspecifiedByte s.freeCtr sel i)).setWidth 32 else 0#32

/-- The host's view of a sample buffer at BUF_IDX: sign-extended, 0 at or above the capacity (20_memory.md R62). -/
def State.hostSample (s : State) (sel : Nat) (m : Memory 16) (len cap : Word) : Word :=
  let i := s.bufIdx.toNat
  if i < cap.toNat then (bufferElement m len.toNat i (Config.unspecifiedSample s.freeCtr sel i)).signExtend 32 else 0#32

/-- A host read of BUF_DATA (20_memory.md R62): the selected buffer against its own length register and capacity
(10_state.md R39); 0 where nothing is selected. -/
def State.readBufData (s : State) : Word :=
  match s.bufSel.toNat with
  | 0 => s.hostByte 0 s.extIn s.extInLen s.extCap
  | 1 => s.hostByte 1 s.dataIn s.dataInLen s.dataCap
  | 2 => s.hostSample 2 s.waveIn s.waveInLen s.waveCap
  | 3 => s.hostByte 3 s.extOut s.extOutLen s.extCap
  | 4 => s.hostByte 4 s.dataOut s.dataOutLen s.dataCap
  | 5 => s.hostSample 5 s.waveOut s.waveOutLen s.waveCap
  | _ => 0#32

/-- A host write of BUF_DATA (20_memory.md R63): the input buffers only, below the capacity. -/
def State.writeBufData (s : State) (v : Word) : State :=
  let i := s.bufIdx.toNat
  match s.bufSel.toNat with
  | 0 => if i < s.extCap.toNat then { s with extIn := s.extIn.write i (v.setWidth 8) } else s
  | 1 => if i < s.dataCap.toNat then { s with dataIn := s.dataIn.write i (v.setWidth 8) } else s
  | 2 => if i < s.waveCap.toNat then { s with waveIn := s.waveIn.write i (v.setWidth 16) } else s
  | _ => s

/-- What a host read of a register returns (10_state.md R20 to R38): bits above the width are 0, CMD and the reserved
offsets read 0, STATUS reads with BUSY 0 (R43). Reads have no side effect (20_memory.md R65). -/
def State.readReg (s : State) : Reg → Word
  | .cmd => 0#32
  | .status => s.status.setWidth 32
  | .mode => s.mode.setWidth 32
  | .symbolRate => s.symbolRate
  | .freqLow => s.freqLow
  | .freqHigh => s.freqHigh
  | .freqEnd => s.freqEnd
  | .endRepeat => s.endRepeat
  | .inRate => s.inRate
  | .nsym => s.nsym
  | .cursor => s.cursor
  | .fstate => s.fstate.code.setWidth 32
  | .byte => s.byte.setWidth 32
  | .cw => s.cw.setWidth 32
  | .syn => s.syn.setWidth 32
  | .sym => s.sym.code.setWidth 32
  | .bin => s.bin
  | .extInLen => s.extInLen
  | .dataInLen => s.dataInLen
  | .waveInLen => s.waveInLen
  | .extOutLen => s.extOutLen
  | .dataOutLen => s.dataOutLen
  | .waveOutLen => s.waveOutLen
  | .bufSel => s.bufSel.setWidth 32
  | .bufIdx => s.bufIdx
  | .bufData => s.readBufData
  | .reserved => 0#32

/-- An input length above the capacity is stored as the capacity (10_state.md R36). -/
def clampLen (cap v : Word) : Word := if cap.toNat < v.toNat then cap else v

/-- What a host write of a register other than CMD does (10_state.md R22 to R38): bits above the width are ignored, writes
to read-only registers and reserved offsets are ignored, a write of SYMBOL_RATE recomputes NSYM (R28). -/
def State.writeReg (s : State) (r : Reg) (v : Word) : State :=
  match r with
  | .cmd => s
  | .status => s
  | .mode => { s with mode := v.setWidth 1 }
  | .symbolRate => { s with symbolRate := v, nsym := nsymOf v }
  | .freqLow => { s with freqLow := v }
  | .freqHigh => { s with freqHigh := v }
  | .freqEnd => { s with freqEnd := v }
  | .endRepeat => { s with endRepeat := v }
  | .inRate => { s with inRate := v }
  | .nsym => s
  | .cursor => { s with cursor := v }
  | .fstate => s
  | .byte => s
  | .cw => s
  | .syn => s
  | .sym => s
  | .bin => s
  | .extInLen => { s with extInLen := clampLen s.extCap v }
  | .dataInLen => { s with dataInLen := clampLen s.dataCap v }
  | .waveInLen => { s with waveInLen := clampLen s.waveCap v }
  | .extOutLen => s
  | .dataOutLen => s
  | .waveOutLen => s
  | .bufSel => { s with bufSel := v.setWidth 3 }
  | .bufIdx => { s with bufIdx := v }
  | .bufData => s.writeBufData v
  | .reserved => s

/-- The reset event (70_reset_and_hazards.md R240): every register of 10_state.md R46, no buffer element with a defined value.
The capacities are the implementation's, and the host's queue and what it has read are the host's (assumption 10). -/
def State.afterReset (s : State) : State :=
  { State.reset with
    extCap := s.extCap, dataCap := s.dataCap, waveCap := s.waveCap,
    pending := s.pending, reads := s.reads, freeCtr := s.freeCtr }

/-! The host's notation (30_encoding.md R99, R100): a program is a list of actions. -/

/-- WR REG, value. -/
def wrReg (r : Reg) (v : Word) : HostAction := .wr r.offset v

/-- RD REG. -/
def rdReg (r : Reg) : HostAction := .rd r.offset

/-- WRB BUF[i], value, with the Sel number of the buffer (30_encoding.md R99). -/
def wrbProgram (sel : BitVec 3) (i : Nat) (v : Word) : List HostAction :=
  [wrReg .bufSel (sel.setWidth 32), wrReg .bufIdx (BitVec.ofNat 32 i), wrReg .bufData v]

/-- RDB BUF[i] (30_encoding.md R99). -/
def rdbProgram (sel : BitVec 3) (i : Nat) : List HostAction :=
  [wrReg .bufSel (sel.setWidth 32), wrReg .bufIdx (BitVec.ofNat 32 i), rdReg .bufData]

/-- CONFIG (30_encoding.md R100). -/
def configProgram (mode rate flow fhigh fend endrep : Word) : List HostAction :=
  [wrReg .mode mode, wrReg .symbolRate rate, wrReg .freqLow flow, wrReg .freqHigh fhigh,
   wrReg .freqEnd fend, wrReg .endRepeat endrep]

/-- WRB of every element of a list, in ascending index (30_encoding.md R100). -/
def loadProgram (sel : BitVec 3) (vs : List Word) : List HostAction :=
  vs.zipIdx.flatMap (fun x => wrbProgram sel x.2 x.1)

/-- LOADEXT (30_encoding.md R100), with the character codes. -/
def loadExtProgram (ext : List Byte) : List HostAction :=
  loadProgram 0#3 (ext.map (fun b => b.setWidth 32)) ++ [wrReg .extInLen (BitVec.ofNat 32 ext.length)]

/-- LOADDATA (30_encoding.md R100). -/
def loadDataProgram (data : List Byte) : List HostAction :=
  loadProgram 1#3 (data.map (fun b => b.setWidth 32)) ++ [wrReg .dataInLen (BitVec.ofNat 32 data.length)]

/-- LOADWAVE (30_encoding.md R100). -/
def loadWaveProgram (wave : List Int) : List HostAction :=
  loadProgram 2#3 (wave.map (BitVec.ofInt 32)) ++ [wrReg .waveInLen (BitVec.ofNat 32 wave.length)]

/-- The copy of sample i in LOOPBACK: `v <- RDB WAVE_OUT[i]; WRB WAVE_IN[i], v` (30_encoding.md R100). -/
def copySampleProgram (i : Nat) : List HostAction :=
  rdbProgram 5#3 i
    ++ [wrReg .bufSel 2#32, wrReg .bufIdx (BitVec.ofNat 32 i), .wrLast Reg.bufData.offset]

/-- LOOPBACK n' (30_encoding.md R100): the first n' samples of WAVE_OUT are copied and declared. -/
def loopbackProgram (n : Nat) : List HostAction :=
  (List.range n).flatMap copySampleProgram
    ++ [wrReg .waveInLen (BitVec.ofNat 32 n), wrReg .inRate (BitVec.ofNat 32 Config.sampleRate)]

end Sys2Proof.Machine
end

