-- ==== Sys2Proof/Machine/Command.lean ====
section
/-! DEFINITION. One action of the host: a register access, with the write of CMD running a command (10_state.md R21), or the
reset event. -/

namespace Sys2Proof.Machine

/-- The write of a word to CMD (10_state.md R21): the command it spells, or ILLEGAL_CMD (60_exceptions.md R217), before any
other check (R225). -/
def runCommand (w : Word) (s : State) : Host.Outcome State Fault Refusal :=
  match decode w with
  | .ok i => exec i s
  | .error _ => .next (raise .illegalCmd s)

/-- A host write (10_state.md R20; 20_memory.md R61). -/
def hostWrite (off v : Word) (s : State) : Host.Outcome State Fault Refusal :=
  if !aligned off then .fault (.misalignedAccess off)
  else
    match Reg.ofOffset off with
    | .cmd => runCommand v s
    | r => .next (s.writeReg r v)

/-- A host read (10_state.md R20; 20_memory.md R65): the value is what the host observes (70_reset_and_hazards.md R251). -/
def hostRead (off : Word) (s : State) : Host.Outcome State Fault Refusal :=
  if !aligned off then .fault (.misalignedAccess off)
  else .next { s with reads := s.readReg (Reg.ofOffset off) :: s.reads }

/-- One action of the host. -/
def act (a : HostAction) (s : State) : Host.Outcome State Fault Refusal :=
  match a with
  | .wr off v => hostWrite off v s
  | .rd off => hostRead off s
  | .wrLast off =>
    match s.reads with
    | [] => .fault .nothingRead
    | v :: _ => hostWrite off v s
  | .reset => .next s.afterReset

/-- The state in which an action is carried out: the action is taken from the queue, and the free values are taken at a new
count, so that what is unspecified in one action says nothing of another (20_memory.md R70; assumptions 2 and 16). -/
def State.take (s : State) (rest : List HostAction) : State :=
  { s with pending := rest, freeCtr := s.freeCtr + 1 }

end Sys2Proof.Machine
end

