-- ==== Sys2Proof/Machine/Step.lean ====
section
/-! DEFINITION. One step of the machine: the host's next action. With no action left nothing changes: the core never acts on
its own (60_exceptions.md R233) and waits for the next CMD write for ever (70_reset_and_hazards.md R251). -/

namespace Sys2Proof.Machine

/-- One step (60_exceptions.md R233; assumption 1). -/
def step (s : State) : Host.Outcome State Fault Refusal :=
  match s.pending with
  | [] => .next s
  | a :: rest => act a (s.take rest)

/-- s with the write of a row's command word to CMD as the host's next action; the word is the one `tableWord` lays out,
its bits above `nbits` zero. -/
def State.withFetchWord (s : State) (nbits w : Nat) : State :=
  { s with pending := .wr Reg.cmd.offset (BitVec.ofNat 32 (w % 2 ^ nbits)) :: s.pending }

end Sys2Proof.Machine
end

