-- ==== Sys2Proof/Safety.lean ====
section
/-! DEFINITION. The terms of the claims: configuration predicates (00_scope.md R16), the duties of the host (60_exceptions.md
R234), the legal states, and the real-valued functions of 00_scope.md R13 that the integer arithmetic of
Machine/Numeric.lean stands for. -/

namespace Sys2Proof.Machine

/-- ORDERED (00_scope.md R16). -/
def State.ordered (s : State) : Bool :=
  decide (s.freqLow ≠ s.freqHigh) && decide (s.freqLow ≠ s.freqEnd) && decide (s.freqHigh ≠ s.freqEnd)
    && decide (carrierDist s.freqEnd.toNat 1 s.freqHigh.toNat ≤ carrierDist s.freqEnd.toNat 1 s.freqLow.toNat)

/-- The sets of symbols that contain X (41_symbol_detector.md R142), in the order of `usedSymbols`. -/
def symbolSets : Symbol → List (List Symbol)
  | .zero => [[.zero], [.zero, .one], [.zero, .endSym], [.zero, .one, .endSym]]
  | .one => [[.one], [.zero, .one], [.one, .endSym], [.zero, .one, .endSym]]
  | .endSym => [[.endSym], [.zero, .endSym], [.one, .endSym], [.zero, .one, .endSym]]

/-- The window the generator emits for X in a waveform of the symbols S is classified as X; where the peak of S is 0 it
emits none (41_symbol_detector.md R142, 60_exceptions.md R221). -/
def State.distinguishes (s : State) (x : Symbol) (used : List Symbol) : Bool :=
  s.zeroPeak used || s.decodeSymbol (s.toneSamples (s.peakPhase used) x) == x

/-- DISTINGUISHABLE (00_scope.md R16, 41_symbol_detector.md R142): at most twelve windows to check. -/
def State.distinguishable (s : State) : Bool :=
  [Symbol.zero, Symbol.one, Symbol.endSym].all (fun x => (symbolSets x).all (s.distinguishes x))

/-- Every element below a length has been written (60_exceptions.md R234 HD4). -/
def writtenBelow {w : Nat} (m : Memory w) (n : Nat) : Prop := ∀ i < n, ∃ v, m.read? i = some v

/-- Nothing is written at or above a capacity (20_memory.md R69). -/
def withinCap {w : Nat} (m : Memory w) (cap : Nat) : Prop := ∀ c ∈ m, c.1 < cap

/-- The words STATUS can hold (10_state.md R22, R40 to R43; 60_exceptions.md R216, R226): at most one of ISEND, TRUNC and an
error, ERRCODE 1 to 6 exactly with ERR, BUSY and the reserved bits 0. -/
def legalStatus (st : BitVec 12) : Bool :=
  st == statusOk false false || st == statusOk true false || st == statusOk false true
    || [CoreError.illegalCmd, .badConfig, .rateMismatch, .shortWindow, .zeroPeak, .overflow].any
        (fun e => st == statusError e)

/-- The legal states: what every action of the host and every command keeps. -/
structure State.Legal (s : State) : Prop where
  /-- NSYM always equals its function of SYMBOL_RATE (10_state.md R28). -/
  nsym : s.nsym = nsymOf s.symbolRate
  /-- Only the listed STATUS words occur (10_state.md R22). -/
  status : legalStatus s.status = true
  /-- Input lengths are at most the capacities (10_state.md R36). -/
  extInLen : s.extInLen.toNat ≤ s.extCap.toNat
  dataInLen : s.dataInLen.toNat ≤ s.dataCap.toNat
  waveInLen : s.waveInLen.toNat ≤ s.waveCap.toNat
  /-- Output lengths are at most the capacities (20_memory.md R69). -/
  extOutLen : s.extOutLen.toNat ≤ s.extCap.toNat
  dataOutLen : s.dataOutLen.toNat ≤ s.dataCap.toNat
  waveOutLen : s.waveOutLen.toNat ≤ s.waveCap.toNat
  /-- Every buffer has its canonical form. -/
  extInWf : s.extIn.wf = true
  dataInWf : s.dataIn.wf = true
  waveInWf : s.waveIn.wf = true
  extOutWf : s.extOut.wf = true
  dataOutWf : s.dataOut.wf = true
  waveOutWf : s.waveOut.wf = true
  /-- No element stands at or above its buffer's capacity (20_memory.md R69). -/
  extInCap : withinCap s.extIn s.extCap.toNat
  dataInCap : withinCap s.dataIn s.dataCap.toNat
  waveInCap : withinCap s.waveIn s.waveCap.toNat
  extOutCap : withinCap s.extOut s.extCap.toNat
  dataOutCap : withinCap s.dataOut s.dataCap.toNat
  waveOutCap : withinCap s.waveOut s.waveCap.toNat
  /-- What an output length declares valid has been written (10_state.md R37; 60_exceptions.md R215). -/
  extOutWritten : writtenBelow s.extOut s.extOutLen.toNat
  dataOutWritten : writtenBelow s.dataOut s.dataOutLen.toNat
  waveOutWritten : writtenBelow s.waveOut s.waveOutLen.toNat

/-- The legal command words, by the masks of the formats (30_encoding.md R81 to R86): formats S (symbol code not 3), B, C
and N. -/
def legalWord (w : Word) : Bool :=
  (w &&& 0xFFFFFCFF#32 == 0x10#32 && w &&& 0x300#32 != 0x300#32)
    || [0x11#32, 0x12#32, 0x30#32].contains (w &&& 0xFFFF00FF#32)
    || w &&& 0xFFF000FF#32 == 0x31#32
    || [0x13#32, 0x20#32, 0x21#32, 0x22#32, 0x23#32, 0x24#32, 0x25#32].contains w

/-- The symbols an encode command puts into its waveform (40_tone_generator.md R119, 42_byte_codec.md R146, 43_hamming.md
R172, 44_frame_codec.md R186); `none` for every other command and for the operand that is no symbol. -/
def State.commandSyms (s : State) : Instr → Option (List Symbol)
  | .tone sym => (Symbol.ofCode sym).map (fun x => [x])
  | .encb b => some (plainSyms b)
  | .ench b => some (cwSyms (hamEnc b))
  | .encf => some (frameSyms s.mode s.extInput s.dataInput s.endRepeat.toNat)
  | .dsym => none
  | .decb => none
  | .dech => none
  | .decf => none
  | .dinit => none
  | .dstep => none
  | .henc _ => none
  | .hdec _ => none

/-- The symbol that the j-th window from c on is classified as (42_byte_codec.md R147). -/
def State.symbolAt (s : State) (c j : Nat) : Symbol := s.decodeSymbol (s.window (c + j * s.nsym.toNat))

/-- The peak bin of the j-th window from c on, as BIN holds it (10_state.md R35). -/
def State.binAt (s : State) (c j : Nat) : Word := BitVec.ofNat 32 (peakBin (s.window (c + j * s.nsym.toNat)))

/-- The bits of L windows from c on, END counting as 0 (42_byte_codec.md R147 reads them only where no END is). -/
def State.bitsAt (s : State) (c L : Nat) : List Bool := (List.range L).map (fun j => s.symbolAt c j == .one)

/-- No window of the byte window is END (42_byte_codec.md R147). -/
def State.noEnd (s : State) (c L : Nat) : Prop := ∀ j < L, s.symbolAt c j ≠ .endSym

/-- The j-th window is the first END of the byte window (42_byte_codec.md R147). -/
def State.firstEnd (s : State) (c L j : Nat) : Prop :=
  j < L ∧ s.symbolAt c j = .endSym ∧ ∀ i < j, s.symbolAt c i ≠ .endSym

/-- WAVE_IN holds a list of samples from index c on. -/
def State.plays (s : State) (c : Nat) (samples : List Sample) : Prop :=
  ∀ i < samples.length, s.waveIn.read? (c + i) = samples[i]?

/-- An outcome that is a next state: what every command has, and every action of a host that keeps to aligned offsets and
writes back only what it has read. -/
def Completes (o : Host.Outcome State Fault Refusal) : Prop := ∃ t, o = .next t

/-- SINE(num, den) = sin(2π·num/den) (00_scope.md R13). -/
noncomputable def sine (num den : Nat) : ℝ := Real.sin (2 * Real.pi * num / den)

/-- MAG2(w, k) (00_scope.md R13, 41_symbol_detector.md R131): the squared magnitude of bin k of the discrete Fourier
transform of a window. -/
noncomputable def mag2 (w : List Int) (k : Nat) : ℝ :=
  Complex.normSq (((List.range w.length).map (fun n =>
    ((w.getD n 0 : ℤ) : ℂ) * Complex.exp (-2 * Real.pi * Complex.I * k * n / w.length))).sum)

/-- The real value of a sum of cosines, `Σ c·cos(2π·t/N)`. -/
noncomputable def cosSumReal (N : Nat) (l : CosSum) : ℝ :=
  (l.map (fun x => (x.2 : ℝ) * Real.cos (2 * Real.pi * x.1 / N))).sum

/-- RawWave (40_tone_generator.md R111 to R114): the tones of the symbols, as real numbers. -/
noncomputable def State.rawWave (s : State) (syms : List Symbol) : List ℝ :=
  syms.flatMap (fun x => (List.range s.nsym.toNat).map (fun n => sine (tonePhase s.phaseMod (s.freq x) n) s.phaseMod))

/-- P, the greatest magnitude of a list of real numbers, 0 for the empty list (40_tone_generator.md R115). -/
noncomputable def peakOf (l : List ℝ) : ℝ := (l.map abs).foldr max 0

/-- RN(x) (40_tone_generator.md R117): the nearest integer, an exact half away from zero. -/
noncomputable def roundAway (x : ℝ) : ℤ := if 0 ≤ x then ⌊x + 1 / 2⌋ else -⌊-x + 1 / 2⌋

end Sys2Proof.Machine
end

