-- ==== Sys2Proof/Certificates/Slice0/Obligations.lean ====
section
/-! DEFINITION. The statements for the provers, from the numbered rules of spec/. A STATUS word is written as its bits:
0x002 is ISEND, 0x004 is TRUNC, 0x008 is ERR and bits 11:8 are ERRCODE (10_state.md R22). -/

section

open Sys2Proof Sys2Proof.Machine

/-! Encodings (30_encoding.md). -/

/-- Decoding the word of a well-formed command gives the command back (30_encoding.md R80 to R86). -/
def Obligations.CommandWordRoundTrip : Prop :=
  ∀ i : Instr, i.wellFormed = true → decode (encode i) = .ok i

/-- A word that decodes is the word of the command it decodes to, and that command is well-formed: no two words spell one
command (30_encoding.md R80 to R86). -/
def Obligations.DecodedWordIsEncoding : Prop :=
  ∀ (w : Word) (i : Instr), decode w = .ok i → i.wellFormed = true ∧ encode i = w

/-- ILLEGAL_CMD (60_exceptions.md R217): the word is of no row of the opcode map, by the masks of the formats, or is format S
with the code 3; the command is refused and nothing but STATUS changes. Every other word decodes. That the step also takes the
action from the queue and moves the count of free values on is the model's choice (assumptions 1, 2 and 16). -/
def Obligations.IllegalWordRefused : Prop :=
  (∀ (s : State) (w : Word) (rest : List HostAction), s.pending = .wr 0x00#32 w :: rest → legalWord w = false →
    step s = .next { s with pending := rest, freeCtr := s.freeCtr + 1, status := 0x108#12 })
  ∧ ∀ w : Word, legalWord w = true → ∃ i, decode w = .ok i

/-- Words written out from the formats decode to their commands (30_encoding.md R99, 95_test_vectors.md). -/
def Obligations.SampleWordsDecode : Prop :=
  decode 0x00000110#32 = .ok (.tone 1#2) ∧ decode 0x00004111#32 = .ok (.encb 0x41#8)
    ∧ decode 0x00004112#32 = .ok (.ench 0x41#8) ∧ decode 0x00000013#32 = .ok .encf
    ∧ decode 0x00000020#32 = .ok .dsym ∧ decode 0x00000025#32 = .ok .dstep
    ∧ decode 0x00004130#32 = .ok (.henc 0x41#8) ∧ decode 0x00052531#32 = .ok (.hdec 0x525#12)

/-- A step carries out the host's next action in the state with the action taken from the queue and the count of free values
moved on (the model's own fields: assumptions 1 and 16). A write to CMD (offset 0) of a word that decodes is exec of the
command, and so it is for `withFetchWord`; a read is `hostRead` and a write `hostWrite` at any offset; a write-back writes the
value of the host's last read (assumption 6). With no action left nothing changes (60_exceptions.md R233). -/
def Obligations.StepRunsDecodedCommand : Prop :=
  (∀ (s : State) (w : Word) (rest : List HostAction) (i : Instr), s.pending = .wr 0x00#32 w :: rest → decode w = .ok i →
    step s = exec i { s with pending := rest, freeCtr := s.freeCtr + 1 })
  ∧ (∀ (s : State) (nbits w : Nat) (i : Instr), decodeTableWord nbits w = some i →
    step (s.withFetchWord nbits w) = exec i { s with freeCtr := s.freeCtr + 1 })
  ∧ (∀ (s : State) (off : Word) (rest : List HostAction), s.pending = .rd off :: rest →
    step s = hostRead off { s with pending := rest, freeCtr := s.freeCtr + 1 })
  ∧ (∀ (s : State) (off v : Word) (rest : List HostAction), s.pending = .wr off v :: rest →
    step s = hostWrite off v { s with pending := rest, freeCtr := s.freeCtr + 1 })
  ∧ (∀ (s : State) (off v : Word) (rest : List HostAction) (older : List Word), s.pending = .wrLast off :: rest →
    s.reads = v :: older → step s = hostWrite off v { s with pending := rest, freeCtr := s.freeCtr + 1 })
  ∧ ∀ s : State, s.pending = [] → step s = .next s

/-! The register map and the buffers (10_state.md, 20_memory.md). -/

/-- What a host read returns at each offset of the register map but BUF_DATA (10_state.md R20, R21, R43): the bits above a
register's width read 0, CMD reads 0; the read changes nothing (20_memory.md R65), it only adds its value to what the host
has read. -/
def Obligations.RegisterReads : Prop :=
  ∀ s : State, ∀ x ∈ ([(0x00#32, 0#32), (0x04#32, s.status.setWidth 32), (0x08#32, s.mode.setWidth 32),
      (0x0C#32, s.symbolRate), (0x10#32, s.freqLow), (0x14#32, s.freqHigh), (0x18#32, s.freqEnd), (0x1C#32, s.endRepeat),
      (0x20#32, s.inRate), (0x24#32, s.nsym), (0x28#32, s.cursor),
      (0x2C#32, match s.fstate with | .preamble => 0#32 | .header => 1#32 | .payload => 2#32 | .done => 3#32),
      (0x30#32, s.byte.setWidth 32), (0x34#32, s.cw.setWidth 32), (0x38#32, s.syn.setWidth 32),
      (0x3C#32, match s.sym with | .zero => 0#32 | .one => 1#32 | .endSym => 2#32), (0x40#32, s.bin),
      (0x44#32, s.extInLen), (0x48#32, s.dataInLen), (0x4C#32, s.waveInLen), (0x50#32, s.extOutLen),
      (0x54#32, s.dataOutLen), (0x58#32, s.waveOutLen), (0x5C#32, s.bufSel.setWidth 32), (0x60#32, s.bufIdx)]
      : List (Word × Word)),
    hostRead x.1 s = .next { s with reads := x.2 :: s.reads }

/-- What a host write does to each writable register but SYMBOL_RATE, CMD and BUF_DATA (10_state.md R23, R25 to R27, R29, R36,
R38): the bits above the width are ignored, an input length above the capacity is stored as the capacity, and no other state
changes. -/
def Obligations.RegisterWrites : Prop :=
  ∀ (s : State) (v : Word),
    hostWrite 0x08#32 v s = .next { s with mode := v.setWidth 1 }
    ∧ hostWrite 0x10#32 v s = .next { s with freqLow := v } ∧ hostWrite 0x14#32 v s = .next { s with freqHigh := v }
    ∧ hostWrite 0x18#32 v s = .next { s with freqEnd := v } ∧ hostWrite 0x1C#32 v s = .next { s with endRepeat := v }
    ∧ hostWrite 0x20#32 v s = .next { s with inRate := v } ∧ hostWrite 0x28#32 v s = .next { s with cursor := v }
    ∧ hostWrite 0x5C#32 v s = .next { s with bufSel := v.setWidth 3 } ∧ hostWrite 0x60#32 v s = .next { s with bufIdx := v }
    ∧ (∃ n : Word, hostWrite 0x44#32 v s = .next { s with extInLen := n } ∧ n.toNat = min v.toNat s.extCap.toNat)
    ∧ (∃ n : Word, hostWrite 0x48#32 v s = .next { s with dataInLen := n } ∧ n.toNat = min v.toNat s.dataCap.toNat)
    ∧ ∃ n : Word, hostWrite 0x4C#32 v s = .next { s with waveInLen := n } ∧ n.toNat = min v.toNat s.waveCap.toNat

/-- A host write to a read-only register is ignored (10_state.md R20, R22, R28, R30 to R35, R37). -/
def Obligations.ReadOnlyWritesIgnored : Prop :=
  ∀ (s : State) (v : Word),
    ∀ off ∈ [0x04#32, 0x24#32, 0x2C#32, 0x30#32, 0x34#32, 0x38#32, 0x3C#32, 0x40#32, 0x50#32, 0x54#32, 0x58#32],
      hostWrite off v s = .next s

/-- Reserved offsets (10_state.md R45): every word offset from 0x68 on, which are those not in the table of R20. -/
def Obligations.ReservedOffsets : Prop :=
  ∀ (s : State) (off v : Word), off.toNat % 4 = 0 → 0x68 ≤ off.toNat →
    hostRead off s = .next { s with reads := 0#32 :: s.reads } ∧ hostWrite off v s = .next s

/-- NSYM (00_scope.md R8, 10_state.md R24, R28): a write of SYMBOL_RATE stores the rate and recomputes NSYM as SAMPLE_RATE over
the rate, rounded to the nearest integer with an exact half rounded up, and 0 for the rate 0; it is 0 above 88200 too. -/
def Obligations.NsymFollowsSymbolRate : Prop :=
  ∀ (s : State) (v : Word), ∃ n : Word, hostWrite 0x0C#32 v s = .next { s with symbolRate := v, nsym := n }
    ∧ (v = 0#32 → n = 0#32)
    ∧ (v ≠ 0#32 → n.toNat = (2 * 44100 + v.toNat) / (2 * v.toNat)
        ∧ 2 * n.toNat * v.toNat ≤ 2 * 44100 + v.toNat ∧ 2 * 44100 < 2 * n.toNat * v.toNat + v.toNat)
    ∧ (1 ≤ n.toNat ↔ 1 ≤ v.toNat ∧ v.toNat ≤ 88200)

/-- A host read of BUF_DATA (20_memory.md R62, R70; 92_eei_decisions.md D35): a byte zero-extended, a sample with its sign kept,
0 where nothing is selected or the index is at or above the capacity. In each of the six buffers an element at or above the
buffer's length register, or never written, reads as a value nothing is known of (`Config.unspecifiedByte`,
`Config.unspecifiedSample`, at the count of free values: assumptions 2, 3 and 16). The read changes nothing else. -/
def Obligations.BufferReads : Prop :=
  ∀ s : State, ∃ r : Word, hostRead 0x64#32 s = .next { s with reads := r :: s.reads }
    ∧ (s.bufSel = 0#3 → r = if s.bufIdx.toNat < s.extCap.toNat
        then (if s.bufIdx.toNat < s.extInLen.toNat
          then (s.extIn.read? s.bufIdx.toNat).getD (Config.unspecifiedByte s.freeCtr 0 s.bufIdx.toNat)
          else Config.unspecifiedByte s.freeCtr 0 s.bufIdx.toNat).setWidth 32
        else 0#32)
    ∧ (s.bufSel = 1#3 → r = if s.bufIdx.toNat < s.dataCap.toNat
        then (if s.bufIdx.toNat < s.dataInLen.toNat
          then (s.dataIn.read? s.bufIdx.toNat).getD (Config.unspecifiedByte s.freeCtr 1 s.bufIdx.toNat)
          else Config.unspecifiedByte s.freeCtr 1 s.bufIdx.toNat).setWidth 32
        else 0#32)
    ∧ (s.bufSel = 2#3 → r = if s.bufIdx.toNat < s.waveCap.toNat
        then (if s.bufIdx.toNat < s.waveInLen.toNat
          then (s.waveIn.read? s.bufIdx.toNat).getD (Config.unspecifiedSample s.freeCtr 2 s.bufIdx.toNat)
          else Config.unspecifiedSample s.freeCtr 2 s.bufIdx.toNat).signExtend 32
        else 0#32)
    ∧ (s.bufSel = 3#3 → r = if s.bufIdx.toNat < s.extCap.toNat
        then (if s.bufIdx.toNat < s.extOutLen.toNat
          then (s.extOut.read? s.bufIdx.toNat).getD (Config.unspecifiedByte s.freeCtr 3 s.bufIdx.toNat)
          else Config.unspecifiedByte s.freeCtr 3 s.bufIdx.toNat).setWidth 32
        else 0#32)
    ∧ (s.bufSel = 4#3 → r = if s.bufIdx.toNat < s.dataCap.toNat
        then (if s.bufIdx.toNat < s.dataOutLen.toNat
          then (s.dataOut.read? s.bufIdx.toNat).getD (Config.unspecifiedByte s.freeCtr 4 s.bufIdx.toNat)
          else Config.unspecifiedByte s.freeCtr 4 s.bufIdx.toNat).setWidth 32
        else 0#32)
    ∧ (s.bufSel = 5#3 → r = if s.bufIdx.toNat < s.waveCap.toNat
        then (if s.bufIdx.toNat < s.waveOutLen.toNat
          then (s.waveOut.read? s.bufIdx.toNat).getD (Config.unspecifiedSample s.freeCtr 5 s.bufIdx.toNat)
          else Config.unspecifiedSample s.freeCtr 5 s.bufIdx.toNat).signExtend 32
        else 0#32)
    ∧ (6 ≤ s.bufSel.toNat → r = 0#32)

/-- A host write of BUF_DATA (20_memory.md R63): it stores one element of an input buffer below the capacity, and does nothing
for an output buffer, the selections 6 and 7, or an index out of range; no length register changes. -/
def Obligations.BufferWrites : Prop :=
  ∀ (s : State) (v : Word),
    (s.bufSel = 0#3 → s.bufIdx.toNat < s.extCap.toNat → ∃ m, hostWrite 0x64#32 v s = .next { s with extIn := m }
      ∧ ∀ j, m.read? j = if j = s.bufIdx.toNat then some (v.extractLsb' 0 8) else s.extIn.read? j)
    ∧ (s.bufSel = 1#3 → s.bufIdx.toNat < s.dataCap.toNat → ∃ m, hostWrite 0x64#32 v s = .next { s with dataIn := m }
      ∧ ∀ j, m.read? j = if j = s.bufIdx.toNat then some (v.extractLsb' 0 8) else s.dataIn.read? j)
    ∧ (s.bufSel = 2#3 → s.bufIdx.toNat < s.waveCap.toNat → ∃ m, hostWrite 0x64#32 v s = .next { s with waveIn := m }
      ∧ ∀ j, m.read? j = if j = s.bufIdx.toNat then some (v.extractLsb' 0 16) else s.waveIn.read? j)
    ∧ ((s.bufSel = 0#3 ∧ s.extCap.toNat ≤ s.bufIdx.toNat) ∨ (s.bufSel = 1#3 ∧ s.dataCap.toNat ≤ s.bufIdx.toNat)
        ∨ (s.bufSel = 2#3 ∧ s.waveCap.toNat ≤ s.bufIdx.toNat) ∨ 3 ≤ s.bufSel.toNat → hostWrite 0x64#32 v s = .next s)

/-! Reset and the whole machine. -/

/-- The values of the state after reset (10_state.md R46, 70_reset_and_hazards.md R240): every register 0 but FSTATE = 3 (DONE), no
element of a buffer with a defined value (nothing is listed: the model's choice of form, assumption 2). At the reset state
CFG_OK is false, and every command that needs a configuration is refused with BAD_CONFIG; that they are refused in every later
state until SYMBOL_RATE is written is `Obligations.UnconfiguredRefused`. -/
def Obligations.ResetValues : Prop :=
  let s := State.reset
  s.status = 0#12 ∧ s.mode = 0#1 ∧ s.symbolRate = 0#32 ∧ s.freqLow = 0#32 ∧ s.freqHigh = 0#32 ∧ s.freqEnd = 0#32
    ∧ s.endRepeat = 0#32 ∧ s.inRate = 0#32 ∧ s.nsym = 0#32 ∧ s.cursor = 0#32 ∧ s.fstate = .done
    ∧ s.byte = 0#8 ∧ s.cw = 0#12 ∧ s.syn = 0#4 ∧ s.sym = .zero ∧ s.bin = 0#32
    ∧ s.extInLen = 0#32 ∧ s.dataInLen = 0#32 ∧ s.waveInLen = 0#32
    ∧ s.extOutLen = 0#32 ∧ s.dataOutLen = 0#32 ∧ s.waveOutLen = 0#32 ∧ s.bufSel = 0#3 ∧ s.bufIdx = 0#32
    ∧ (∀ j, s.extIn.read? j = none ∧ s.dataIn.read? j = none ∧ s.waveIn.read? j = none
        ∧ s.extOut.read? j = none ∧ s.dataOut.read? j = none ∧ s.waveOut.read? j = none)
    ∧ s.cfgOk = false
    ∧ ∀ i : Instr, i.wellFormed = true → (∀ b, i ≠ .henc b) → (∀ c, i ≠ .hdec c) →
        exec i s = .next { s with status := 0x208#12 }

/-- The reset event (70_reset_and_hazards.md R240) gives every register and buffer its reset value whatever the state was. The rest
is the model's choice: the capacities and what the host has read stay (assumption 10), the reset action is taken from the head
of the host's queue, of which the rest stays (assumptions 1 and 10), and the count of free values moves on by one, as in every
step that takes an action (assumption 16). -/
def Obligations.ResetEvent : Prop :=
  ∀ (s : State) (rest : List HostAction), s.pending = .reset :: rest →
    step s = .next { State.reset with
      extCap := s.extCap, dataCap := s.dataCap, waveCap := s.waveCap,
      pending := rest, reads := s.reads, freeCtr := s.freeCtr + 1 }

/-- The reset state is legal (10_state.md R22, R28, R36, R46; 20_memory.md R69). -/
def Obligations.ResetIsLegal : Prop := State.reset.Legal

/-- Every step keeps a state legal: NSYM stays its function of SYMBOL_RATE, STATUS one of its words, the lengths within the
capacities, the buffers in their canonical form and below the capacity, and every output element below its length written
(10_state.md R22, R28, R36, R37; 20_memory.md R69; 60_exceptions.md R215, R216). -/
def Obligations.StepKeepsLegal : Prop :=
  ∀ s t : State, s.Legal → step s = .next t → t.Legal

/-- Every command ends, with a next state, in every state (60_exceptions.md R215, R229). -/
def Obligations.EveryCommandEnds : Prop := ∀ (i : Instr) (s : State), Completes (exec i s)

/-- A step stops only on an access at an offset that is no multiple of 4 and on the write-back of a value never read (the
model's stops, assumptions 6 and 7), then with that fault, and never refuses. -/
def Obligations.StopsExactly : Prop :=
  ∀ s : State, (∀ r, step s ≠ .refused r) ∧ ∀ f, step s = .fault f ↔
    ∃ rest off, (f = .misalignedAccess off ∧ off.toNat % 4 ≠ 0
        ∧ ((∃ v, s.pending = .wr off v :: rest) ∨ s.pending = .rd off :: rest
            ∨ (s.pending = .wrLast off :: rest ∧ s.reads ≠ [])))
      ∨ (f = .nothingRead ∧ s.pending = .wrLast off :: rest ∧ s.reads = [])

/-- Every command leaves one of the words STATUS can hold (10_state.md R22; 60_exceptions.md R216: no other ERRCODE is ever
produced). -/
def Obligations.StatusWordsLegal : Prop :=
  ∀ (i : Instr) (s t : State), exec i s = .next t → legalStatus t.status = true

/-- Nothing is sticky (60_exceptions.md R228, 10_state.md R42): what a command does, its STATUS included, does not depend on
the STATUS it finds. -/
def Obligations.NothingSticky : Prop :=
  ∀ (i : Instr) (s : State) (st : BitVec 12), exec i { s with status := st } = exec i s

/-- No command writes a configuration register, NSYM, an input buffer or its length, or the buffer-access registers
(10_state.md R47, 60_exceptions.md R233); the capacities and the model's own fields stay too. -/
def Obligations.CommandsKeepTheHostsState : Prop :=
  ∀ (i : Instr) (s t : State), exec i s = .next t →
    t.mode = s.mode ∧ t.symbolRate = s.symbolRate ∧ t.freqLow = s.freqLow ∧ t.freqHigh = s.freqHigh
      ∧ t.freqEnd = s.freqEnd ∧ t.endRepeat = s.endRepeat ∧ t.inRate = s.inRate ∧ t.nsym = s.nsym
      ∧ t.extIn = s.extIn ∧ t.dataIn = s.dataIn ∧ t.waveIn = s.waveIn
      ∧ t.extInLen = s.extInLen ∧ t.dataInLen = s.dataInLen ∧ t.waveInLen = s.waveInLen
      ∧ t.bufSel = s.bufSel ∧ t.bufIdx = s.bufIdx ∧ t.extCap = s.extCap ∧ t.dataCap = s.dataCap ∧ t.waveCap = s.waveCap
      ∧ t.pending = s.pending ∧ t.reads = s.reads ∧ t.freeCtr = s.freeCtr

/-- Which command writes what (10_state.md R47): nothing outside its row changes. -/
def Obligations.CommandWrites : Prop :=
  ∀ s t : State,
    (∀ sym, exec (.tone sym) s = .next t →
      t = { s with status := t.status, sym := t.sym, waveOut := t.waveOut, waveOutLen := t.waveOutLen })
    ∧ (∀ b, exec (.encb b) s = .next t →
      t = { s with status := t.status, byte := t.byte, waveOut := t.waveOut, waveOutLen := t.waveOutLen })
    ∧ (∀ b, exec (.ench b) s = .next t →
      t = { s with status := t.status, byte := t.byte, cw := t.cw, syn := t.syn, waveOut := t.waveOut,
                   waveOutLen := t.waveOutLen })
    ∧ (exec .encf s = .next t → t = { s with status := t.status, waveOut := t.waveOut, waveOutLen := t.waveOutLen })
    ∧ (exec .dsym s = .next t → t = { s with status := t.status, sym := t.sym, bin := t.bin, cursor := t.cursor })
    ∧ (exec .decb s = .next t →
      t = { s with status := t.status, sym := t.sym, bin := t.bin, byte := t.byte, cursor := t.cursor })
    ∧ (exec .dech s = .next t →
      t = { s with status := t.status, sym := t.sym, bin := t.bin, byte := t.byte, cw := t.cw, syn := t.syn,
                   cursor := t.cursor })
    ∧ (exec .dinit s = .next t →
      t = { s with status := t.status, fstate := t.fstate, cursor := t.cursor, extOutLen := t.extOutLen,
                   dataOutLen := t.dataOutLen })
    ∧ (exec .dstep s = .next t ∨ exec .decf s = .next t →
      t = { s with status := t.status, fstate := t.fstate, cursor := t.cursor, sym := t.sym, bin := t.bin, byte := t.byte,
                   cw := t.cw, syn := t.syn, extOut := t.extOut, extOutLen := t.extOutLen, dataOut := t.dataOut,
                   dataOutLen := t.dataOutLen })
    ∧ (∀ b, exec (.henc b) s = .next t → t = { s with status := t.status, byte := t.byte, cw := t.cw, syn := t.syn })
    ∧ ∀ c, exec (.hdec c) s = .next t → t = { s with status := t.status, byte := t.byte, cw := t.cw, syn := t.syn }

/-- What an error writes (60_exceptions.md R226, R227): a command that ends with ERR = 1 has ISEND = TRUNC = 0 and changes, beside
STATUS, nothing for the codes 1, 2 and 4, FSTATE and the two output lengths for RATE_MISMATCH, WAVE_OUT_LEN for an encode
command, and for a DSTEP FSTATE and the registers of the byte decoded. (A DECF that overflows is a run of DSTEPs: see
`DecfRunsToDone`.) -/
def Obligations.ErrorWrites : Prop :=
  ∀ (i : Instr) (s t : State), exec i s = .next t → errFlag t.status = true →
    isendFlag t.status = false ∧ truncFlag t.status = false
    ∧ (errCode t.status = 1#4 ∨ errCode t.status = 2#4 ∨ errCode t.status = 4#4 → t = { s with status := t.status })
    ∧ (errCode t.status = 3#4 → (i = .dinit ∨ i = .decf)
        ∧ t = { s with status := t.status, fstate := .done, extOutLen := 0#32, dataOutLen := 0#32 })
    ∧ (errCode t.status = 5#4 ∨ (errCode t.status = 6#4 ∧ i ≠ .dstep ∧ i ≠ .decf) →
        (s.commandSyms i).isSome = true ∧ t = { s with status := t.status, waveOutLen := 0#32 })
    ∧ (errCode t.status = 6#4 ∧ i = .dstep →
        t = { s with status := t.status, fstate := .done, sym := t.sym, bin := t.bin, byte := t.byte, cw := t.cw,
                     syn := t.syn })

/-- BAD_CONFIG (60_exceptions.md R218): with SYMBOL_RATE = 0 or NSYM = 0 every command but HENC and HDEC is refused, and nothing
but STATUS changes. (TONE with the code 3 is no command.) -/
def Obligations.UnconfiguredRefused : Prop :=
  ∀ (i : Instr) (s : State), s.symbolRate = 0#32 ∨ s.nsym = 0#32 → i.wellFormed = true → (∀ b, i ≠ .henc b) →
    (∀ c, i ≠ .hdec c) → exec i s = .next { s with status := 0x208#12 }

/-- The cursor (10_state.md R29; 20_memory.md R68): a command leaves CURSOR, moves it on by whole windows from wherever it stands
(DSYM by 1, DECB by 8, DECH by 12, DSTEP by 8, 10 or 12), or, DINIT and DECF, puts it a number of whole windows from 0. So a
CURSOR that is a multiple of NSYM stays one; and a CURSOR that a command has changed is not past WAVE_IN_LEN. -/
def Obligations.CursorInWholeWindows : Prop :=
  ∀ (i : Instr) (s t : State), exec i s = .next t →
    (t.cursor = s.cursor
      ∨ (∃ k, ((i = .dsym ∧ k = 1) ∨ (i = .decb ∧ k = 8) ∨ (i = .dech ∧ k = 12) ∨ (i = .dstep ∧ (k = 8 ∨ k = 10 ∨ k = 12)))
          ∧ t.cursor.toNat = s.cursor.toNat + k * s.nsym.toNat)
      ∨ ((i = .dinit ∨ i = .decf) ∧ ∃ k, t.cursor.toNat = k * s.nsym.toNat))
    ∧ (s.nsym.toNat ∣ s.cursor.toNat → s.nsym.toNat ∣ t.cursor.toNat)
    ∧ (t.cursor = s.cursor ∨ t.cursor.toNat ≤ s.waveInLen.toNat)

/-! Hamming(12,8) (43_hamming.md). -/

/-- HamEnc (43_hamming.md R161 to R164): the data bits at their positions, the parity bits in terms of the byte, every check
even; and the word is the only one with these data bits and even checks. Position p is `posBit c p`. -/
def Obligations.HammingEncode : Prop :=
  (∀ b : Byte, let c := hamEnc b; let x := fun n : Nat => b.getLsbD n
    posBit c 1 = x 7 ∧ posBit c 2 = x 6 ∧ posBit c 3 = x 5 ∧ posBit c 4 = x 0 ∧ posBit c 5 = x 4 ∧ posBit c 6 = x 3
      ∧ posBit c 7 = x 2 ∧ posBit c 9 = x 1
      ∧ posBit c 11 = (x 7 ^^ x 5 ^^ x 4 ^^ x 2 ^^ x 1) ∧ posBit c 10 = (x 7 ^^ x 6 ^^ x 4 ^^ x 3 ^^ x 1)
      ∧ posBit c 12 = (x 4 ^^ x 3 ^^ x 2 ^^ x 0) ∧ posBit c 8 = (x 6 ^^ x 5 ^^ x 4 ^^ x 1 ^^ x 0)
      ∧ ∀ k ∈ checkSets, checkBit c k = false)
  ∧ ∀ c : Codeword, (∀ k ∈ checkSets, checkBit c k = false) → c = hamEnc (extract c)

/-- Syndrome (43_hamming.md R162, R165): the four checks as a number, the check of weight 8 first; 0 exactly for a codeword,
a word whose checks are all even; and where a set E of positions of a codeword is flipped, the bitwise xor of the numbers
in E. -/
def Obligations.SyndromeNamesPositions : Prop :=
  (∀ c : Codeword, (syndrome c).toNat
      = 8 * (posBit c 8 ^^ posBit c 9 ^^ posBit c 10 ^^ posBit c 11 ^^ posBit c 12).toNat
        + 4 * (posBit c 4 ^^ posBit c 5 ^^ posBit c 6 ^^ posBit c 7 ^^ posBit c 12).toNat
        + 2 * (posBit c 2 ^^ posBit c 3 ^^ posBit c 6 ^^ posBit c 7 ^^ posBit c 10 ^^ posBit c 11).toNat
        + (posBit c 1 ^^ posBit c 3 ^^ posBit c 5 ^^ posBit c 7 ^^ posBit c 9 ^^ posBit c 11).toNat)
  ∧ (∀ c : Codeword, syndrome c = 0#4 ↔ ∀ k ∈ checkSets, checkBit c k = false)
  ∧ ∀ (c : Codeword) (E : List Nat), (∀ k ∈ checkSets, checkBit c k = false) → E.Nodup → (∀ p ∈ E, 1 ≤ p ∧ p ≤ 12) →
      (syndrome (E.foldl flipPos c)).toNat = E.foldl (fun x p => x ^^^ p) 0

/-- Correct and Extract (43_hamming.md R166, R167, R169): the bit at the position the syndrome names is inverted, and nothing for
the syndromes 0, 13, 14 and 15; the byte's bits come from positions 1, 2, 3, 5, 6, 7, 9 and 4. -/
def Obligations.CorrectAndExtract : Prop :=
  ∀ c : Codeword,
    (∀ p, 1 ≤ p → p ≤ 12 → posBit (correct c) p = if (syndrome c).toNat = p then !(posBit c p) else posBit c p)
    ∧ ((syndrome c).toNat = 0 ∨ 13 ≤ (syndrome c).toNat → correct c = c)
    ∧ (extract c).getLsbD 7 = posBit c 1 ∧ (extract c).getLsbD 6 = posBit c 2 ∧ (extract c).getLsbD 5 = posBit c 3
    ∧ (extract c).getLsbD 4 = posBit c 5 ∧ (extract c).getLsbD 3 = posBit c 6 ∧ (extract c).getLsbD 2 = posBit c 7
    ∧ (extract c).getLsbD 1 = posBit c 9 ∧ (extract c).getLsbD 0 = posBit c 4

/-- Single-error correction (43_hamming.md R175): one inverted position of a codeword is named by the syndrome and turned
back, and the byte is the one encoded; a codeword itself has syndrome 0 and stays. -/
def Obligations.SingleErrorCorrected : Prop :=
  ∀ b : Byte,
    (∀ p, 1 ≤ p → p ≤ 12 → let c := flipPos (hamEnc b) p
      (syndrome c).toNat = p ∧ correct c = hamEnc b ∧ extract (correct c) = b)
    ∧ syndrome (hamEnc b) = 0#4 ∧ correct (hamEnc b) = hamEnc b ∧ extract (correct (hamEnc b)) = b

/-- Double errors (43_hamming.md R176): the syndrome is the xor of the two positions and neither 0 nor one of them; up to 12 a
third position is inverted, from 13 on nothing is corrected; the byte is always wrong, and HDEC reports no error. -/
def Obligations.DoubleErrorSilent : Prop :=
  ∀ (b : Byte) (p q : Nat), 1 ≤ p → p ≤ 12 → 1 ≤ q → q ≤ 12 → p ≠ q →
    let c := flipPos (flipPos (hamEnc b) p) q
    (syndrome c).toNat = p ^^^ q ∧ p ^^^ q ≠ 0 ∧ p ^^^ q ≠ p ∧ p ^^^ q ≠ q
      ∧ (p ^^^ q ≤ 12 → correct c = flipPos c (p ^^^ q)) ∧ (13 ≤ p ^^^ q → correct c = c)
      ∧ extract (correct c) ≠ b
      ∧ ∀ s : State, ∃ t, exec (.hdec c) s = .next t ∧ errFlag t.status = false

/-- HENC b and HDEC cw (43_hamming.md R170, R171) in every state, configured or not: BYTE, CW, SYN and STATUS, nothing else. -/
def Obligations.HencHdecResult : Prop :=
  ∀ s : State,
    (∀ b, exec (.henc b) s = .next { s with byte := b, cw := hamEnc b, syn := 0#4, status := 0x000#12 })
    ∧ ∀ c, exec (.hdec c) s
        = .next { s with syn := syndrome c, cw := correct c, byte := extract (correct c), status := 0x000#12 }

/-! The tone generator (40_tone_generator.md). -/

/-- The integer form of the peak (40_tone_generator.md R116): |SINE| decreases strictly as d increases, is 1 where d is 0 and 0
exactly where d is the modulus; and the peak phase is one of the phases of the symbols used and has the least d of them. -/
def Obligations.PeakPhaseIsLoudest : Prop :=
  (∀ M : Nat, 0 < M →
    (∀ p q, phaseDist M p < phaseDist M q ↔ |sine q M| < |sine p M|)
    ∧ (∀ p, phaseDist M p = 0 → |sine p M| = 1)
    ∧ (∀ p, phaseDist M p ≤ M) ∧ ∀ p, phaseDist M p = M ↔ sine p M = 0)
  ∧ ∀ (s : State) (used : List Symbol), s.cfgOk = true → used ≠ [] →
    (∃ x ∈ used, ∃ n < s.nsym.toNat, s.peakPhase used = s.freq x * n % s.phaseMod)
    ∧ ∀ x ∈ used, ∀ n < s.nsym.toNat,
      phaseDist s.phaseMod (s.peakPhase used) ≤ phaseDist s.phaseMod (s.freq x * n % s.phaseMod)

/-- The accumulator form of the phases (40_tone_generator.md R121): they are those of an accumulator that starts at 0 and adds
`F mod PHASE_MOD` modulo PHASE_MOD. -/
def Obligations.AccumulatorPhases : Prop :=
  ∀ (s : State) (x : Symbol), s.tonePhases x
    = List.iterate (fun acc => (acc + s.freq x % s.phaseMod) % s.phaseMod) 0 s.nsym.toNat

/-- QSAMPLE (40_tone_generator.md R117): exactly `RN(32767 * SINE(p, M) / |SINE(ps, M)|)`, for a phase ps of greatest |SINE|. -/
def Obligations.QuantisedSampleExact : Prop :=
  ∀ M p ps : Nat, 0 < M → sine ps M ≠ 0 → |sine p M| ≤ |sine ps M| →
    qsample M p ps = roundAway (32767 * sine p M / |sine ps M|)

/-- The properties of the quantised samples (40_tone_generator.md R120, (a) to (g); (h) holds of any function), for phases no
louder than the peak phase. -/
def Obligations.QuantisedSampleProperties : Prop :=
  ∀ M ps : Nat, 0 < M → phaseDist M ps < M →
    ∀ p, p < M → phaseDist M ps ≤ phaseDist M p →
      (-32767 ≤ qsample M p ps ∧ qsample M p ps ≤ 32767)
      ∧ (2 * p % M = 0 → qsample M p ps = 0)
      ∧ (0 < p → 2 * p < M → 0 ≤ qsample M p ps) ∧ (M < 2 * p → qsample M p ps ≤ 0)
      ∧ (0 < p → qsample M (M - p) ps = -qsample M p ps)
      ∧ (∀ q, q < M → 2 * (p + q) = M ∨ 2 * (p + q) = 3 * M → qsample M q ps = qsample M p ps)
      ∧ (phaseDist M p = phaseDist M ps → |qsample M p ps| = 32767)
      ∧ ∀ q, q < M → phaseDist M p ≤ phaseDist M q → |qsample M q ps| ≤ |qsample M p ps|

/-- The samples of a waveform (40_tone_generator.md R110 to R115, R117): the tones in list order, each starting at phase 0, divided
by the peak of the whole waveform, scaled by 32767 and rounded, as 16-bit two's-complement integers. -/
def Obligations.WaveformExact : Prop :=
  ∀ (s : State) (syms : List Symbol), s.cfgOk = true → s.zeroPeak (usedSymbols syms) = false →
    s.waveSamples syms
      = (s.rawWave syms).map (fun x => BitVec.ofInt 16 (roundAway (32767 * x / peakOf (s.rawWave syms))))

/-- The peak is 0 (60_exceptions.md R221, 40_tone_generator.md R116): exactly when every raw sample is 0, and exactly when NSYM
is 1 or the carrier of every symbol used is a multiple of half of PHASE_MOD. -/
def Obligations.ZeroPeakExactly : Prop :=
  ∀ (s : State) (syms : List Symbol), s.cfgOk = true →
    (s.zeroPeak (usedSymbols syms) = true ↔ ∀ x ∈ s.rawWave syms, x = 0)
    ∧ (s.zeroPeak (usedSymbols syms) = true ↔ s.nsym.toNat = 1 ∨ ∀ x ∈ syms, 2 * s.freq x % s.phaseMod = 0)

/-- TONE sym (40_tone_generator.md R119) where the configuration is good, the tone fits and is not all zeros: WAVE_OUT holds the
tone's NSYM samples from element 0 on and is as before above them, WAVE_OUT_LEN = NSYM, SYM is the operand, the flags are
clear, nothing else changes. -/
def Obligations.ToneResult : Prop :=
  ∀ (s : State) (sym : BitVec 2) (x : Symbol), sym = x.code → s.cfgOk = true → s.nsym.toNat ≤ s.waveCap.toNat →
    s.zeroPeak [x] = false →
    ∃ m, exec (.tone sym) s = .next { s with waveOut := m, waveOutLen := s.nsym, sym := x, status := 0x000#12 }
      ∧ ∀ j, m.read? j = if j < s.nsym.toNat then (s.waveSamples [x])[j]? else s.waveOut.read? j

/-- ENCB b (42_byte_codec.md R146): the same with the eight tones of the byte, most significant bit first, in every mode; BYTE is
the operand. -/
def Obligations.EncbResult : Prop :=
  ∀ (s : State) (b : Byte), s.cfgOk = true → 8 * s.nsym.toNat ≤ s.waveCap.toNat →
    s.zeroPeak (usedSymbols (plainSyms b)) = false →
    ∃ m n, exec (.encb b) s = .next { s with waveOut := m, waveOutLen := n, byte := b, status := 0x000#12 }
      ∧ n.toNat = 8 * s.nsym.toNat
      ∧ ∀ j, m.read? j = if j < 8 * s.nsym.toNat then (s.waveSamples (plainSyms b))[j]? else s.waveOut.read? j

/-- ENCH b (43_hamming.md R172): the same with the twelve tones of the byte's codeword, position 1 first, in every mode; CW is
the codeword and SYN 0. -/
def Obligations.EnchResult : Prop :=
  ∀ (s : State) (b : Byte), s.cfgOk = true → 12 * s.nsym.toNat ≤ s.waveCap.toNat →
    s.zeroPeak (usedSymbols (cwSyms (hamEnc b))) = false →
    ∃ m n, exec (.ench b) s
        = .next { s with waveOut := m, waveOutLen := n, byte := b, cw := hamEnc b, syn := 0#4, status := 0x000#12 }
      ∧ n.toNat = 12 * s.nsym.toNat
      ∧ ∀ j, m.read? j = if j < 12 * s.nsym.toNat then (s.waveSamples (cwSyms (hamEnc b)))[j]? else s.waveOut.read? j

/-- ENCF (44_frame_codec.md R185, R186; 30_encoding.md R97): the samples of the frame of EXT_IN, DATA_IN and END_REPEAT, as many
as R186 counts, with one peak; no other register changes. -/
def Obligations.EncfResult : Prop :=
  ∀ (s : State) (total : Nat) (syms : List Symbol),
    syms = frameSyms s.mode s.extInput s.dataInput s.endRepeat.toNat →
    total = s.nsym.toNat * ((if s.mode = 1#1 then 10 else 0) + 8 * (s.extInLen.toNat + 1)
      + (if s.mode = 1#1 then 12 else 8) * s.dataInLen.toNat + s.endRepeat.toNat) →
    s.cfgOk = true → total ≤ s.waveCap.toNat → s.zeroPeak (usedSymbols syms) = false →
    ∃ m n, exec .encf s = .next { s with waveOut := m, waveOutLen := n, status := 0x000#12 }
      ∧ n.toNat = total ∧ (s.waveSamples syms).length = total
      ∧ ∀ j, m.read? j = if j < total then (s.waveSamples syms)[j]? else s.waveOut.read? j

/-- The faults of the encode commands (60_exceptions.md R221, R222, R225; 40_tone_generator.md R118): OVERFLOW where the waveform
would have more than WAVE_CAP samples, before the peak is looked at; else ZERO_PEAK where the peak is 0. STATUS is written
and WAVE_OUT_LEN becomes 0; no element of WAVE_OUT and no other register changes. -/
def Obligations.EncodeFaults : Prop :=
  ∀ (s : State) (i : Instr) (syms : List Symbol), s.commandSyms i = some syms → s.cfgOk = true →
    (s.waveCap.toNat < s.nsym.toNat * syms.length → exec i s = .next { s with waveOutLen := 0#32, status := 0x608#12 })
    ∧ (s.nsym.toNat * syms.length ≤ s.waveCap.toNat → s.zeroPeak (usedSymbols syms) = true →
        exec i s = .next { s with waveOutLen := 0#32, status := 0x508#12 })

/-! The detector (41_symbol_detector.md). -/

/-- PeakBin (41_symbol_detector.md R132): the least k in `0 .. floor(N/2)` of the greatest MAG2, MAG2 being the real squared
magnitude of the discrete Fourier transform (R131). -/
def Obligations.PeakBinExact : Prop :=
  ∀ w : List Int, 0 < w.length →
    peakBin w ≤ w.length / 2 ∧ (∀ k, k ≤ w.length / 2 → mag2 w k ≤ mag2 w (peakBin w))
      ∧ ∀ k, k < peakBin w → mag2 w k < mag2 w (peakBin w)

/-- The two-stage rule (41_symbol_detector.md R134, R138), over the rational frequency num/den: nearer to LOW than to HIGH is ZERO;
else nearer to END than to HIGH is END; else ONE. END is never compared with LOW. Bin k stands for k * 44100 / NSYM hertz. -/
def Obligations.ClassifyTwoStage : Prop :=
  (∀ (s : State) (num den : Nat), 0 < den →
    s.classifyQ num den =
      if |(num : ℚ) / den - s.freqLow.toNat| < |(num : ℚ) / den - s.freqHigh.toNat| then .zero
      else if |(num : ℚ) / den - s.freqEnd.toNat| < |(num : ℚ) / den - s.freqHigh.toNat| then .endSym
      else .one)
    ∧ ∀ (s : State) (k : Nat), s.classify k = s.classifyQ (k * 44100) s.nsym.toNat

/-- Carriers classify as themselves exactly when ORDERED holds (41_symbol_detector.md R137). -/
def Obligations.CarriersClassify : Prop :=
  ∀ s : State,
    s.classifyQ s.freqHigh.toNat 1 = .one
    ∧ (s.classifyQ s.freqLow.toNat 1 = .zero ↔ s.freqLow ≠ s.freqHigh)
    ∧ (s.classifyQ s.freqEnd.toNat 1 = .endSym ↔
        |(s.freqEnd.toNat : ℤ) - s.freqHigh.toNat| ≤ |(s.freqEnd.toNat : ℤ) - s.freqLow.toNat| ∧ s.freqEnd ≠ s.freqHigh)
    ∧ (s.ordered = true ↔ s.classifyQ s.freqHigh.toNat 1 = .one ∧ s.classifyQ s.freqLow.toNat 1 = .zero
        ∧ s.classifyQ s.freqEnd.toNat 1 = .endSym)

/-- Silence and offset (41_symbol_detector.md R132, R139): a constant window, the all-zero one among them, has peak bin 0 and
the symbol of the frequency 0, which is ZERO when FREQ_LOW is below FREQ_HIGH. -/
def Obligations.ConstantWindowIsBinZero : Prop :=
  ∀ (s : State) (a : Int), 1 ≤ s.nsym.toNat →
    peakBin (List.replicate s.nsym.toNat a) = 0
    ∧ s.decodeSymbol (List.replicate s.nsym.toNat a) = s.classifyQ 0 1
    ∧ (s.freqLow.toNat < s.freqHigh.toNat → s.decodeSymbol (List.replicate s.nsym.toNat a) = .zero)

/-- Scale invariance (41_symbol_detector.md R141): multiplying a window by an integer that is not 0 multiplies every squared
magnitude by its square and changes neither the peak bin nor the symbol. -/
def Obligations.ScaleInvariance : Prop :=
  ∀ (w : List Int) (a : Int), a ≠ 0 →
    (∀ k, mag2 (w.map (a * ·)) k = (a : ℝ) ^ 2 * mag2 w k)
    ∧ peakBin (w.map (a * ·)) = peakBin w
    ∧ ∀ s : State, s.decodeSymbol (w.map (a * ·)) = s.decodeSymbol w

/-- DSYM (41_symbol_detector.md R136, R140): with a whole window at CURSOR, SYM and BIN are its symbol and peak bin, CURSOR moves
by NSYM, ISEND says whether the symbol is END; with less, the command is refused with SHORT_WINDOW and only STATUS
changes. -/
def Obligations.DsymResult : Prop :=
  ∀ s : State, s.cfgOk = true →
    (s.cursor.toNat + s.nsym.toNat ≤ s.waveInLen.toNat → ∃ c : Word, c.toNat = s.cursor.toNat + s.nsym.toNat
      ∧ exec .dsym s = .next { s with
          sym := s.classify (peakBin (s.window s.cursor.toNat)),
          bin := BitVec.ofNat 32 (peakBin (s.window s.cursor.toNat)),
          cursor := c,
          status := if s.classify (peakBin (s.window s.cursor.toNat)) = .endSym then 0x002#12 else 0x000#12 })
    ∧ (s.waveInLen.toNat < s.cursor.toNat + s.nsym.toNat → exec .dsym s = .next { s with status := 0x408#12 })

/-! The byte codec (42_byte_codec.md, 43_hamming.md). -/

/-- Packing (42_byte_codec.md R145, 30_encoding.md R89, R90): a plain byte is its bits from bit 7 to bit 0, a 0 as ZERO and a 1
as ONE; PackMSB is the number of eight bits, the first the most significant; and packing undoes the bits of every byte and
the position bits of every codeword. -/
def Obligations.PackingInverse : Prop :=
  (∀ v0 v1 v2 v3 v4 v5 v6 v7 : Bool, (packMSB [v0, v1, v2, v3, v4, v5, v6, v7]).toNat
    = v0.toNat * 128 + v1.toNat * 64 + v2.toNat * 32 + v3.toNat * 16 + v4.toNat * 8 + v5.toNat * 4 + v6.toNat * 2
      + v7.toNat)
  ∧ (∀ b : Byte, packMSB (byteBits b) = b
      ∧ byteBits b = [7, 6, 5, 4, 3, 2, 1, 0].map (fun n => b.getLsbD n)
      ∧ plainSyms b = (byteBits b).map (fun x => if x then .one else .zero))
  ∧ ∀ c : Codeword, packCode (codeBits c) = c

/-- DECB (42_byte_codec.md R147, R148) where the configuration is good: with fewer than 8 windows from CURSOR only STATUS changes,
to TRUNC; with 8 and the first END at window j, SYM and BIN are that window's and STATUS is ISEND; with 8 and no END, BYTE is
the eight bits packed, CURSOR moves by 8 windows, SYM and BIN are the last window's and the flags are clear. -/
def Obligations.DecbResult : Prop :=
  ∀ s : State, s.cfgOk = true →
    (s.waveInLen.toNat < s.cursor.toNat + 8 * s.nsym.toNat → exec .decb s = .next { s with status := 0x004#12 })
    ∧ (s.cursor.toNat + 8 * s.nsym.toNat ≤ s.waveInLen.toNat →
      (∀ j, s.firstEnd s.cursor.toNat 8 j →
        exec .decb s = .next { s with sym := .endSym, bin := s.binAt s.cursor.toNat j, status := 0x002#12 })
      ∧ (s.noEnd s.cursor.toNat 8 → ∃ c : Word, c.toNat = s.cursor.toNat + 8 * s.nsym.toNat
        ∧ exec .decb s = .next { s with
            sym := s.symbolAt s.cursor.toNat 7, bin := s.binAt s.cursor.toNat 7,
            byte := packMSB (s.bitsAt s.cursor.toNat 8), cursor := c, status := 0x000#12 }))

/-- DECH (43_hamming.md R168, R174): the same with 12 windows; with no END, SYN is the syndrome of the twelve bits, CW the word
after correction, BYTE its byte, and CURSOR moves by 12 windows. -/
def Obligations.DechResult : Prop :=
  ∀ s : State, s.cfgOk = true →
    (s.waveInLen.toNat < s.cursor.toNat + 12 * s.nsym.toNat → exec .dech s = .next { s with status := 0x004#12 })
    ∧ (s.cursor.toNat + 12 * s.nsym.toNat ≤ s.waveInLen.toNat →
      (∀ j, s.firstEnd s.cursor.toNat 12 j →
        exec .dech s = .next { s with sym := .endSym, bin := s.binAt s.cursor.toNat j, status := 0x002#12 })
      ∧ (s.noEnd s.cursor.toNat 12 → ∀ w : Codeword, w = packCode (s.bitsAt s.cursor.toNat 12) →
        ∃ c : Word, c.toNat = s.cursor.toNat + 12 * s.nsym.toNat
        ∧ exec .dech s = .next { s with
            sym := s.symbolAt s.cursor.toNat 11, bin := s.binAt s.cursor.toNat 11,
            syn := syndrome w, cw := correct w, byte := extract (correct w), cursor := c, status := 0x000#12 }))

/-- Plain round trip of a byte (42_byte_codec.md R150): under CFG_OK and DISTINGUISHABLE, if the eight windows at c hold the
samples BuildWave writes for the byte's symbols inside some waveform (the list `syms`, whose peak scales them), then the byte
window gives the byte's bits, and DECB at c gives the byte. -/
def Obligations.PlainByteRoundTrip : Prop :=
  ∀ (s : State) (b : Byte) (syms : List Symbol), s.cfgOk = true → s.distinguishable = true →
    (∀ x ∈ plainSyms b, x ∈ syms) → s.zeroPeak (usedSymbols syms) = false →
    s.cursor.toNat + 8 * s.nsym.toNat ≤ s.waveInLen.toNat →
    (∀ j x, (plainSyms b)[j]? = some x →
      s.window (s.cursor.toNat + j * s.nsym.toNat) = s.toneSamples (s.peakPhase (usedSymbols syms)) x) →
    (decodeByteWindow s.cursor.toNat 8 s).1 = .bits (byteBits b)
    ∧ ∃ t, exec .decb s = .next t ∧ t.byte = b ∧ t.status = 0x000#12
        ∧ t.cursor.toNat = s.cursor.toNat + 8 * s.nsym.toNat

/-! The frame decoder (44_frame_codec.md). -/

/-- DINIT (44_frame_codec.md R190, 60_exceptions.md R219), and DECF on a rate mismatch: with IN_RATE = 44100 the outputs are
emptied, CURSOR is 0 and FSTATE is PREAMBLE or HEADER by MODE; with another rate the decoder is parked in DONE with empty
outputs and RATE_MISMATCH, and CURSOR stays. -/
def Obligations.DinitResult : Prop :=
  ∀ s : State, s.cfgOk = true →
    (s.inRate = 44100#32 → exec .dinit s = .next { s with
      extOutLen := 0#32, dataOutLen := 0#32, cursor := 0#32,
      fstate := if s.mode = 1#1 then .preamble else .header, status := 0x000#12 })
    ∧ (s.inRate ≠ 44100#32 → ∀ i, i = .dinit ∨ i = .decf → exec i s = .next { s with
      fstate := .done, extOutLen := 0#32, dataOutLen := 0#32, status := 0x308#12 })

/-- DSTEP in PREAMBLE and in DONE (44_frame_codec.md R191, R192, R195): the ten preamble windows are skipped by count, or the
decode ends truncated; in DONE the flags are cleared and nothing else changes. -/
def Obligations.DstepPreambleAndDone : Prop :=
  ∀ s : State, s.cfgOk = true →
    (s.fstate = .preamble →
      (s.cursor.toNat + 10 * s.nsym.toNat ≤ s.waveInLen.toNat → ∃ c : Word, c.toNat = s.cursor.toNat + 10 * s.nsym.toNat
        ∧ exec .dstep s = .next { s with cursor := c, fstate := .header, status := 0x000#12 })
      ∧ (s.waveInLen.toNat < s.cursor.toNat + 10 * s.nsym.toNat →
        exec .dstep s = .next { s with fstate := .done, status := 0x004#12 }))
    ∧ (s.fstate = .done → exec .dstep s = .next { s with status := 0x000#12 })

/-- DSTEP in HEADER (44_frame_codec.md R193, R201): truncation or END ends the decode; a zero byte is consumed, not stored, and
starts the payload; another byte is appended to EXT_OUT, or, where EXT_OUT is full, ends the decode with OVERFLOW, not
stored and CURSOR unmoved. -/
def Obligations.DstepHeader : Prop :=
  ∀ s : State, s.cfgOk = true → s.fstate = .header →
    (s.waveInLen.toNat < s.cursor.toNat + 8 * s.nsym.toNat →
      exec .dstep s = .next { s with fstate := .done, status := 0x004#12 })
    ∧ (s.cursor.toNat + 8 * s.nsym.toNat ≤ s.waveInLen.toNat →
      (∀ j, s.firstEnd s.cursor.toNat 8 j → exec .dstep s = .next { s with
        sym := .endSym, bin := s.binAt s.cursor.toNat j, fstate := .done, status := 0x002#12 })
      ∧ (s.noEnd s.cursor.toNat 8 → ∀ b, b = packMSB (s.bitsAt s.cursor.toNat 8) →
        (b = 0#8 → ∃ c : Word, c.toNat = s.cursor.toNat + 8 * s.nsym.toNat
          ∧ exec .dstep s = .next { s with
              sym := s.symbolAt s.cursor.toNat 7, bin := s.binAt s.cursor.toNat 7, byte := b, cursor := c,
              fstate := .payload, status := 0x000#12 })
        ∧ (b ≠ 0#8 → s.extOutLen = s.extCap → exec .dstep s = .next { s with
              sym := s.symbolAt s.cursor.toNat 7, bin := s.binAt s.cursor.toNat 7, byte := b,
              fstate := .done, status := 0x608#12 })
        ∧ (b ≠ 0#8 → s.extOutLen.toNat < s.extCap.toNat → ∃ (c n : Word) (m : Memory 8),
          c.toNat = s.cursor.toNat + 8 * s.nsym.toNat ∧ n.toNat = s.extOutLen.toNat + 1
          ∧ (∀ k, m.read? k = if k = s.extOutLen.toNat then some b else s.extOut.read? k)
          ∧ exec .dstep s = .next { s with
              sym := s.symbolAt s.cursor.toNat 7, bin := s.binAt s.cursor.toNat 7, byte := b, cursor := c,
              extOut := m, extOutLen := n, status := 0x000#12 })))

/-- DSTEP in PAYLOAD (44_frame_codec.md R194; 30_encoding.md R98): L is 12 in protected mode and 8 in plain mode; truncation or END
ends the decode; a byte, zero included, is appended to DATA_OUT, with SYN and CW written in protected mode, or, where
DATA_OUT is full, ends the decode with OVERFLOW, not stored and CURSOR unmoved. -/
def Obligations.DstepPayload : Prop :=
  ∀ (s : State) (L : Nat) (w : Codeword) (b : Byte), s.cfgOk = true → s.fstate = .payload →
    L = (if s.mode = 1#1 then 12 else 8) → w = packCode (s.bitsAt s.cursor.toNat 12) →
    b = (if s.mode = 1#1 then extract (correct w) else packMSB (s.bitsAt s.cursor.toNat 8)) →
    (s.waveInLen.toNat < s.cursor.toNat + L * s.nsym.toNat →
      exec .dstep s = .next { s with fstate := .done, status := 0x004#12 })
    ∧ (s.cursor.toNat + L * s.nsym.toNat ≤ s.waveInLen.toNat →
      (∀ j, s.firstEnd s.cursor.toNat L j → exec .dstep s = .next { s with
        sym := .endSym, bin := s.binAt s.cursor.toNat j, fstate := .done, status := 0x002#12 })
      ∧ (s.noEnd s.cursor.toNat L →
        (s.dataOutLen = s.dataCap → exec .dstep s = .next { s with
            sym := s.symbolAt s.cursor.toNat (L - 1), bin := s.binAt s.cursor.toNat (L - 1), byte := b,
            cw := if s.mode = 1#1 then correct w else s.cw, syn := if s.mode = 1#1 then syndrome w else s.syn,
            fstate := .done, status := 0x608#12 })
        ∧ (s.dataOutLen.toNat < s.dataCap.toNat → ∃ (c n : Word) (m : Memory 8),
          c.toNat = s.cursor.toNat + L * s.nsym.toNat ∧ n.toNat = s.dataOutLen.toNat + 1
          ∧ (∀ k, m.read? k = if k = s.dataOutLen.toNat then some b else s.dataOut.read? k)
          ∧ exec .dstep s = .next { s with
              sym := s.symbolAt s.cursor.toNat (L - 1), bin := s.binAt s.cursor.toNat (L - 1), byte := b,
              cw := if s.mode = 1#1 then correct w else s.cw, syn := if s.mode = 1#1 then syndrome w else s.syn,
              cursor := c, dataOut := m, dataOutLen := n, status := 0x000#12 })))

/-- DECF (44_frame_codec.md R196, R197) where the configuration is good and the rate matches: it is DINIT followed by DSTEPs, at
most `2 + floor(WAVE_IN_LEN / (8*NSYM))` of them, none after FSTATE = DONE; it ends in DONE, with exactly one of ISEND, TRUNC
and ERR with OVERFLOW. -/
def Obligations.DecfRunsToDone : Prop :=
  ∀ s : State, s.cfgOk = true → s.inRate = 44100#32 →
    ∃ (n : Nat) (run : Nat → State),
      n ≤ 2 + s.waveInLen.toNat / (8 * s.nsym.toNat)
      ∧ exec .dinit s = .next (run 0)
      ∧ (∀ k, k < n → (run k).fstate ≠ .done ∧ exec .dstep (run k) = .next (run (k + 1)))
      ∧ (run n).fstate = .done ∧ exec .decf s = .next (run n)
      ∧ ((run n).status = 0x002#12 ∨ (run n).status = 0x004#12 ∨ (run n).status = 0x608#12)

/-- Round trip of a frame (44_frame_codec.md R200): where WAVE_IN holds, from element 0 to WAVE_IN_LEN, the samples ENCF writes
for ext, data and n END symbols in the mode of the decoder, under CFG_OK and DISTINGUISHABLE, ext without a zero byte and
both within the capacities, DECF gives ext and data back with ERR = 0, CURSOR is NSYM times the number of symbols before the
sentinel, and STATUS is ISEND where the sentinel fills a payload byte window and TRUNC where it does not. -/
def Obligations.FrameRoundTrip : Prop :=
  ∀ (s : State) (ext data : List Byte) (n L : Nat) (syms : List Symbol),
    syms = frameSyms s.mode ext data n → L = (if s.mode = 1#1 then 12 else 8) →
    s.cfgOk = true → s.distinguishable = true → s.inRate = 44100#32 →
    (∀ b ∈ ext, b ≠ 0#8) → ext.length ≤ s.extCap.toNat → data.length ≤ s.dataCap.toNat →
    s.zeroPeak (usedSymbols syms) = false →
    s.waveInLen.toNat = s.nsym.toNat * syms.length → s.plays 0 (s.waveSamples syms) →
    ∃ t, exec .decf s = .next t ∧ t.fstate = .done
      ∧ t.extOutLen.toNat = ext.length ∧ (∀ j, j < ext.length → t.extOut.read? j = ext[j]?)
      ∧ t.dataOutLen.toNat = data.length ∧ (∀ j, j < data.length → t.dataOut.read? j = data[j]?)
      ∧ t.cursor.toNat = s.nsym.toNat * (syms.length - n)
      ∧ (L ≤ n → t.status = 0x002#12) ∧ (n < L → t.status = 0x004#12)

end
end

