-- ==== Sys2Proof/Laws/HostAccess.lean ====
section
/-! SUPPORT. Host accesses at the offsets of the register map, what the host sees of a buffer element, a step with an
action waiting, and decoding by the opcode. -/

namespace Sys2Proof.Machine

@[simp] theorem ofOffset_offset (r : Reg) : Reg.ofOffset r.offset = r := by cases r <;> decide

@[simp] theorem aligned_offset (r : Reg) : aligned r.offset = true := by cases r <;> decide

/-- A read at a register's offset adds what the register reads as to the host's values. -/
theorem hostRead_offset (r : Reg) (s : State) : hostRead r.offset s = .next { s with reads := s.readReg r :: s.reads } := by
  simp [hostRead]

/-- A write at a register's offset, other than CMD. -/
theorem hostWrite_offset (r : Reg) (h : r ≠ .cmd) (v : Word) (s : State) :
    hostWrite r.offset v s = .next (s.writeReg r v) := by
  unfold hostWrite
  rw [aligned_offset, ofOffset_offset]
  cases r <;> first | rfl | exact absurd rfl h

/-- A write at the offset of CMD runs the command. -/
theorem hostWrite_cmd (v : Word) (s : State) : hostWrite 0x00#32 v s = runCommand v s := by
  show hostWrite Reg.cmd.offset v s = _
  unfold hostWrite
  rw [aligned_offset, ofOffset_offset]
  rfl

/-- Below the length the host sees what was last written. -/
theorem bufferElement_written {w : Nat} {m : Memory w} {len i : Nat} {v : BitVec w} (hi : i < len)
    (h : m.read? i = some v) (free : BitVec w) : bufferElement m len i free = v := by
  simp [bufferElement, hi, h]

/-- At or above the length the host sees the free value, whatever was written there. -/
theorem bufferElement_stale {w : Nat} (m : Memory w) {len i : Nat} (hi : len ≤ i) (free : BitVec w) :
    bufferElement m len i free = free := by
  simp [bufferElement, Nat.not_lt.mpr hi]

/-- An element that nothing has written is the free value below the length too. -/
theorem bufferElement_unwritten {w : Nat} {m : Memory w} {i : Nat} (h : m.read? i = none) (len : Nat) (free : BitVec w) :
    bufferElement m len i free = free := by
  simp [bufferElement, h]

/-- A step with a host action waiting takes it from the queue and carries it out. -/
theorem step_cons {s : State} {a : HostAction} {rest : List HostAction} (h : s.pending = a :: rest) :
    step s = act a (s.take rest) := by
  simp [step, h]

/-- A word that decodes runs its command. -/
theorem runCommand_ok {w : Word} {i : Instr} (h : decode w = .ok i) (s : State) : runCommand w s = exec i s := by
  simp [runCommand, h]

/-- A word that does not decode ends with ILLEGAL_CMD. -/
theorem runCommand_error {w : Word} {e : DecodeError} (h : decode w = .error e) (s : State) :
    runCommand w s = .next (raise .illegalCmd s) := by
  simp [runCommand, h]

end Sys2Proof.Machine
end

