-- ==== Sys2Proof/Laws/Memory.lean ====
section
/-! SUPPORT. A buffer's contents: what a write makes later reads give, and that every operation keeps the canonical form and
the capacity. -/

namespace Sys2Proof.Machine

variable {w : Nat}

/-- Read after write, of the same element and of every other one. -/
theorem Memory.read?_write (m : Memory w) (i j : Nat) (v : BitVec w) :
    (m.write i v).read? j = if j = i then some v else m.read? j := by
  induction m with
  | nil =>
    rw [Memory.write, Memory.read?, Memory.read?]
    split <;> split <;> first | rfl | omega
  | cons c r ih =>
    obtain ⟨a, x⟩ := c
    rw [Memory.write]
    split
    · rw [Memory.read?, ih, Memory.read?]
      split <;> split <;> first | rfl | omega
    · split
      · subst_vars
        simp only [Memory.read?, eq_comm]
        split <;> simp_all
      · simp only [Memory.read?, eq_comm (a := j)]

/-- The element just written. -/
@[simp] theorem Memory.read?_write_same (m : Memory w) (i : Nat) (v : BitVec w) : (m.write i v).read? i = some v := by
  simp [Memory.read?_write]

/-- Another element. -/
theorem Memory.read?_write_other (m : Memory w) {i j : Nat} (v : BitVec w) (h : j ≠ i) :
    (m.write i v).read? j = m.read? j := by
  simp [Memory.read?_write, h]

theorem Memory.read?_cells (base : Nat) (vs : List (BitVec w)) (i : Nat) :
    (Memory.cells base vs).read? i = if base ≤ i then vs[i - base]? else none := by
  induction vs generalizing base with
  | nil => simp [Memory.cells, Memory.read?]
  | cons v vs ih =>
    rw [Memory.cells, Memory.read?, ih]
    rcases Nat.lt_trichotomy base i with h | h | h
    · rw [if_neg (by omega), if_pos (by omega), if_pos (by omega), show i - base = i - (base + 1) + 1 by omega]
      rfl
    · subst h; simp
    · rw [if_neg (by omega), if_neg (by omega), if_neg (by omega)]

theorem Memory.read?_append (m n : Memory w) (i : Nat) :
    Memory.read? (m ++ n) i = (Memory.read? m i).or (Memory.read? n i) := by
  induction m with
  | nil => simp [Memory.read?]
  | cons c r ih =>
    obtain ⟨a, x⟩ := c
    rw [List.cons_append, Memory.read?, Memory.read?, ih]
    split <;> simp

theorem Memory.read?_filter (m : Memory w) (n i : Nat) (h : n ≤ i) :
    Memory.read? (m.filter (fun c => decide (n ≤ c.1))) i = m.read? i := by
  induction m with
  | nil => rfl
  | cons c r ih =>
    obtain ⟨a, x⟩ := c
    rw [List.filter_cons]
    split
    · rw [Memory.read?, Memory.read?, ih]
    · rename_i hn
      have : ¬n ≤ a := by simpa using hn
      rw [ih, Memory.read?, if_neg (by omega)]

/-- Read after a whole output has been written from element 0 on: the new elements, and above them the old ones. -/
@[simp] theorem Memory.read?_writeFront (m : Memory w) (vs : List (BitVec w)) (i : Nat) :
    (m.writeFront vs).read? i = if i < vs.length then vs[i]? else m.read? i := by
  unfold Memory.writeFront
  rw [Memory.read?_append, Memory.read?_cells, if_pos (Nat.zero_le i), Nat.sub_zero]
  split
  · rename_i h; simp [List.getElem?_eq_getElem h]
  · rename_i h
    rw [List.getElem?_eq_none (by omega), Option.none_or, Memory.read?_filter m _ _ (by omega)]

/-- The canonical form as one statement about all pairs of entries. -/
theorem Memory.wf_iff (m : Memory w) : m.wf = true ↔ m.Pairwise (fun c d => c.1 < d.1) := by
  induction m with
  | nil => simp [Memory.wf]
  | cons c r ih =>
    cases r with
    | nil => simp [Memory.wf]
    | cons d t =>
      obtain ⟨a, x⟩ := c
      obtain ⟨b, y⟩ := d
      rw [Memory.wf, Bool.and_eq_true, decide_eq_true_iff, ih, List.pairwise_cons (a := (a, x))]
      constructor
      · rintro ⟨h, hp⟩
        refine ⟨fun e he => ?_, hp⟩
        rcases List.mem_cons.mp he with rfl | he
        · exact h
        · exact h.trans ((List.pairwise_cons.mp hp).1 e he)
      · rintro ⟨h, hp⟩
        exact ⟨h (b, y) (by simp), hp⟩

/-- The entries after a write. -/
theorem Memory.mem_write {m : Memory w} {i : Nat} {v : BitVec w} {c : Nat × BitVec w} (h : c ∈ m.write i v) :
    c = (i, v) ∨ c ∈ m := by
  induction m with
  | nil => left; simpa [Memory.write] using h
  | cons d r ih =>
    obtain ⟨a, x⟩ := d
    rw [Memory.write] at h
    split at h
    · rcases List.mem_cons.mp h with rfl | h
      · exact .inr (by simp)
      · exact (ih h).imp_right fun h => by simp [h]
    · split at h
      · exact (List.mem_cons.mp h).imp_right fun h => by simp [h]
      · exact (List.mem_cons.mp h)

/-- A write keeps the canonical form. -/
theorem Memory.wf_write {m : Memory w} (h : m.wf = true) (i : Nat) (v : BitVec w) : (m.write i v).wf = true := by
  rw [Memory.wf_iff] at h ⊢
  induction m with
  | nil => simp [Memory.write]
  | cons d r ih =>
    obtain ⟨a, x⟩ := d
    obtain ⟨h1, h2⟩ := List.pairwise_cons.mp h
    rw [Memory.write]
    split
    · rename_i ha
      refine List.pairwise_cons.mpr ⟨fun c hc => ?_, ih h2⟩
      rcases Memory.mem_write hc with rfl | hc
      · exact ha
      · exact h1 c hc
    · split
      · rename_i ha; subst ha; exact List.pairwise_cons.mpr ⟨h1, h2⟩
      · refine List.pairwise_cons.mpr ⟨fun c hc => ?_, h⟩
        rcases List.mem_cons.mp hc with rfl | hc
        · show i < a; omega
        · exact lt_trans (show i < a by omega) (h1 c hc)

theorem Memory.mem_cells {base : Nat} {vs : List (BitVec w)} {c : Nat × BitVec w} (h : c ∈ Memory.cells base vs) :
    base ≤ c.1 ∧ c.1 < base + vs.length := by
  induction vs generalizing base with
  | nil => cases h
  | cons v vs ih =>
    rw [List.length_cons]
    rcases List.mem_cons.mp h with rfl | h
    · exact ⟨le_refl _, by simp⟩
    · have := ih h; omega

theorem Memory.cells_pairwise (base : Nat) (vs : List (BitVec w)) :
    (Memory.cells base vs).Pairwise (fun c d => c.1 < d.1) := by
  induction vs generalizing base with
  | nil => exact List.Pairwise.nil
  | cons v vs ih => exact List.pairwise_cons.mpr ⟨fun c hc => (Memory.mem_cells hc).1, ih _⟩

/-- Writing a whole output keeps the canonical form. -/
theorem Memory.wf_writeFront {m : Memory w} (h : m.wf = true) (vs : List (BitVec w)) : (m.writeFront vs).wf = true := by
  rw [Memory.wf_iff] at h ⊢
  refine List.pairwise_append.mpr ⟨Memory.cells_pairwise 0 vs, h.filter _, fun c hc d hd => ?_⟩
  have h1 := Memory.mem_cells hc
  have h2 : vs.length ≤ d.1 := by simpa using (List.mem_filter.mp hd).2
  omega

/-- A write below the capacity keeps the entries below it. -/
theorem withinCap_write {m : Memory w} {cap i : Nat} (h : withinCap m cap) (hi : i < cap) (v : BitVec w) :
    withinCap (m.write i v) cap := by
  intro c hc
  rcases Memory.mem_write hc with rfl | hc
  · exact hi
  · exact h c hc

/-- So does writing a whole output that fits. -/
theorem withinCap_writeFront {m : Memory w} {cap : Nat} (h : withinCap m cap) {vs : List (BitVec w)}
    (hv : vs.length ≤ cap) : withinCap (m.writeFront vs) cap := by
  intro c hc
  rcases List.mem_append.mp hc with hc | hc
  · have := Memory.mem_cells hc; omega
  · exact h c (List.mem_filter.mp hc).1

/-- Every buffer of the reset state has the canonical form. -/
theorem reset_buffers_wf :
    State.reset.extIn.wf = true ∧ State.reset.dataIn.wf = true ∧ State.reset.waveIn.wf = true
      ∧ State.reset.extOut.wf = true ∧ State.reset.dataOut.wf = true ∧ State.reset.waveOut.wf = true := by
  decide

end Sys2Proof.Machine
end

