-- ==== Sys2Proof/Laws/NumericSeries.lean ====
section
/-! SUPPORT. How far the fixed-point cosine of Machine/Numeric.lean is from the real one: the arctangent series for π, the
cosine series, and the error that each cut-off integer adds. -/

namespace Sys2Proof.Machine

open Finset

/-- The error of an alternating series with decreasing terms is at most its first omitted term. -/
theorem alternating_error {f : ℕ → ℝ} {l : ℝ} (ha : Antitone f)
    (h : Filter.Tendsto (fun n => ∑ i ∈ range n, (-1) ^ i * f i) Filter.atTop (nhds l)) (n : ℕ) :
    |∑ i ∈ range n, (-1) ^ i * f i - l| ≤ f n := by
  rcases Nat.even_or_odd' n with ⟨k, rfl | rfl⟩
  · have h1 := ha.alternating_series_le_tendsto h k
    have h2 := ha.tendsto_le_alternating_series h k
    rw [sum_range_succ] at h2
    simp only [even_two, Even.mul_right, Even.neg_pow, one_pow, one_mul] at h2
    rw [abs_le]; constructor <;> linarith
  · have h1 := ha.alternating_series_le_tendsto h (k + 1)
    have h2 := ha.tendsto_le_alternating_series h k
    rw [show 2 * (k + 1) = 2 * k + 1 + 1 by ring, sum_range_succ] at h1
    have : ((-1 : ℝ)) ^ (2 * k + 1) = -1 := by rw [pow_succ, pow_mul]; simp
    rw [this] at h1
    rw [abs_le]; constructor <;> linarith

/-- The terms of the arctangent series at `1/q`. -/
noncomputable def arctanTerm (q i : ℕ) : ℝ := 1 / ((2 * i + 1) * (q : ℝ) ^ (2 * i + 1))

theorem arctanTerm_antitone {q : ℕ} (hq : 2 ≤ q) : Antitone (arctanTerm q) := by
  refine antitone_nat_of_succ_le fun i => ?_
  have hq1 : (1 : ℝ) ≤ q := by exact_mod_cast (by omega : 1 ≤ q)
  unfold arctanTerm
  apply one_div_le_one_div_of_le (by positivity)
  apply mul_le_mul
  · push_cast; linarith
  · exact pow_le_pow_right₀ hq1 (by omega)
  · positivity
  · positivity

theorem arctan_error {q : ℕ} (hq : 2 ≤ q) (n : ℕ) :
    |∑ i ∈ range n, (-1) ^ i * arctanTerm q i - Real.arctan ((q : ℝ)⁻¹)| ≤ arctanTerm q n := by
  apply alternating_error (arctanTerm_antitone hq)
  have hq2 : (2 : ℝ) ≤ q := by exact_mod_cast hq
  have hx : ‖((q : ℝ)⁻¹)‖ < 1 := by
    rw [Real.norm_eq_abs, abs_of_pos (by positivity)]
    exact inv_lt_one_of_one_lt₀ (by linarith)
  have := (Real.hasSum_arctan hx).tendsto_sum_nat
  refine this.congr fun n => Finset.sum_congr rfl fun i _ => ?_
  unfold arctanTerm
  rw [inv_pow]
  push_cast
  field_simp

theorem arctanInvFix_error {q : ℕ} (hq : 2 ≤ q) (P n : ℕ) :
    |(arctanInvFix q P n : ℝ) - 2 ^ P * ∑ i ∈ range n, (-1) ^ i * arctanTerm q i| ≤ n := by
  induction n with
  | zero => simp [arctanInvFix]
  | succ n ih =>
    rw [sum_range_succ, arctanInvFix]
    have hD : 0 < (2 * n + 1) * q ^ (2 * n + 1) := by positivity
    have hfl : |((2 ^ P / ((2 * n + 1) * q ^ (2 * n + 1)) : ℕ) : ℝ) - 2 ^ P * arctanTerm q n| ≤ 1 := by
      have h1 := Nat.div_add_mod (2 ^ P) ((2 * n + 1) * q ^ (2 * n + 1))
      have h2 := Nat.mod_lt (2 ^ P) hD
      set D := (2 * n + 1) * q ^ (2 * n + 1) with hDd
      have e : (2 : ℝ) ^ P * arctanTerm q n = 2 ^ P / (D : ℝ) := by
        unfold arctanTerm; rw [hDd]; push_cast; ring
      have hDr : (0 : ℝ) < D := by exact_mod_cast hD
      have h3 : (2 : ℝ) ^ P = D * ((2 ^ P / D : ℕ) : ℝ) + ((2 ^ P % D : ℕ) : ℝ) := by exact_mod_cast h1.symm
      have h4 : ((2 ^ P % D : ℕ) : ℝ) < D := by exact_mod_cast h2
      have h5 : (0 : ℝ) ≤ ((2 ^ P % D : ℕ) : ℝ) := by positivity
      rw [e, h3, add_div, mul_div_cancel_left₀ _ hDr.ne']
      have h6 : ((2 ^ P % D : ℕ) : ℝ) / D ≤ 1 := by rw [div_le_one hDr]; exact h4.le
      have h7 : 0 ≤ ((2 ^ P % D : ℕ) : ℝ) / D := by positivity
      rw [abs_le]; constructor <;> linarith
    have hs : (((if n % 2 = 0 then 1 else -1 : ℤ)) : ℝ) = (-1) ^ n := by
      split
      · rename_i h; rw [Even.neg_one_pow (Nat.even_iff.mpr h)]; simp
      · rename_i h; rw [Odd.neg_one_pow (Nat.odd_iff.mpr (by omega))]; simp
    generalize 2 ^ P / ((2 * n + 1) * q ^ (2 * n + 1)) = Q at hfl ⊢
    rw [Int.cast_add, Int.cast_mul, hs, Int.cast_natCast, Nat.cast_succ]
    have key : |(-1 : ℝ) ^ n * (Q : ℝ) - 2 ^ P * ((-1) ^ n * arctanTerm q n)| ≤ 1 := by
      rw [show (-1 : ℝ) ^ n * (Q : ℝ) - 2 ^ P * ((-1) ^ n * arctanTerm q n)
        = (-1) ^ n * ((Q : ℝ) - 2 ^ P * arctanTerm q n) by ring, abs_mul]
      simpa using hfl
    rw [abs_le] at ih key ⊢
    constructor <;> linarith [ih.1, ih.2, key.1, key.2]

/-- `2^P·arctan(1/q)` is met within n + 1 for q ≥ 5 and n > P / 4. -/
theorem arctanInvFix_bound {q : ℕ} (hq : 5 ≤ q) (P : ℕ) :
    |(arctanInvFix q P (P / 4 + 1) : ℝ) - 2 ^ P * Real.arctan ((q : ℝ)⁻¹)| ≤ P / 4 + 2 := by
  have h1 := arctanInvFix_error (by omega : 2 ≤ q) P (P / 4 + 1)
  have h2 := arctan_error (by omega : 2 ≤ q) (P / 4 + 1)
  have h3 : 2 ^ P * arctanTerm q (P / 4 + 1) ≤ 1 := by
    unfold arctanTerm
    rw [mul_one_div, div_le_one (by positivity)]
    have : (2 : ℕ) ^ P ≤ (2 * (P / 4 + 1) + 1) * q ^ (2 * (P / 4 + 1) + 1) := by
      calc 2 ^ P ≤ 2 ^ (2 * (2 * (P / 4 + 1) + 1)) := Nat.pow_le_pow_right (by norm_num) (by omega)
        _ = 4 ^ (2 * (P / 4 + 1) + 1) := by rw [pow_mul]; norm_num
        _ ≤ q ^ (2 * (P / 4 + 1) + 1) := Nat.pow_le_pow_left (by omega) _
        _ ≤ _ := Nat.le_mul_of_pos_left _ (by omega)
    exact_mod_cast this
  have hP : (0 : ℝ) < 2 ^ P := by positivity
  have h4 : ((P / 4 + 1 : ℕ) : ℝ) ≤ P / 4 + 1 := by
    push_cast
    have : ((P / 4 : ℕ) : ℝ) ≤ (P : ℝ) / 4 := by exact_mod_cast Nat.cast_div_le
    linarith
  set S := ∑ i ∈ range (P / 4 + 1), (-1 : ℝ) ^ i * arctanTerm q i
  have h5 : |2 ^ P * S - 2 ^ P * Real.arctan ((q : ℝ)⁻¹)| ≤ 1 := by
    rw [← mul_sub, abs_mul, abs_of_pos hP]
    exact (mul_le_mul_of_nonneg_left h2 hP.le).trans h3
  rw [abs_le] at *
  constructor <;> linarith [h1.1, h1.2, h5.1, h5.2]

/-- `piFix P` is `2^P·π` within `5P + 40`. -/
theorem piFix_error (P : ℕ) : |(piFix P : ℝ) - 2 ^ P * Real.pi| ≤ 5 * P + 40 := by
  have h5 := arctanInvFix_bound (le_refl 5) P
  have h239 := arctanInvFix_bound (by norm_num : 5 ≤ 239) P
  have hm := Real.four_mul_arctan_inv_5_sub_arctan_inv_239
  push_cast at h5 h239
  have hpi : Real.pi = 16 * Real.arctan 5⁻¹ - 4 * Real.arctan 239⁻¹ := by linarith
  have hP : (0 : ℝ) < 2 ^ P := by positivity
  have hz : |((16 * arctanInvFix 5 P (P / 4 + 1) - 4 * arctanInvFix 239 P (P / 4 + 1) : ℤ) : ℝ) - 2 ^ P * Real.pi| ≤ 5 * P + 40 := by
    rw [hpi]; push_cast
    rw [abs_le] at *
    constructor <;> linarith [h5.1, h5.2, h239.1, h239.2]
  unfold piFix
  set z := 16 * arctanInvFix 5 P (P / 4 + 1) - 4 * arctanInvFix 239 P (P / 4 + 1) with hzd
  rcases le_total 0 z with h | h
  · have : ((z.toNat : ℕ) : ℝ) = (z : ℝ) := by exact_mod_cast Int.toNat_of_nonneg h
    rw [this]; exact hz
  · have : z.toNat = 0 := Int.toNat_of_nonpos h
    rw [this]
    have hzr : (z : ℝ) ≤ 0 := by exact_mod_cast h
    have : 0 < (2 : ℝ) ^ P * Real.pi := by positivity
    rw [abs_le] at *
    push_cast
    constructor <;> linarith [hz.1, hz.2]

/-- The cosine series from its term j on, m terms deep, at y = x². -/
noncomputable def cosPoly (y : ℝ) : ℕ → ℕ → ℝ
  | 0, _ => 1
  | m + 1, j => 1 - y * cosPoly y m (j + 1) / ((2 * j + 1) * (2 * j + 2))

theorem cosPoly_sum (y : ℝ) (m j : ℕ) :
    cosPoly y m j = ∑ i ∈ range (m + 1), (-1) ^ i * (y ^ i * (2 * j).factorial / (2 * j + 2 * i).factorial) := by
  induction m generalizing j with
  | zero => simp [cosPoly, Nat.factorial_ne_zero]
  | succ m ih =>
    have h0 : ((2 * j).factorial : ℝ) ≠ 0 := by exact_mod_cast Nat.factorial_ne_zero _
    rw [sum_range_succ', cosPoly, ih]
    have hf : ((2 * (j + 1)).factorial : ℝ) = (2 * j + 2) * ((2 * j + 1) * (2 * j).factorial) := by
      rw [show 2 * (j + 1) = 2 * j + 1 + 1 by ring, Nat.factorial_succ, Nat.factorial_succ]; push_cast; ring
    have : ∀ i ∈ range (m + 1), (-1 : ℝ) ^ (i + 1) * (y ^ (i + 1) * (2 * j).factorial / (2 * j + 2 * (i + 1)).factorial)
        = -(y / ((2 * j + 1) * (2 * j + 2))) * ((-1) ^ i * (y ^ i * (2 * (j + 1)).factorial / (2 * (j + 1) + 2 * i).factorial)) := by
      intro i _
      rw [hf, show 2 * (j + 1) + 2 * i = 2 * j + 2 * (i + 1) by ring]
      have h1 : ((2 * j + 2 * (i + 1)).factorial : ℝ) ≠ 0 := by exact_mod_cast Nat.factorial_ne_zero _
      field_simp
      ring
    rw [sum_congr rfl this, ← mul_sum]
    simp only [pow_zero, mul_zero, add_zero, one_mul]
    rw [div_self h0]
    ring

/-- The error of the cosine series cut off after its term m, on `0 .. 8/5`. -/
theorem cosPoly_error {x : ℝ} (h0 : 0 ≤ x) (h1 : x ≤ 8 / 5) (m : ℕ) :
    |cosPoly (x ^ 2) m 0 - Real.cos x| ≤ x ^ (2 * m + 2) / (2 * m + 2).factorial := by
  set g : ℕ → ℝ := fun i => x ^ (2 * (i + 1)) / (2 * (i + 1)).factorial with hg
  have ha : Antitone g := by
    refine antitone_nat_of_succ_le fun i => ?_
    simp only [hg]
    rw [show 2 * (i + 1 + 1) = 2 * (i + 1) + 1 + 1 by ring, Nat.factorial_succ, Nat.factorial_succ,
      pow_succ, pow_succ, div_le_div_iff₀ (by positivity) (by positivity)]
    push_cast
    have hx2 : x * x ≤ (2 * (i + 1) + 1 + 1) * (2 * (i + 1) + 1) := by
      have : (0 : ℝ) ≤ i := by positivity
      nlinarith
    have hp : 0 ≤ x ^ (2 * (i + 1)) * ((2 * (i + 1)).factorial : ℝ) := by positivity
    linarith [mul_le_mul_of_nonneg_left hx2 hp]
  have ht : Filter.Tendsto (fun n => ∑ i ∈ range n, (-1) ^ i * g i) Filter.atTop (nhds (1 - Real.cos x)) := by
    have hs := (Real.hasSum_cos x).tendsto_sum_nat.comp (Filter.tendsto_add_atTop_nat 1)
    have := hs.const_sub 1
    refine this.congr fun n => ?_
    simp only [Function.comp]
    rw [sum_range_succ']
    simp only [mul_zero, pow_zero, Nat.factorial_zero, Nat.cast_one, div_one, mul_one, hg]
    rw [show ∀ S : ℝ, 1 - (S + 1) = -S by intro S; ring, ← sum_neg_distrib]
    refine sum_congr rfl fun i _ => ?_
    rw [pow_succ]; ring
  have he := alternating_error ha ht m
  have hpoly : cosPoly (x ^ 2) m 0 = 1 - ∑ i ∈ range m, (-1) ^ i * g i := by
    rw [cosPoly_sum, sum_range_succ']
    simp only [mul_zero, Nat.factorial_zero, Nat.cast_one, mul_one, zero_add, pow_zero, div_one, hg]
    rw [add_comm, sub_eq_add_neg, ← sum_neg_distrib]
    congr 1
    refine sum_congr rfl fun i _ => ?_
    rw [pow_succ, ← pow_mul]; ring
  rw [hpoly, abs_sub_comm]
  rw [show Real.cos x - (1 - ∑ i ∈ range m, (-1) ^ i * g i) = ∑ i ∈ range m, (-1) ^ i * g i - (1 - Real.cos x) by ring]
  simpa [hg, mul_add] using he

theorem nat_div_error (a : ℕ) {D : ℕ} (hD : 0 < D) : |((a / D : ℕ) : ℝ) - (a : ℝ) / D| ≤ 1 := by
  have hDr : (0 : ℝ) < D := by exact_mod_cast hD
  have h1 : ((a / D : ℕ) : ℝ) ≤ (a : ℝ) / D := Nat.cast_div_le
  have h2 : (a : ℝ) / D < (a / D : ℕ) + 1 := by
    rw [div_lt_iff₀ hDr]
    have h := Nat.lt_div_mul_add hD (a := a)
    have h' : (a : ℝ) < ((a / D : ℕ) : ℝ) * D + D := by exact_mod_cast h
    linarith
  rw [abs_le]; constructor <;> linarith

theorem cosHorner_le (P Y m j : ℕ) : cosHorner P Y m j ≤ 2 ^ P := by
  cases m <;> simp [cosHorner]

/-- One Horner step: how the error of the level below and of Y enter. -/
theorem horner_step {P Y h : ℕ} {y e p δ : ℝ} (D : ℕ) (hD : 0 < D) (hh : (h : ℝ) ≤ 2 ^ P)
    (hy0 : 0 ≤ y) (hy : y ≤ 5 / 2) (hY : |(Y : ℝ) - 2 ^ P * y| ≤ e) (hp : |(h : ℝ) - 2 ^ P * p| ≤ δ) :
    |((Y * h / (2 ^ P * D) : ℕ) : ℝ) - 2 ^ P * (y * p / D)| ≤ 1 + (e + 5 / 2 * δ) / D := by
  have hP : (0 : ℝ) < 2 ^ P := by positivity
  have hDr : (0 : ℝ) < D := by exact_mod_cast hD
  have h1 := nat_div_error (Y * h) (D := 2 ^ P * D) (by positivity)
  push_cast at h1
  have e0 : 0 ≤ e := (abs_nonneg _).trans hY
  have d0 : 0 ≤ δ := (abs_nonneg _).trans hp
  have hn : (0 : ℝ) ≤ h := by positivity
  have h2 : |(Y : ℝ) * h - 2 ^ P * y * (2 ^ P * p)| ≤ 2 ^ P * (e + 5 / 2 * δ) := by
    have : (Y : ℝ) * h - 2 ^ P * y * (2 ^ P * p) = ((Y : ℝ) - 2 ^ P * y) * h + 2 ^ P * y * (h - 2 ^ P * p) := by ring
    rw [this]
    refine (abs_add_le _ _).trans ?_
    rw [abs_mul, abs_mul, abs_of_nonneg hn, abs_of_nonneg (by positivity : 0 ≤ 2 ^ P * y)]
    have a1 : |(Y : ℝ) - 2 ^ P * y| * h ≤ e * 2 ^ P := mul_le_mul hY hh hn e0
    have a2 : 2 ^ P * y * |(h : ℝ) - 2 ^ P * p| ≤ 2 ^ P * (5 / 2) * δ :=
      mul_le_mul (mul_le_mul_of_nonneg_left hy hP.le) hp (abs_nonneg _) (by positivity)
    linarith
  have h3 : |(Y : ℝ) * h / (2 ^ P * D) - 2 ^ P * (y * p / D)| ≤ (e + 5 / 2 * δ) / D := by
    have : (Y : ℝ) * h / (2 ^ P * D) - 2 ^ P * (y * p / D) = ((Y : ℝ) * h - 2 ^ P * y * (2 ^ P * p)) / (2 ^ P * D) := by
      field_simp
    rw [this, abs_div, abs_of_pos (by positivity : (0 : ℝ) < 2 ^ P * D), div_le_div_iff₀ (by positivity) hDr]
    nlinarith
  have := abs_add_le (((Y * h / (2 ^ P * D) : ℕ) : ℝ) - (Y : ℝ) * h / (2 ^ P * D)) ((Y : ℝ) * h / (2 ^ P * D) - 2 ^ P * (y * p / D))
  rw [sub_add_sub_cancel] at this
  linarith

theorem cosHorner_error {P Y : ℕ} {y e : ℝ} (hy0 : 0 ≤ y) (hy : y ≤ 5 / 2)
    (hY : |(Y : ℝ) - 2 ^ P * y| ≤ e) (hY3 : Y ≤ 3 * 2 ^ P) (m j : ℕ) (hj : 1 ≤ j) :
    |(cosHorner P Y m j : ℝ) - 2 ^ P * cosPoly y m j| ≤ 2 + e / 8 := by
  have e0 : 0 ≤ e := (abs_nonneg _).trans hY
  induction m generalizing j with
  | zero => simp [cosHorner, cosPoly]; linarith
  | succ m ih =>
    have hle := cosHorner_le P Y m (j + 1)
    have hler : ((cosHorner P Y m (j + 1) : ℕ) : ℝ) ≤ 2 ^ P := by exact_mod_cast hle
    have hD : 12 ≤ (2 * j + 1) * (2 * j + 2) := by nlinarith
    have hs := horner_step ((2 * j + 1) * (2 * j + 2)) (by omega) hler hy0 hy hY (ih (j + 1) (by omega))
    have hsub : Y * cosHorner P Y m (j + 1) / (2 ^ P * ((2 * j + 1) * (2 * j + 2))) ≤ 2 ^ P := by
      apply Nat.div_le_of_le_mul
      calc Y * cosHorner P Y m (j + 1) ≤ (3 * 2 ^ P) * 2 ^ P := Nat.mul_le_mul hY3 hle
        _ ≤ (2 ^ P * ((2 * j + 1) * (2 * j + 2))) * 2 ^ P := by
          apply Nat.mul_le_mul_right; rw [mul_comm]; exact Nat.mul_le_mul_left _ (by omega)
    rw [cosHorner, Nat.cast_sub hsub, cosPoly]
    have hDr : (12 : ℝ) ≤ (((2 * j + 1) * (2 * j + 2) : ℕ) : ℝ) := by exact_mod_cast hD
    have hb : (e + 5 / 2 * (2 + e / 8)) / (((2 * j + 1) * (2 * j + 2) : ℕ) : ℝ) ≤ (e + 5 / 2 * (2 + e / 8)) / 12 := by
      apply div_le_div_of_nonneg_left (by positivity) (by norm_num) hDr
    generalize Y * cosHorner P Y m (j + 1) / (2 ^ P * ((2 * j + 1) * (2 * j + 2))) = Q at hs hsub ⊢
    push_cast at hs hb ⊢
    rw [abs_le] at hs ⊢
    constructor <;> linarith [hs.1, hs.2]

theorem factorial_beats (n : ℕ) (hn : 6 ≤ n) : 2 ^ (2 * n - 9) * 8 ^ n ≤ n.factorial * 5 ^ n := by
  induction n, hn using Nat.le_induction with
  | base => decide
  | succ n hn ih =>
    rw [show 2 * (n + 1) - 9 = 2 * n - 9 + 2 by omega, pow_add, pow_succ, pow_succ 5, Nat.factorial_succ]
    rw [pow_succ 8]
    generalize 2 ^ (2 * n - 9) = A at *
    have h1 : A * (2 ^ 1 * 2) * (8 ^ n * 8) = 32 * (A * 8 ^ n) := by ring
    have h2 : (n + 1) * n.factorial * (5 ^ n * 5) = (5 * (n + 1)) * (n.factorial * 5 ^ n) := by ring
    rw [h1, h2]
    exact Nat.mul_le_mul (by omega) ih

theorem pow_beats (P : ℕ) (h : 64 ≤ P) : 1000 * (P + 100) ≤ 2 ^ P := by
  induction P, h using Nat.le_induction with
  | base => decide
  | succ n hn ih => rw [pow_succ]; omega

/-- `cosFix` is within `cosError` of `2^P·cos(π·a/b)`. -/
theorem cosFix_error {P a b : ℕ} (hP : 64 ≤ P) (hb : 0 < b) (hab : 2 * a ≤ b) :
    |(cosFix P a b : ℝ) - 2 ^ P * Real.cos (Real.pi * a / b)| ≤ 10 * P + 100 := by
  have hpow : (1000 * (P + 100) : ℝ) ≤ 2 ^ P := by exact_mod_cast pow_beats P hP
  have hTP : (0 : ℝ) < 2 ^ P := by positivity
  have hPr : (64 : ℝ) ≤ P := by exact_mod_cast hP
  have hbr : (0 : ℝ) < b := by exact_mod_cast hb
  have har : (0 : ℝ) ≤ a := by positivity
  have habr : (2 : ℝ) * a ≤ b := by exact_mod_cast hab
  have hpi1 := Real.pi_lt_d2
  have hpi0 := Real.pi_pos
  set x : ℝ := Real.pi * a / b with hx
  have hx0 : 0 ≤ x := by positivity
  have hxh : x ≤ Real.pi / 2 := by
    rw [hx, div_le_div_iff₀ hbr (by norm_num)]; nlinarith
  have hx1 : x ≤ 1.575 := by linarith
  -- the angle
  have hX : |(angleFix P a b : ℝ) - 2 ^ P * x| ≤ 5 / 2 * (P : ℝ) + 21 := by
    have h1 := nat_div_error (piFix P * a) hb
    push_cast at h1
    have h2 : |(piFix P : ℝ) * a / b - 2 ^ P * x| ≤ (5 * (P : ℝ) + 40) * (1 / 2) := by
      have : (piFix P : ℝ) * a / b - 2 ^ P * x = ((piFix P : ℝ) - 2 ^ P * Real.pi) * (a / b) := by
        rw [hx]; ring
      rw [this, abs_mul]
      apply mul_le_mul (piFix_error P) _ (abs_nonneg _) (by positivity)
      rw [abs_of_nonneg (by positivity), div_le_div_iff₀ hbr (by norm_num)]; linarith
    have h3 := abs_add_le (((piFix P * a / b : ℕ) : ℝ) - (piFix P : ℝ) * a / b) ((piFix P : ℝ) * a / b - 2 ^ P * x)
    rw [sub_add_sub_cancel] at h3
    unfold angleFix
    linarith
  set X := angleFix P a b with hXd
  -- its square
  have hY : |((X * X / 2 ^ P : ℕ) : ℝ) - 2 ^ P * x ^ 2| ≤ 8 * (P : ℝ) + 69 := by
    have h1 := nat_div_error (X * X) (D := 2 ^ P) (by positivity)
    push_cast at h1
    have h2 : |(X : ℝ) * X / 2 ^ P - 2 ^ P * x ^ 2| ≤ (5 / 2 * (P : ℝ) + 21) * 3.2 := by
      have : (X : ℝ) * X / 2 ^ P - 2 ^ P * x ^ 2 = ((X : ℝ) - 2 ^ P * x) * (((X : ℝ) + 2 ^ P * x) / 2 ^ P) := by
        field_simp; ring
      rw [this, abs_mul]
      apply mul_le_mul hX _ (abs_nonneg _) (by positivity)
      rw [abs_of_nonneg (by positivity), div_le_iff₀ hTP]
      rw [abs_le] at hX
      nlinarith [hX.1, hX.2]
    have h3 := abs_add_le (((X * X / 2 ^ P : ℕ) : ℝ) - (X : ℝ) * X / 2 ^ P) ((X : ℝ) * X / 2 ^ P - 2 ^ P * x ^ 2)
    rw [sub_add_sub_cancel] at h3
    linarith
  set Y := X * X / 2 ^ P with hYd
  have hx2 : x ^ 2 ≤ 2.4807 := by nlinarith
  have hY3 : Y ≤ 3 * 2 ^ P := by
    have : (Y : ℝ) ≤ 3 * 2 ^ P := by
      rw [abs_le] at hY
      nlinarith [hY.2]
    exact_mod_cast this
  -- the two upper levels of Horner's scheme
  have hle := cosHorner_le P Y (P / 4 + 1) 1
  have hler : ((cosHorner P Y (P / 4 + 1) 1 : ℕ) : ℝ) ≤ 2 ^ P := by exact_mod_cast hle
  have h1 := cosHorner_error (P := P) (Y := Y) (by positivity : (0 : ℝ) ≤ x ^ 2) (by linarith) hY hY3 (P / 4 + 1) 1 (le_refl 1)
  have hs := horner_step 2 (by norm_num) hler (by positivity) (by linarith) hY h1
  have htr := cosPoly_error hx0 (by linarith) (P / 4 + 2)
  have hsmall : 2 ^ P * (x ^ (2 * (P / 4 + 2) + 2) / (2 * (P / 4 + 2) + 2).factorial) ≤ 1 := by
    set n := 2 * (P / 4 + 2) + 2 with hn
    have hf := factorial_beats n (by omega)
    have h5 : 2 ^ P * 8 ^ n ≤ n.factorial * 5 ^ n :=
      (Nat.mul_le_mul_right _ (Nat.pow_le_pow_right (by norm_num) (by omega))).trans hf
    have h5r : (2 : ℝ) ^ P * 8 ^ n ≤ n.factorial * 5 ^ n := by exact_mod_cast h5
    have hxn : x ^ n ≤ (8 / 5) ^ n := pow_le_pow_left₀ hx0 (by linarith) n
    have hfp : (0 : ℝ) < n.factorial := by exact_mod_cast Nat.factorial_pos n
    rw [← mul_div_assoc, div_le_one hfp]
    calc 2 ^ P * x ^ n ≤ 2 ^ P * (8 / 5) ^ n := mul_le_mul_of_nonneg_left hxn hTP.le
      _ = 2 ^ P * 8 ^ n / 5 ^ n := by rw [div_pow]; ring
      _ ≤ n.factorial := by rw [div_le_iff₀ (by positivity)]; exact h5r
  have hcos : 0 ≤ Real.cos x := Real.cos_nonneg_of_mem_Icc ⟨by linarith, by linarith⟩
  have hc : |2 ^ P * cosPoly (x ^ 2) (P / 4 + 2) 0 - 2 ^ P * Real.cos x| ≤ 1 := by
    rw [← mul_sub, abs_mul, abs_of_pos hTP]
    exact (mul_le_mul_of_nonneg_left htr hTP.le).trans hsmall
  have hpoly : cosPoly (x ^ 2) (P / 4 + 2) 0 = 1 - x ^ 2 * cosPoly (x ^ 2) (P / 4 + 1) 1 / 2 := by
    rw [show P / 4 + 2 = P / 4 + 1 + 1 by ring, cosPoly]; norm_num
  unfold cosFix
  rw [← hXd, ← hYd, show P / 4 + 2 = P / 4 + 1 + 1 by ring, cosHorner]
  simp only [mul_zero, zero_add, one_mul]
  generalize cosHorner P Y (P / 4 + 1) 1 = h at hle hler h1 hs ⊢
  generalize cosPoly (x ^ 2) (P / 4 + 1) 1 = p at h1 hs hpoly
  generalize Y * h / (2 ^ P * 2) = Q at hs ⊢
  rw [hpoly] at hc
  push_cast at hs
  have hv : |(2 ^ P - (Q : ℝ)) - 2 ^ P * Real.cos x| ≤ 10 * P + 100 := by
    rw [abs_le] at hs hc ⊢
    constructor <;> linarith [hs.1, hs.2, hc.1, hc.2]
  rcases le_total Q (2 ^ P) with hq | hq
  · rw [Nat.cast_sub hq]; push_cast; exact hv
  · rw [Nat.sub_eq_zero_of_le hq]
    have hqr : (2 : ℝ) ^ P ≤ Q := by exact_mod_cast hq
    have : 0 ≤ 2 ^ P * Real.cos x := by positivity
    rw [abs_le] at hv ⊢
    push_cast
    constructor <;> linarith [hv.1, hv.2]

/-- Folding an angle into half a turn keeps its cosine. -/
theorem cos_foldTurn {N : ℕ} (hN : 0 < N) (t : ℕ) :
    Real.cos (2 * Real.pi * foldTurn N t / N) = Real.cos (2 * Real.pi * t / N) := by
  have hNr : (N : ℝ) ≠ 0 := by exact_mod_cast hN.ne'
  have hmod : Real.cos (2 * Real.pi * ((t % N : ℕ) : ℝ) / N) = Real.cos (2 * Real.pi * t / N) := by
    have h : (t : ℝ) = N * ((t / N : ℕ) : ℝ) + ((t % N : ℕ) : ℝ) := by exact_mod_cast (Nat.div_add_mod t N).symm
    rw [h, show 2 * Real.pi * (N * ((t / N : ℕ) : ℝ) + ((t % N : ℕ) : ℝ)) / N
      = 2 * Real.pi * ((t % N : ℕ) : ℝ) / N + ((t / N : ℕ) : ℝ) * (2 * Real.pi) by field_simp; ring,
      Real.cos_add_nat_mul_two_pi]
  unfold foldTurn
  rcases le_total (t % N) (N - t % N) with h | h
  · rw [min_eq_left h, hmod]
  · rw [min_eq_right h, Nat.cast_sub (Nat.mod_lt t hN).le, ← hmod,
      show 2 * Real.pi * ((N : ℝ) - ((t % N : ℕ) : ℝ)) / N = 2 * Real.pi - 2 * Real.pi * ((t % N : ℕ) : ℝ) / N by field_simp,
      Real.cos_two_pi_sub]

theorem foldTurn_le {N : ℕ} (hN : 0 < N) (t : ℕ) : 2 * foldTurn N t ≤ N := by
  unfold foldTurn; have := Nat.mod_lt t hN; omega

/-- `cosTurnFix` is within `cosError` of `2^P·cos(2π·t/N)`. -/
theorem cosTurnFix_error {P N : ℕ} (hP : 64 ≤ P) (hN : 0 < N) (t : ℕ) :
    |(cosTurnFix P N t : ℝ) - 2 ^ P * Real.cos (2 * Real.pi * t / N)| ≤ cosError P := by
  have hNr : (N : ℝ) ≠ 0 := by exact_mod_cast hN.ne'
  have hf := foldTurn_le hN t
  rw [← cos_foldTurn hN]
  unfold cosTurnFix cosError
  generalize foldTurn N t = u at hf ⊢
  split
  · rename_i h
    have := cosFix_error (a := 2 * u) hP hN (by omega)
    push_cast at this ⊢
    rwa [show 2 * Real.pi * (u : ℝ) / N = Real.pi * (2 * u) / N by ring]
  · rename_i h
    have := cosFix_error (a := N - 2 * u) hP hN (by omega)
    rw [Nat.cast_sub hf] at this
    push_cast at this ⊢
    rw [show Real.pi * ((N : ℝ) - 2 * u) / N = Real.pi - 2 * Real.pi * u / N by field_simp, Real.cos_pi_sub] at this
    rw [abs_le] at this ⊢
    constructor <;> linarith [this.1, this.2]

end Sys2Proof.Machine
end

