-- ==== Sys2Proof/Laws/NumericSum.lean ====
section
/-! SUPPORT. Sums of cosines: the fixed-point sum is near the real one, a sign it settles is right, joining terms keeps the
sum, and the exact test for 0 is sound. -/

namespace Sys2Proof.Machine

theorem cosSumReal_nil (N : ℕ) : cosSumReal N [] = 0 := by simp [cosSumReal]

theorem cosSumReal_cons (N t : ℕ) (c : ℤ) (l : CosSum) :
    cosSumReal N ((t, c) :: l) = c * Real.cos (2 * Real.pi * t / N) + cosSumReal N l := by simp [cosSumReal]

theorem cosSumReal_append (N : ℕ) (l m : CosSum) :
    cosSumReal N (l ++ m) = cosSumReal N l + cosSumReal N m := by simp [cosSumReal]

/-- `cosSumFix` is within `cosError` times the weight of `2^P` times the sum. -/
theorem cosSumFix_error {P N : ℕ} (hP : 64 ≤ P) (hN : 0 < N) (l : CosSum) :
    |(cosSumFix P N l : ℝ) - 2 ^ P * cosSumReal N l| ≤ (cosError P * weight l : ℕ) := by
  induction l with
  | nil => simp [cosSumFix, cosSumReal, weight]
  | cons x r ih =>
    obtain ⟨t, c⟩ := x
    have h := cosTurnFix_error hP hN t
    rw [cosSumReal_cons, cosSumFix, weight]
    have hc : |(c : ℝ)| = (c.natAbs : ℝ) := by rw [Nat.cast_natAbs, Int.cast_abs]
    have h2 : |(c : ℝ) * (cosTurnFix P N t : ℝ) - 2 ^ P * (c * Real.cos (2 * Real.pi * t / N))| ≤ cosError P * c.natAbs := by
      rw [show (c : ℝ) * (cosTurnFix P N t : ℝ) - 2 ^ P * (c * Real.cos (2 * Real.pi * t / N))
        = c * ((cosTurnFix P N t : ℝ) - 2 ^ P * Real.cos (2 * Real.pi * t / N)) by ring, abs_mul, hc, mul_comm]
      exact mul_le_mul_of_nonneg_right h (by positivity)
    push_cast at ih ⊢
    rw [abs_le] at *
    constructor <;> linarith [h2.1, h2.2, ih.1, ih.2]

/-- A sign that `approxSign` gives is the sign of the sum. -/
theorem approxSign_sound {P N : ℕ} (hP : 64 ≤ P) (hN : 0 < N) {l : CosSum} {s : ℤ} (h : approxSign P N l = some s) :
    (s = 1 ∧ 0 < cosSumReal N l) ∨ (s = -1 ∧ cosSumReal N l < 0) := by
  have he := cosSumFix_error hP hN l
  have hTP : (0 : ℝ) < 2 ^ P := by positivity
  rw [abs_le] at he
  unfold approxSign at h
  split at h
  · rename_i hlt
    have hr : ((cosError P * weight l : ℕ) : ℝ) < cosSumFix P N l := by exact_mod_cast hlt
    refine .inl ⟨by simpa using h.symm, ?_⟩
    by_contra hn
    have : 2 ^ P * cosSumReal N l ≤ 0 := mul_nonpos_of_nonneg_of_nonpos hTP.le (not_lt.mp hn)
    linarith [he.2]
  · split at h
    · rename_i hlt
      have hr : (cosSumFix P N l : ℝ) < -((cosError P * weight l : ℕ) : ℝ) := by exact_mod_cast hlt
      refine .inr ⟨by simpa using h.symm, ?_⟩
      by_contra hn
      have : 0 ≤ 2 ^ P * cosSumReal N l := mul_nonneg hTP.le (not_lt.mp hn)
      linarith [he.1]
    · cases h

/-- A precision at which the sum exceeds its error twice settles the sign. -/
theorem approxSign_complete {P N : ℕ} (hP : 64 ≤ P) (hN : 0 < N) {l : CosSum}
    (h : 2 * ((cosError P * weight l : ℕ) : ℝ) < 2 ^ P * |cosSumReal N l|) : approxSign P N l ≠ none := by
  have he := cosSumFix_error hP hN l
  rw [abs_le] at he
  unfold approxSign
  split
  · simp
  · split
    · simp
    · rename_i h1 h2
      exfalso
      have h1r : (cosSumFix P N l : ℝ) ≤ ((cosError P * weight l : ℕ) : ℝ) := by exact_mod_cast not_lt.mp h1
      have h2r : -((cosError P * weight l : ℕ) : ℝ) ≤ (cosSumFix P N l : ℝ) := by exact_mod_cast not_lt.mp h2
      rcases abs_cases (cosSumReal N l) with ⟨ha, _⟩ | ⟨ha, _⟩ <;> rw [ha] at h <;> linarith [he.1, he.2]

/-- Joining and dropping terms keeps every sum `Σ c·f(t)`. -/
theorem addTerm_sum {R : Type*} [CommRing R] (f : ℕ → R) (t : ℕ) (c : ℤ) (l : CosSum) :
    ((addTerm t c l).map (fun x => (x.2 : R) * f x.1)).sum = c * f t + (l.map (fun x => (x.2 : R) * f x.1)).sum := by
  induction l with
  | nil => simp [addTerm]
  | cons x r ih =>
    obtain ⟨u, d⟩ := x
    rw [addTerm]
    split
    · rename_i h; subst h; simp; ring
    · simp [ih]; ring

theorem joinTerms_sum {R : Type*} [CommRing R] (f : ℕ → R) (l : CosSum) :
    ((joinTerms l).map (fun x => (x.2 : R) * f x.1)).sum = (l.map (fun x => (x.2 : R) * f x.1)).sum := by
  induction l with
  | nil => simp [joinTerms]
  | cons x r ih => obtain ⟨t, c⟩ := x; simp [joinTerms, addTerm_sum, ih]

theorem dropZero_sum {R : Type*} [CommRing R] (f : ℕ → R) (l : CosSum) :
    ((l.filter (fun x => x.2 != 0)).map (fun x => (x.2 : R) * f x.1)).sum = (l.map (fun x => (x.2 : R) * f x.1)).sum := by
  induction l with
  | nil => simp
  | cons x r ih =>
    rw [List.filter_cons]
    split
    · simp [ih]
    · rename_i h
      have : x.2 = 0 := by simpa using h
      simp [ih, this]

theorem collect_sum {R : Type*} [CommRing R] (f : ℕ → R) (l : CosSum) :
    ((collect l).map (fun x => (x.2 : R) * f x.1)).sum = (l.map (fun x => (x.2 : R) * f x.1)).sum := by
  rw [collect, dropZero_sum, joinTerms_sum]

/-- Folding and joining keep the sum of cosines. -/
theorem cosSumReal_collect_fold {N : ℕ} (hN : 0 < N) (l : CosSum) :
    cosSumReal N (collect (l.map (fun x => (foldTurn N x.1, x.2)))) = cosSumReal N l := by
  unfold cosSumReal
  rw [collect_sum (fun t => Real.cos (2 * Real.pi * t / N)), List.map_map]
  congr 1
  refine List.map_congr_left fun x _ => ?_
  simp only [Function.comp, cos_foldTurn hN]

/-- The value of a polynomial given by its terms at ζ. -/
def termsAt {R : Type*} [CommRing R] (ζ : R) (l : CosSum) : R := (l.map (fun x => (x.2 : R) * ζ ^ x.1)).sum

theorem termsAt_flatMap_mul {N : ℕ} (ζ : ℂ) (hζ : ζ ^ N = 1) (k : ℕ) (l : CosSum) :
    termsAt ζ (l.flatMap (fun x => [((x.1 + k) % N, x.2), (x.1, -x.2)])) = (ζ ^ k - 1) * termsAt ζ l := by
  unfold termsAt
  induction l with
  | nil => simp
  | cons x r ih =>
    rw [List.flatMap_cons, List.map_append, List.sum_append, ih]
    have : ζ ^ ((x.1 + k) % N) = ζ ^ x.1 * ζ ^ k := by
      rw [← pow_add]
      conv_rhs => rw [← Nat.div_add_mod (x.1 + k) N, pow_add, pow_mul, hζ, one_pow, one_mul]
    simp [this]; ring

theorem mulRootMinusOne_termsAt {N : ℕ} (ζ : ℂ) (hζ : ζ ^ N = 1) (q : ℕ) (l : CosSum) :
    termsAt ζ (mulRootMinusOne N q l) = (ζ ^ (N / q) - 1) * termsAt ζ l := by
  rw [← termsAt_flatMap_mul ζ hζ]
  unfold mulRootMinusOne termsAt
  rw [collect_sum (fun t => ζ ^ t)]

/-- Every number trial division names divides n and is greater than 1. -/
theorem trialFactors_dvd (f : ℕ) : ∀ d n : ℕ, 2 ≤ d → ∀ q ∈ trialFactors f d n, 1 < q ∧ q ∣ n := by
  induction f with
  | zero =>
    intro d n _ q hq
    rw [trialFactors] at hq
    split at hq <;> simp_all
  | succ f ih =>
    intro d n hd q hq
    rw [trialFactors] at hq
    split at hq
    · split at hq <;> simp_all
    · split at hq
      · rename_i hdv
        have hdn : d ∣ n := Nat.dvd_of_mod_eq_zero hdv
        have hq' : q = d ∨ q ∈ trialFactors f d (n / d) := by
          split at hq
          · exact .inr hq
          · simpa using hq
        rcases hq' with rfl | hq'
        · exact ⟨by omega, hdn⟩
        · obtain ⟨h1, h2⟩ := ih d (n / d) hd q hq'
          exact ⟨h1, h2.trans (Nat.div_dvd_of_dvd hdn)⟩
      · exact ih (d + 1) n (by omega) q hq

/-- Twice a sum of cosines, as the terms of a polynomial in `ζ = exp(2πi/N)`. -/
def symTerms (N : ℕ) (l : CosSum) : CosSum := l.flatMap (fun x => [(x.1 % N, x.2), ((N - x.1 % N) % N, x.2)])

theorem symTerms_termsAt {N : ℕ} (hN : 0 < N) (l : CosSum) :
    termsAt (Complex.exp (2 * Real.pi * Complex.I / N)) (symTerms N l) = ((2 * cosSumReal N l : ℝ) : ℂ) := by
  have hNc : (N : ℂ) ≠ 0 := by exact_mod_cast hN.ne'
  set ζ := Complex.exp (2 * Real.pi * Complex.I / N) with hζd
  have hζ : ζ ^ N = 1 := by
    rw [hζd, ← Complex.exp_nat_mul, mul_div_cancel₀ _ hNc, Complex.exp_two_pi_mul_I]
  have hmod : ∀ t, ζ ^ (t % N) = ζ ^ t := by
    intro t
    conv_rhs => rw [← Nat.div_add_mod t N, pow_add, pow_mul, hζ, one_pow, one_mul]
  unfold symTerms termsAt
  induction l with
  | nil => simp [cosSumReal]
  | cons x r ih =>
    obtain ⟨t, c⟩ := x
    rw [List.flatMap_cons, List.map_append, List.sum_append, ih, cosSumReal_cons]
    have hinv : ζ ^ (N - t % N) = Complex.exp (-(2 * Real.pi * t / N : ℝ) * Complex.I) := by
      have h1 : ζ ^ (N - t % N) * ζ ^ t = 1 := by
        rw [← hmod t, ← pow_add, Nat.sub_add_cancel (Nat.mod_lt t hN).le, hζ]
      have h2 : ζ ^ t = Complex.exp ((2 * Real.pi * t / N : ℝ) * Complex.I) := by
        rw [hζd, ← Complex.exp_nat_mul]; congr 1; push_cast; ring
      rw [h2] at h1
      rw [neg_mul, Complex.exp_neg]
      exact eq_inv_of_mul_eq_one_left h1
    have h2 : ζ ^ t = Complex.exp ((2 * Real.pi * t / N : ℝ) * Complex.I) := by
      rw [hζd, ← Complex.exp_nat_mul]; congr 1; push_cast; ring
    simp only [List.map_cons, List.map_nil, List.sum_cons, List.sum_nil, hmod, hinv, h2]
    have hcos : Complex.exp ((2 * Real.pi * t / N : ℝ) * Complex.I) + Complex.exp (-(2 * Real.pi * t / N : ℝ) * Complex.I)
        = 2 * ((Real.cos (2 * Real.pi * t / N) : ℝ) : ℂ) := by
      rw [Complex.ofReal_cos, Complex.cos]; ring
    push_cast at hcos ⊢
    linear_combination (c : ℂ) * hcos

/-- Where `vanishes` says so, the sum is 0. -/
theorem vanishes_sound {N : ℕ} (hN : 0 < N) {l : CosSum} (h : vanishes N l = true) : cosSumReal N l = 0 := by
  have hNc : (N : ℂ) ≠ 0 := by exact_mod_cast hN.ne'
  set ζ := Complex.exp (2 * Real.pi * Complex.I / N) with hζd
  have hprim : IsPrimitiveRoot ζ N := Complex.isPrimitiveRoot_exp N hN.ne'
  have hall : ∀ (qs : List ℕ) (m : CosSum), (∀ q ∈ qs, 1 < q ∧ q ∣ N) →
      termsAt ζ (qs.foldr (mulRootMinusOne N) m) = 0 → termsAt ζ m = 0 := by
    intro qs m hq h0
    induction qs with
    | nil => exact h0
    | cons q qs ih =>
      rw [List.foldr_cons, mulRootMinusOne_termsAt ζ hprim.pow_eq_one] at h0
      obtain ⟨h1, h2⟩ := hq q (by simp)
      have hne : ζ ^ (N / q) - 1 ≠ 0 := by
        intro hz
        have := hprim.pow_ne_one_of_pos_of_lt (l := N / q) (Nat.div_pos (Nat.le_of_dvd hN h2) (by omega)).ne'
          (Nat.div_lt_self hN h1)
        exact this (sub_eq_zero.mp hz)
      exact ih (fun q hq' => hq q (by simp [hq'])) ((mul_eq_zero.mp h0).resolve_left hne)
  unfold vanishes at h
  rw [List.isEmpty_iff] at h
  have h0 := hall (trialFactors N 2 N) (collect (symTerms N l)) (trialFactors_dvd N 2 N (le_refl 2))
    (by unfold symTerms; rw [h]; simp [termsAt])
  have h1 : termsAt ζ (symTerms N l) = 0 := by
    rw [← h0]; unfold termsAt; rw [collect_sum (fun t => ζ ^ t)]
  rw [symTerms_termsAt hN] at h1
  have : 2 * cosSumReal N l = 0 := by exact_mod_cast h1
  linarith

end Sys2Proof.Machine
end

