-- ==== Sys2Proof/Laws/NumericSign.lean ====
section
/-! SUPPORT. A sum of cosines that is not 0 is bounded from below, so doubling the precision settles its sign, and
`cosSign` is the sign of the real number. -/

namespace Sys2Proof.Machine

theorem map_termsAt {R S : Type*} [CommRing R] [CommRing S] (f : R →+* S) (ζ : R) (l : CosSum) :
    f (termsAt ζ l) = termsAt (f ζ) l := by
  unfold termsAt
  rw [map_list_sum, List.map_map]
  congr 1
  refine List.map_congr_left fun x _ => ?_
  simp

theorem termsAt_isIntegral {R : Type*} [CommRing R] {ζ : R} (hζ : IsIntegral ℤ ζ) (l : CosSum) :
    IsIntegral ℤ (termsAt ζ l) := by
  unfold termsAt
  induction l with
  | nil => simpa using isIntegral_zero
  | cons x r ih =>
    simp only [List.map_cons, List.sum_cons]
    exact ((isIntegral_algebraMap (x := x.2) (A := R)).mul (hζ.pow _)).add ih

theorem symTerms_norm_le {z : ℂ} (hz : ‖z‖ = 1) (N : ℕ) (l : CosSum) :
    ‖termsAt z (symTerms N l)‖ ≤ 2 * weight l := by
  unfold termsAt symTerms
  induction l with
  | nil => simp [weight]
  | cons x r ih =>
    obtain ⟨t, c⟩ := x
    rw [List.flatMap_cons, List.map_append, List.sum_append, weight]
    refine (norm_add_le _ _).trans ?_
    have h : ‖(List.map (fun x : ℕ × ℤ => (x.2 : ℂ) * z ^ x.1) [(t % N, c), ((N - t % N) % N, c)]).sum‖ ≤ 2 * c.natAbs := by
      simp only [List.map_cons, List.map_nil, List.sum_cons, List.sum_nil, add_zero]
      refine (norm_add_le _ _).trans ?_
      simp only [norm_mul, norm_pow, hz, one_pow, mul_one, Complex.norm_intCast]
      rw [Nat.cast_natAbs, Int.cast_abs]; linarith
    push_cast
    linarith

/-- A sum of cosines that is not 0 is not small: its norm is an integer that is not 0. -/
theorem cosSum_lower {N : ℕ} (hN : 0 < N) {l : CosSum} (h : cosSumReal N l ≠ 0) :
    1 ≤ |2 * cosSumReal N l| * (2 * weight l) ^ N := by
  set ζ := Complex.exp (2 * Real.pi * Complex.I / N) with hζd
  have hprim : IsPrimitiveRoot ζ N := Complex.isPrimitiveRoot_exp N hN.ne'
  have hint : IsIntegral ℚ ζ := (hprim.isIntegral hN).tower_top
  set K := IntermediateField.adjoin ℚ {ζ} with hK
  have : FiniteDimensional ℚ K := IntermediateField.adjoin.finiteDimensional hint
  let z : K := ⟨ζ, IntermediateField.mem_adjoin_simple_self ℚ ζ⟩
  have hz : z ^ N = 1 := by
    apply Subtype.ext
    simpa using hprim.pow_eq_one
  have hzint : IsIntegral ℤ z := IsIntegral.of_pow hN (by rw [hz]; exact isIntegral_one)
  set x : K := termsAt z (symTerms N l) with hx
  have hval : (K.val : K →+* ℂ) x = ((2 * cosSumReal N l : ℝ) : ℂ) := by
    rw [← symTerms_termsAt hN, hx]
    exact map_termsAt (K.val : K →+* ℂ) z _
  obtain ⟨v, hv⟩ : ∃ v : K →ₐ[ℚ] ℂ, v x = ((2 * cosSumReal N l : ℝ) : ℂ) :=
    ⟨(K.val : K →+* ℂ).toRatAlgHom, hval⟩
  clear hval
  have hx0 : x ≠ 0 := by
    intro h0
    rw [h0, map_zero] at hv
    have : (2 * cosSumReal N l : ℝ) = 0 := by exact_mod_cast hv.symm
    exact h (by linarith)
  have hnorm0 : Algebra.norm ℚ x ≠ 0 := Algebra.norm_ne_zero_iff.mpr hx0
  obtain ⟨k, hk⟩ := IsIntegrallyClosed.isIntegral_iff.mp (Algebra.isIntegral_norm ℚ (termsAt_isIntegral hzint (symTerms N l)))
  have hk0 : k ≠ 0 := by
    rintro rfl
    exact hnorm0 (by rw [hx, ← hk]; simp)
  have hprod := Algebra.norm_eq_prod_embeddings ℚ ℂ x
  have hone : 1 ≤ ∏ σ : K →ₐ[ℚ] ℂ, ‖σ x‖ := by
    rw [← norm_prod, ← hprod, hx, ← hk]
    have : (algebraMap ℚ ℂ) ((algebraMap ℤ ℚ) k) = (k : ℂ) := by simp
    rw [this, Complex.norm_intCast]
    exact_mod_cast Int.one_le_abs hk0
  have hbound : ∀ σ : K →ₐ[ℚ] ℂ, ‖σ x‖ ≤ 2 * weight l := by
    intro σ
    have e : σ x = termsAt (σ z) (symTerms N l) := map_termsAt (σ : K →+* ℂ) z _
    rw [e]
    apply symTerms_norm_le
    have : (σ z) ^ N = 1 := by rw [← map_pow, hz, map_one]
    exact Complex.norm_eq_one_of_pow_eq_one this hN.ne'
  have hval' : ‖v x‖ = |2 * cosSumReal N l| := by rw [hv, Complex.norm_real, Real.norm_eq_abs]
  have hW : (1 : ℝ) ≤ 2 * weight l := by
    have : weight l ≠ 0 := by
      intro h0
      have := hbound v
      rw [h0, hval', Nat.cast_zero, mul_zero] at this
      have h1 := le_antisymm this (abs_nonneg _)
      have := abs_eq_zero.mp h1
      exact h (by linarith)
    have : 1 ≤ weight l := Nat.one_le_iff_ne_zero.mpr this
    have : (1 : ℝ) ≤ weight l := by exact_mod_cast this
    linarith
  have hcard : Fintype.card (K →ₐ[ℚ] ℂ) ≤ N := by
    rw [AlgHom.card, IntermediateField.adjoin.finrank hint]
    have hd : minpoly ℚ ζ ∣ Polynomial.X ^ N - 1 := minpoly.dvd ℚ ζ (by simp [hprim.pow_eq_one])
    have := Polynomial.natDegree_le_of_dvd hd (Polynomial.X_pow_sub_C_ne_zero hN (1 : ℚ))
    rwa [← Polynomial.C_1, Polynomial.natDegree_X_pow_sub_C] at this
  classical
  rw [← Finset.mul_prod_erase Finset.univ (fun σ : K →ₐ[ℚ] ℂ => ‖σ x‖) (Finset.mem_univ v)] at hone
  rw [hval'] at hone
  refine hone.trans (mul_le_mul_of_nonneg_left ?_ (abs_nonneg _))
  calc ∏ σ ∈ Finset.univ.erase v, ‖σ x‖ ≤ ∏ _σ ∈ Finset.univ.erase v, (2 * weight l : ℝ) :=
        Finset.prod_le_prod (fun _ _ => norm_nonneg _) (fun σ _ => hbound σ)
    _ = (2 * weight l : ℝ) ^ (Finset.univ.erase v).card := by rw [Finset.prod_const]
    _ ≤ (2 * weight l : ℝ) ^ N := by
      apply pow_le_pow_right₀ hW
      refine (Finset.card_erase_le).trans ?_
      rwa [Finset.card_univ]

/-- Where some precision of the doublings settles the sign, `refineSign` gives it. -/
theorem refineSign_spec {N : ℕ} (hN : 0 < N) {l : CosSum} (f P : ℕ) (hP : 64 ≤ P)
    (h : ∃ j < f, approxSign (2 ^ j * P) N l ≠ none) :
    (refineSign N l f P = 1 ∧ 0 < cosSumReal N l) ∨ (refineSign N l f P = -1 ∧ cosSumReal N l < 0) := by
  induction f generalizing P with
  | zero => obtain ⟨j, hj, _⟩ := h; omega
  | succ f ih =>
    rw [refineSign]
    cases hs : approxSign P N l with
    | some s => exact approxSign_sound hP hN hs
    | none =>
      obtain ⟨j, hj, hne⟩ := h
      cases j with
      | zero => simp [hs] at hne
      | succ j =>
        refine ih (2 * P) (by omega) ⟨j, by omega, ?_⟩
        rwa [pow_succ, mul_assoc] at hne

/-- The fuel is enough for a sum that is not 0. -/
theorem refineFuel_enough {N : ℕ} (hN : 0 < N) {l : CosSum} (h : cosSumReal N l ≠ 0) :
    ∃ j < refineFuel N l, approxSign (2 ^ j * 128) N l ≠ none := by
  set B := Nat.log2 (2 * weight l) + 1 with hB
  set j := (N + 1) * B with hj
  refine ⟨j, Nat.lt_succ_self _, approxSign_complete (by have := Nat.one_le_two_pow (n := j); omega) hN ?_⟩
  have hlow := cosSum_lower hN h
  have hlt : 2 * weight l < 2 ^ B := Nat.lt_log2_self
  have hWB : (2 * weight l : ℝ) ≤ 2 ^ B := by exact_mod_cast hlt.le
  have hj1 : j + 1 ≤ 2 ^ j := Nat.lt_two_pow_self
  set P := 2 ^ j * 128 with hP
  have hPr : (2 : ℝ) ^ P = 2 ^ P := rfl
  have hA : (0 : ℝ) < |cosSumReal N l| := abs_pos.mpr h
  have h2 : (1 : ℝ) ≤ 2 * |cosSumReal N l| * 2 ^ (B * N) := by
    rw [abs_mul, abs_two] at hlow
    rw [pow_mul]
    refine hlow.trans (mul_le_mul_of_nonneg_left (pow_le_pow_left₀ (by positivity) hWB N) (by positivity))
  have h3 : (cosError P * (2 * weight l) : ℝ) < 2 ^ P / (2 * 2 ^ (B * N)) := by
    rw [lt_div_iff₀ (by positivity)]
    have hn : cosError P * 2 ^ B * (2 * 2 ^ (B * N)) < 2 ^ P := by
      have e1 : cosError P ≤ 2 ^ (j + 11) := by
        unfold cosError; rw [hP, pow_add]; omega
      calc cosError P * 2 ^ B * (2 * 2 ^ (B * N)) ≤ 2 ^ (j + 11) * 2 ^ B * (2 * 2 ^ (B * N)) := by gcongr
        _ = 2 ^ (j + 12 + j) := by rw [hj]; ring
        _ < 2 ^ P := Nat.pow_lt_pow_right (by norm_num) (by omega)
    have hnr : (cosError P : ℝ) * 2 ^ B * (2 * 2 ^ (B * N)) < 2 ^ P := by exact_mod_cast hn
    refine lt_of_le_of_lt ?_ hnr
    gcongr
  push_cast
  have h4 : (2 : ℝ) ^ P / (2 * 2 ^ (B * N)) ≤ 2 ^ P * |cosSumReal N l| := by
    rw [div_le_iff₀ (by positivity)]
    have := mul_le_mul_of_nonneg_left h2 (by positivity : (0 : ℝ) ≤ 2 ^ P)
    linarith
  linarith

/-- `cosSign` is the sign of the real sum of cosines. -/
theorem cosSign_spec {N : ℕ} (hN : 0 < N) (l : CosSum) :
    (cosSign N l = 1 ∧ 0 < cosSumReal N l) ∨ (cosSign N l = 0 ∧ cosSumReal N l = 0)
      ∨ (cosSign N l = -1 ∧ cosSumReal N l < 0) := by
  unfold cosSign
  rw [← cosSumReal_collect_fold hN l]
  generalize collect (l.map (fun x => (foldTurn N x.1, x.2))) = m
  unfold cosSignCollected
  cases hs : approxSign 64 N m with
  | some s => rcases approxSign_sound (le_refl 64) hN hs with h | h
              · exact .inl h
              · exact .inr (.inr h)
  | none =>
    dsimp only
    split
    · rename_i hv; exact .inr (.inl ⟨rfl, vanishes_sound hN hv⟩)
    · by_cases h0 : cosSumReal N m = 0
      · have hnone : ∀ P, 64 ≤ P → approxSign P N m = none := by
          intro P hP
          cases h : approxSign P N m with
          | none => rfl
          | some s => rcases approxSign_sound hP hN h with h | h <;> linarith [h.2]
        have : ∀ f P, 64 ≤ P → refineSign N m f P = 0 := by
          intro f
          induction f with
          | zero => intro P _; rfl
          | succ f ih => intro P hP; rw [refineSign, hnone P hP]; exact ih _ (by omega)
        exact .inr (.inl ⟨this _ _ (by norm_num), h0⟩)
      · rcases refineSign_spec hN (refineFuel N m) 128 (by norm_num) (refineFuel_enough hN h0) with h | h
        · exact .inl h
        · exact .inr (.inr h)

end Sys2Proof.Machine
end

