-- ==== Sys2Proof/Laws/NumericBins.lean ====
section
/-! SUPPORT. The detector over the real numbers: the squared magnitude of a bin is a sum of cosines of the window's
autocorrelation, and `magGreater` compares two of them. -/

namespace Sys2Proof.Machine

open Finset

/-- The sample of a window at an index, as a real number. -/
noncomputable def windowReal (w : List Int) (n : ℕ) : ℝ := (w.getD n 0 : ℤ)

theorem list_sum_map_range {α : Type*} [AddCommMonoid α] (f : ℕ → α) (n : ℕ) :
    ((List.range n).map f).sum = ∑ i ∈ range n, f i := by
  induction n with
  | zero => simp
  | succ n ih => rw [List.range_succ, List.map_append, List.sum_append, ih, sum_range_succ]; simp

/-- The squared magnitude of a bin by its cosine and sine sums (41_symbol_detector.md R131). -/
theorem mag2_eq_sq (w : List Int) (k : ℕ) :
    mag2 w k = (∑ n ∈ range w.length, windowReal w n * Real.cos (2 * Real.pi * k * n / w.length)) ^ 2
      + (∑ n ∈ range w.length, windowReal w n * Real.sin (2 * Real.pi * k * n / w.length)) ^ 2 := by
  unfold mag2
  rw [list_sum_map_range, Complex.normSq_apply, Complex.re_sum, Complex.im_sum]
  have h : ∀ n : ℕ, ((w.getD n 0 : ℤ) : ℂ) * Complex.exp (-2 * Real.pi * Complex.I * k * n / w.length)
      = ((windowReal w n : ℝ) : ℂ) * Complex.exp ((-(2 * Real.pi * k * n / w.length) : ℝ) * Complex.I) := by
    intro n
    unfold windowReal
    rw [Complex.ofReal_intCast]
    congr 2; push_cast; ring
  have hre : ∀ n ∈ range w.length, (((w.getD n 0 : ℤ) : ℂ) * Complex.exp (-2 * Real.pi * Complex.I * k * n / w.length)).re
      = windowReal w n * Real.cos (2 * Real.pi * k * n / w.length) := by
    intro n _; rw [h, Complex.re_ofReal_mul, Complex.exp_ofReal_mul_I_re, Real.cos_neg]
  have him : ∀ n ∈ range w.length, (((w.getD n 0 : ℤ) : ℂ) * Complex.exp (-2 * Real.pi * Complex.I * k * n / w.length)).im
      = -(windowReal w n * Real.sin (2 * Real.pi * k * n / w.length)) := by
    intro n _; rw [h, Complex.im_ofReal_mul, Complex.exp_ofReal_mul_I_im, Real.sin_neg, mul_neg]
  rw [sum_congr rfl hre, sum_congr rfl him, sum_neg_distrib]
  ring

/-- The squared magnitude as a double sum over the samples. -/
theorem mag2_eq_double (w : List Int) (k : ℕ) :
    mag2 w k = ∑ n ∈ range w.length, ∑ j ∈ range w.length,
      windowReal w n * windowReal w j * Real.cos (2 * Real.pi * k * j / w.length - 2 * Real.pi * k * n / w.length) := by
  rw [mag2_eq_sq, pow_two, pow_two, sum_mul_sum, sum_mul_sum, ← sum_add_distrib]
  refine sum_congr rfl fun n _ => ?_
  rw [← sum_add_distrib]
  refine sum_congr rfl fun j _ => ?_
  rw [Real.cos_sub]; ring

/-- A cosine of period N does not see a lag reduced modulo N. -/
theorem cos_lag {N : ℕ} (hN : 0 < N) (k n m : ℕ) :
    Real.cos (2 * Real.pi * k * ((n + m) % N : ℕ) / N - 2 * Real.pi * k * n / N) = Real.cos (2 * Real.pi * (k * m % N : ℕ) / N) := by
  have hNr : (N : ℝ) ≠ 0 := by exact_mod_cast hN.ne'
  have h1 : ((n : ℝ) + m) = N * (((n + m) / N : ℕ) : ℝ) + (((n + m) % N : ℕ) : ℝ) := by
    exact_mod_cast (Nat.div_add_mod (n + m) N).symm
  have h2 : ((k : ℝ) * m) = N * ((k * m / N : ℕ) : ℝ) + ((k * m % N : ℕ) : ℝ) := by
    exact_mod_cast (Nat.div_add_mod (k * m) N).symm
  have e1 : 2 * Real.pi * k * (((n + m) % N : ℕ) : ℝ) / N - 2 * Real.pi * k * n / N
      = 2 * Real.pi * (k * m : ℝ) / N - ((k * ((n + m) / N) : ℕ) : ℝ) * (2 * Real.pi) := by
    rw [show (((n + m) % N : ℕ) : ℝ) = n + m - N * (((n + m) / N : ℕ) : ℝ) by linarith]
    push_cast; field_simp; ring
  have e2 : 2 * Real.pi * (k * m : ℝ) / N = 2 * Real.pi * (k * m % N : ℕ) / N + ((k * m / N : ℕ) : ℝ) * (2 * Real.pi) := by
    rw [h2]; field_simp; ring
  rw [e1, Real.cos_sub_nat_mul_two_pi, e2, Real.cos_add_nat_mul_two_pi]

/-- The lags from n on run through all samples. -/
theorem sum_lag {N : ℕ} (hN : 0 < N) (n : ℕ) (f : ℕ → ℝ) :
    ∑ j ∈ range N, f j = ∑ m ∈ range N, f ((n + m) % N) := by
  refine (sum_nbij' (fun m => (n + m) % N) (fun j => (j + (N - n % N)) % N) ?_ ?_ ?_ ?_ fun _ _ => rfl).symm
  · intro m _; exact mem_range.mpr (Nat.mod_lt _ hN)
  · intro j _; exact mem_range.mpr (Nat.mod_lt _ hN)
  · intro m hm
    have hm := mem_range.mp hm
    have hn := Nat.mod_lt n hN
    have hd := Nat.div_add_mod n N
    show ((n + m) % N + (N - n % N)) % N = m
    rw [Nat.mod_add_mod, show n + m + (N - n % N) = m + N * (n / N + 1) by rw [mul_add]; omega, Nat.add_mul_mod_self_left,
      Nat.mod_eq_of_lt hm]
  · intro j hj
    have hj := mem_range.mp hj
    have hn := Nat.mod_lt n hN
    have hd := Nat.div_add_mod n N
    show (n + (j + (N - n % N)) % N) % N = j
    rw [Nat.add_mod_mod, show n + (j + (N - n % N)) = j + N * (n / N + 1) by rw [mul_add]; omega, Nat.add_mul_mod_self_left,
      Nat.mod_eq_of_lt hj]

/-- The autocorrelation at a lag, over the real numbers. -/
theorem autocorrAt_real (w : List Int) {m : ℕ} (hm : m < w.length) :
    (autocorrAt w m : ℝ) = ∑ n ∈ range w.length, windowReal w n * windowReal w ((n + m) % w.length) := by
  have hrot : w.drop m ++ w.take m = w.rotate m := (List.rotate_eq_drop_append_take hm.le).symm
  have hl : List.zipWith (· * ·) w (w.drop m ++ w.take m)
      = (List.range w.length).map (fun n => w.getD n 0 * w.getD ((n + m) % w.length) 0) := by
    rw [hrot]
    apply List.ext_getElem
    · simp
    · intro i h1 h2
      have hi : i < w.length := by simpa using h2
      have hr : (i + m) % w.length < w.length := Nat.mod_lt _ (by omega)
      simp [List.getElem_rotate, List.getElem?_eq_getElem hi, List.getElem?_eq_getElem hr]
  unfold autocorrAt
  rw [hl, list_sum_map_range]
  push_cast
  rfl

theorem magTerms_real (N k : ℕ) (s : ℤ) (r : List ℤ) (m : ℕ) :
    cosSumReal N (magTerms N k s m r)
      = s * ∑ i ∈ range r.length, ((r.getD i 0 : ℤ) : ℝ) * Real.cos (2 * Real.pi * (k * (m + i) % N : ℕ) / N) := by
  induction r generalizing m with
  | nil => simp [magTerms, cosSumReal]
  | cons x r ih =>
    rw [magTerms, cosSumReal_cons, ih, List.length_cons, sum_range_succ']
    have : ∀ i, k * (m + 1 + i) = k * (m + (i + 1)) := by intro i; ring
    simp only [this, List.getD_cons_succ, List.getD_cons_zero, add_zero]
    push_cast
    ring

/-- The terms of the detector's comparison are the squared magnitude of a bin. -/
theorem magTerms_eq_mag2 {w : List Int} (hw : 0 < w.length) (k : ℕ) (s : ℤ) :
    cosSumReal w.length (magTerms w.length k s 0 (autocorr w)) = s * mag2 w k := by
  rw [magTerms_real, mag2_eq_double]
  congr 1
  have hl : (autocorr w).length = w.length := by simp [autocorr]
  rw [hl]
  have h1 : ∀ i ∈ range w.length, (((autocorr w).getD i 0 : ℤ) : ℝ) * Real.cos (2 * Real.pi * (k * (0 + i) % w.length : ℕ) / w.length)
      = ∑ n ∈ range w.length, windowReal w n * windowReal w ((n + i) % w.length) * Real.cos (2 * Real.pi * (k * i % w.length : ℕ) / w.length) := by
    intro i hi
    have hi := mem_range.mp hi
    rw [zero_add, ← sum_mul, ← autocorrAt_real w hi]
    congr 2
    simp [autocorr, List.getD_eq_getElem?_getD, hi]
  rw [sum_congr rfl h1, sum_comm]
  refine sum_congr rfl fun n _ => ?_
  refine Eq.trans ?_ (sum_lag hw n (fun j => windowReal w n * windowReal w j
    * Real.cos (2 * Real.pi * k * j / w.length - 2 * Real.pi * k * n / w.length))).symm
  refine sum_congr rfl fun m _ => ?_
  rw [cos_lag hw]

/-- `magGreater` compares the squared magnitudes of two bins. -/
theorem magGreater_iff {w : List Int} (hw : 0 < w.length) (k j : ℕ) :
    magGreater w.length (autocorr w) k j = true ↔ mag2 w j < mag2 w k := by
  have hs := cosSign_spec hw (magTerms w.length k 1 0 (autocorr w) ++ magTerms w.length j (-1) 0 (autocorr w))
  rw [cosSumReal_append, magTerms_eq_mag2 hw, magTerms_eq_mag2 hw] at hs
  unfold magGreater
  rw [beq_iff_eq]
  generalize cosSign w.length _ = sign at hs ⊢
  push_cast at hs
  constructor
  · intro h
    rcases hs with ⟨h1, h2⟩ | ⟨h1, h2⟩ | ⟨h1, h2⟩
    · linarith
    · omega
    · omega
  · intro h
    rcases hs with ⟨h1, h2⟩ | ⟨h1, h2⟩ | ⟨h1, h2⟩
    · exact h1
    · linarith
    · linarith

end Sys2Proof.Machine
end

