-- ==== Sys2Proof/Laws/NumericQuantise.lean ====
section
/-! SUPPORT. QSAMPLE over the real numbers: the sine as a cosine, its sign, what `reaches` decides, and the number
that `roundedMag` finds. -/

namespace Sys2Proof.Machine

theorem sine_eq_cosine {M : ℕ} (hM : 0 < M) (p : ℕ) :
    Real.cos (2 * Real.pi * ((4 * p + 3 * M) % (4 * M) : ℕ) / (4 * M : ℕ)) = sine p M := by
  have hMr : (M : ℝ) ≠ 0 := by exact_mod_cast hM.ne'
  rw [← cos_foldTurn (by omega : 0 < 4 * M)]
  have : foldTurn (4 * M) ((4 * p + 3 * M) % (4 * M)) = foldTurn (4 * M) (4 * p + 3 * M) := by
    unfold foldTurn; rw [Nat.mod_mod]
  rw [this, cos_foldTurn (by omega : 0 < 4 * M)]
  have e : 2 * Real.pi * ((4 * p + 3 * M : ℕ) : ℝ) / ((4 * M : ℕ) : ℝ)
      = 2 * Real.pi * p / M - Real.pi / 2 + 2 * Real.pi := by
    push_cast; field_simp; ring
  rw [e, Real.cos_add_two_pi, Real.cos_sub_pi_div_two]; rfl

/-- The sine of a phase depends on it modulo the modulus. -/
theorem sine_mod {M : ℕ} (hM : 0 < M) (p : ℕ) : sine (p % M) M = sine p M := by
  have hMr : (M : ℝ) ≠ 0 := by exact_mod_cast hM.ne'
  have h : (p : ℝ) = M * ((p / M : ℕ) : ℝ) + ((p % M : ℕ) : ℝ) := by exact_mod_cast (Nat.div_add_mod p M).symm
  unfold sine
  rw [h, show 2 * Real.pi * (M * ((p / M : ℕ) : ℝ) + ((p % M : ℕ) : ℝ)) / M
    = 2 * Real.pi * ((p % M : ℕ) : ℝ) / M + ((p / M : ℕ) : ℝ) * (2 * Real.pi) by field_simp; ring,
    Real.sin_add_nat_mul_two_pi]

/-- The sine is not negative in the first half turn. -/
theorem sine_nonneg {M : ℕ} (hM : 0 < M) {p : ℕ} (h : 2 * (p % M) ≤ M) : 0 ≤ sine p M := by
  have hMr : (0 : ℝ) < M := by exact_mod_cast hM
  rw [← sine_mod hM]
  have hr : (2 : ℝ) * ((p % M : ℕ) : ℝ) ≤ M := by exact_mod_cast h
  apply Real.sin_nonneg_of_nonneg_of_le_pi (by positivity)
  rw [div_le_iff₀ hMr]
  have := mul_le_mul_of_nonneg_left hr Real.pi_pos.le
  linarith

/-- The sine is negative in the second half turn. -/
theorem sine_neg {M : ℕ} (hM : 0 < M) {p : ℕ} (h : ¬2 * (p % M) ≤ M) : sine p M < 0 := by
  have hMr : (0 : ℝ) < M := by exact_mod_cast hM
  rw [← sine_mod hM]
  have hr : (M : ℝ) < 2 * ((p % M : ℕ) : ℝ) := by exact_mod_cast not_le.mp h
  have hlt : ((p % M : ℕ) : ℝ) < M := by exact_mod_cast Nat.mod_lt p hM
  unfold sine
  rw [← Real.sin_sub_two_pi]
  have e : 2 * Real.pi * ((p % M : ℕ) : ℝ) / M - 2 * Real.pi = -(2 * Real.pi * (M - ((p % M : ℕ) : ℝ)) / M) := by
    field_simp; ring
  rw [e, Real.sin_neg, neg_lt_zero]
  have hpi := Real.pi_pos
  apply Real.sin_pos_of_pos_of_lt_pi
  · apply div_pos (mul_pos (by positivity) (by linarith)) hMr
  · rw [div_lt_iff₀ hMr]
    have := mul_lt_mul_of_pos_left hr hpi
    linarith

theorem absSine_cosSum {M : ℕ} (hM : 0 < M) (p : ℕ) (c : ℤ) (l : CosSum) :
    cosSumReal (4 * M) (absSineTerm M p c :: l) = c * |sine p M| + cosSumReal (4 * M) l := by
  unfold absSineTerm sineTerm
  rw [cosSumReal_cons, sine_eq_cosine hM]
  split
  · rename_i h; rw [abs_of_nonneg (sine_nonneg hM h)]
  · rename_i h; rw [abs_of_neg (sine_neg hM h)]; push_cast; ring

/-- What `reaches` decides, over the real numbers. -/
theorem reaches_iff {M : ℕ} (hM : 0 < M) (p ps k : ℕ) :
    reaches M p ps k = true ↔ (2 * (k : ℝ) - 1) * |sine ps M| ≤ 2 * 32767 * |sine p M| := by
  have hs := cosSign_spec (by omega : 0 < 4 * M) [absSineTerm M p (2 * Config.fullScale), absSineTerm M ps (1 - 2 * (k : ℤ))]
  rw [absSine_cosSum hM, absSine_cosSum hM, cosSumReal_nil] at hs
  unfold reaches
  rw [decide_eq_true_iff]
  generalize cosSign (4 * M) _ = sign at hs ⊢
  have e : ((2 * Config.fullScale : ℕ) : ℝ) = 2 * 32767 := by norm_num [Config.fullScale]
  push_cast at hs e
  rw [e] at hs
  constructor
  · intro h
    rcases hs with ⟨h1, h2⟩ | ⟨h1, h2⟩ | ⟨h1, h2⟩
    · linarith
    · linarith
    · omega
  · intro h
    rcases hs with ⟨h1, h2⟩ | ⟨h1, h2⟩ | ⟨h1, h2⟩
    · omega
    · omega
    · linarith

/-- The same as a bound on k. -/
theorem reaches_iff_le {M : ℕ} (hM : 0 < M) {ps : ℕ} (h0 : sine ps M ≠ 0) (p k : ℕ) :
    reaches M p ps k = true ↔ k ≤ ⌊32767 * |sine p M| / |sine ps M| + 1 / 2⌋₊ := by
  have hps : 0 < |sine ps M| := abs_pos.mpr h0
  rw [reaches_iff hM, Nat.le_floor_iff (by positivity), ← sub_le_iff_le_add, le_div_iff₀ hps]
  constructor <;> intro h <;> linarith

theorem searchMag_eq {M p ps n : ℕ} (h : ∀ k, reaches M p ps k = true ↔ k ≤ n) (b k : ℕ) (hk : k ≤ n)
    (hn : n < k + 2 ^ b) : searchMag M p ps b k = n := by
  induction b generalizing k with
  | zero => rw [searchMag]; rw [pow_zero] at hn; omega
  | succ b ih =>
    rw [searchMag]
    rw [pow_succ] at hn
    cases hr : reaches M p ps (k + 2 ^ b) with
    | true => exact ih _ ((h _).mp hr) (by omega)
    | false =>
      refine ih _ hk ?_
      by_contra hc
      rw [(h _).mpr (by omega)] at hr
      cases hr

theorem roundedMag_eq {M p ps n : ℕ} (h : ∀ k, reaches M p ps k = true ↔ k ≤ n) (hn : n < 2 ^ 16) :
    roundedMag M p ps = n := by
  unfold roundedMag
  generalize guessMag M p ps = g
  split
  · rename_i hg
    rw [Bool.and_eq_true, Bool.not_eq_true', h g] at hg
    have : ¬ g + 1 ≤ n := fun hc => by rw [(h _).mpr hc] at hg; exact absurd hg.2 (by decide)
    omega
  · exact searchMag_eq h 16 0 (by omega) (by omega)

end Sys2Proof.Machine
end

