-- ==== Sys2Proof/Laws/State.lean ====
section
/-! SUPPORT. The updates of the state, field by field: what each named update of Machine/Ops.lean and Machine/Command.lean
writes, and that it writes nothing else. -/

namespace Sys2Proof.Machine

variable (s : State)

/-! `State.setStatus`. -/

@[simp] theorem State.setStatus_mode (st : BitVec 12) : (s.setStatus st).mode = s.mode := rfl
@[simp] theorem State.setStatus_symbolRate (st : BitVec 12) : (s.setStatus st).symbolRate = s.symbolRate := rfl
@[simp] theorem State.setStatus_freqLow (st : BitVec 12) : (s.setStatus st).freqLow = s.freqLow := rfl
@[simp] theorem State.setStatus_freqHigh (st : BitVec 12) : (s.setStatus st).freqHigh = s.freqHigh := rfl
@[simp] theorem State.setStatus_freqEnd (st : BitVec 12) : (s.setStatus st).freqEnd = s.freqEnd := rfl
@[simp] theorem State.setStatus_endRepeat (st : BitVec 12) : (s.setStatus st).endRepeat = s.endRepeat := rfl
@[simp] theorem State.setStatus_inRate (st : BitVec 12) : (s.setStatus st).inRate = s.inRate := rfl
@[simp] theorem State.setStatus_nsym (st : BitVec 12) : (s.setStatus st).nsym = s.nsym := rfl
@[simp] theorem State.setStatus_fstate (st : BitVec 12) : (s.setStatus st).fstate = s.fstate := rfl
@[simp] theorem State.setStatus_cursor (st : BitVec 12) : (s.setStatus st).cursor = s.cursor := rfl
@[simp] theorem State.setStatus_byte (st : BitVec 12) : (s.setStatus st).byte = s.byte := rfl
@[simp] theorem State.setStatus_cw (st : BitVec 12) : (s.setStatus st).cw = s.cw := rfl
@[simp] theorem State.setStatus_syn (st : BitVec 12) : (s.setStatus st).syn = s.syn := rfl
@[simp] theorem State.setStatus_sym (st : BitVec 12) : (s.setStatus st).sym = s.sym := rfl
@[simp] theorem State.setStatus_bin (st : BitVec 12) : (s.setStatus st).bin = s.bin := rfl
@[simp] theorem State.setStatus_status (st : BitVec 12) : (s.setStatus st).status = st := rfl
@[simp] theorem State.setStatus_extInLen (st : BitVec 12) : (s.setStatus st).extInLen = s.extInLen := rfl
@[simp] theorem State.setStatus_dataInLen (st : BitVec 12) : (s.setStatus st).dataInLen = s.dataInLen := rfl
@[simp] theorem State.setStatus_waveInLen (st : BitVec 12) : (s.setStatus st).waveInLen = s.waveInLen := rfl
@[simp] theorem State.setStatus_extOutLen (st : BitVec 12) : (s.setStatus st).extOutLen = s.extOutLen := rfl
@[simp] theorem State.setStatus_dataOutLen (st : BitVec 12) : (s.setStatus st).dataOutLen = s.dataOutLen := rfl
@[simp] theorem State.setStatus_waveOutLen (st : BitVec 12) : (s.setStatus st).waveOutLen = s.waveOutLen := rfl
@[simp] theorem State.setStatus_bufSel (st : BitVec 12) : (s.setStatus st).bufSel = s.bufSel := rfl
@[simp] theorem State.setStatus_bufIdx (st : BitVec 12) : (s.setStatus st).bufIdx = s.bufIdx := rfl
@[simp] theorem State.setStatus_extIn (st : BitVec 12) : (s.setStatus st).extIn = s.extIn := rfl
@[simp] theorem State.setStatus_dataIn (st : BitVec 12) : (s.setStatus st).dataIn = s.dataIn := rfl
@[simp] theorem State.setStatus_waveIn (st : BitVec 12) : (s.setStatus st).waveIn = s.waveIn := rfl
@[simp] theorem State.setStatus_extOut (st : BitVec 12) : (s.setStatus st).extOut = s.extOut := rfl
@[simp] theorem State.setStatus_dataOut (st : BitVec 12) : (s.setStatus st).dataOut = s.dataOut := rfl
@[simp] theorem State.setStatus_waveOut (st : BitVec 12) : (s.setStatus st).waveOut = s.waveOut := rfl
@[simp] theorem State.setStatus_extCap (st : BitVec 12) : (s.setStatus st).extCap = s.extCap := rfl
@[simp] theorem State.setStatus_dataCap (st : BitVec 12) : (s.setStatus st).dataCap = s.dataCap := rfl
@[simp] theorem State.setStatus_waveCap (st : BitVec 12) : (s.setStatus st).waveCap = s.waveCap := rfl
@[simp] theorem State.setStatus_pending (st : BitVec 12) : (s.setStatus st).pending = s.pending := rfl
@[simp] theorem State.setStatus_reads (st : BitVec 12) : (s.setStatus st).reads = s.reads := rfl
@[simp] theorem State.setStatus_freeCtr (st : BitVec 12) : (s.setStatus st).freeCtr = s.freeCtr := rfl

/-! `State.setSymBin`. -/

@[simp] theorem State.setSymBin_mode (x : Symbol) (k : Word) : (s.setSymBin x k).mode = s.mode := rfl
@[simp] theorem State.setSymBin_symbolRate (x : Symbol) (k : Word) : (s.setSymBin x k).symbolRate = s.symbolRate := rfl
@[simp] theorem State.setSymBin_freqLow (x : Symbol) (k : Word) : (s.setSymBin x k).freqLow = s.freqLow := rfl
@[simp] theorem State.setSymBin_freqHigh (x : Symbol) (k : Word) : (s.setSymBin x k).freqHigh = s.freqHigh := rfl
@[simp] theorem State.setSymBin_freqEnd (x : Symbol) (k : Word) : (s.setSymBin x k).freqEnd = s.freqEnd := rfl
@[simp] theorem State.setSymBin_endRepeat (x : Symbol) (k : Word) : (s.setSymBin x k).endRepeat = s.endRepeat := rfl
@[simp] theorem State.setSymBin_inRate (x : Symbol) (k : Word) : (s.setSymBin x k).inRate = s.inRate := rfl
@[simp] theorem State.setSymBin_nsym (x : Symbol) (k : Word) : (s.setSymBin x k).nsym = s.nsym := rfl
@[simp] theorem State.setSymBin_fstate (x : Symbol) (k : Word) : (s.setSymBin x k).fstate = s.fstate := rfl
@[simp] theorem State.setSymBin_cursor (x : Symbol) (k : Word) : (s.setSymBin x k).cursor = s.cursor := rfl
@[simp] theorem State.setSymBin_byte (x : Symbol) (k : Word) : (s.setSymBin x k).byte = s.byte := rfl
@[simp] theorem State.setSymBin_cw (x : Symbol) (k : Word) : (s.setSymBin x k).cw = s.cw := rfl
@[simp] theorem State.setSymBin_syn (x : Symbol) (k : Word) : (s.setSymBin x k).syn = s.syn := rfl
@[simp] theorem State.setSymBin_sym (x : Symbol) (k : Word) : (s.setSymBin x k).sym = x := rfl
@[simp] theorem State.setSymBin_bin (x : Symbol) (k : Word) : (s.setSymBin x k).bin = k := rfl
@[simp] theorem State.setSymBin_status (x : Symbol) (k : Word) : (s.setSymBin x k).status = s.status := rfl
@[simp] theorem State.setSymBin_extInLen (x : Symbol) (k : Word) : (s.setSymBin x k).extInLen = s.extInLen := rfl
@[simp] theorem State.setSymBin_dataInLen (x : Symbol) (k : Word) : (s.setSymBin x k).dataInLen = s.dataInLen := rfl
@[simp] theorem State.setSymBin_waveInLen (x : Symbol) (k : Word) : (s.setSymBin x k).waveInLen = s.waveInLen := rfl
@[simp] theorem State.setSymBin_extOutLen (x : Symbol) (k : Word) : (s.setSymBin x k).extOutLen = s.extOutLen := rfl
@[simp] theorem State.setSymBin_dataOutLen (x : Symbol) (k : Word) : (s.setSymBin x k).dataOutLen = s.dataOutLen := rfl
@[simp] theorem State.setSymBin_waveOutLen (x : Symbol) (k : Word) : (s.setSymBin x k).waveOutLen = s.waveOutLen := rfl
@[simp] theorem State.setSymBin_bufSel (x : Symbol) (k : Word) : (s.setSymBin x k).bufSel = s.bufSel := rfl
@[simp] theorem State.setSymBin_bufIdx (x : Symbol) (k : Word) : (s.setSymBin x k).bufIdx = s.bufIdx := rfl
@[simp] theorem State.setSymBin_extIn (x : Symbol) (k : Word) : (s.setSymBin x k).extIn = s.extIn := rfl
@[simp] theorem State.setSymBin_dataIn (x : Symbol) (k : Word) : (s.setSymBin x k).dataIn = s.dataIn := rfl
@[simp] theorem State.setSymBin_waveIn (x : Symbol) (k : Word) : (s.setSymBin x k).waveIn = s.waveIn := rfl
@[simp] theorem State.setSymBin_extOut (x : Symbol) (k : Word) : (s.setSymBin x k).extOut = s.extOut := rfl
@[simp] theorem State.setSymBin_dataOut (x : Symbol) (k : Word) : (s.setSymBin x k).dataOut = s.dataOut := rfl
@[simp] theorem State.setSymBin_waveOut (x : Symbol) (k : Word) : (s.setSymBin x k).waveOut = s.waveOut := rfl
@[simp] theorem State.setSymBin_extCap (x : Symbol) (k : Word) : (s.setSymBin x k).extCap = s.extCap := rfl
@[simp] theorem State.setSymBin_dataCap (x : Symbol) (k : Word) : (s.setSymBin x k).dataCap = s.dataCap := rfl
@[simp] theorem State.setSymBin_waveCap (x : Symbol) (k : Word) : (s.setSymBin x k).waveCap = s.waveCap := rfl
@[simp] theorem State.setSymBin_pending (x : Symbol) (k : Word) : (s.setSymBin x k).pending = s.pending := rfl
@[simp] theorem State.setSymBin_reads (x : Symbol) (k : Word) : (s.setSymBin x k).reads = s.reads := rfl
@[simp] theorem State.setSymBin_freeCtr (x : Symbol) (k : Word) : (s.setSymBin x k).freeCtr = s.freeCtr := rfl

/-! `State.setByte`. -/

@[simp] theorem State.setByte_mode (b : Byte) : (s.setByte b).mode = s.mode := rfl
@[simp] theorem State.setByte_symbolRate (b : Byte) : (s.setByte b).symbolRate = s.symbolRate := rfl
@[simp] theorem State.setByte_freqLow (b : Byte) : (s.setByte b).freqLow = s.freqLow := rfl
@[simp] theorem State.setByte_freqHigh (b : Byte) : (s.setByte b).freqHigh = s.freqHigh := rfl
@[simp] theorem State.setByte_freqEnd (b : Byte) : (s.setByte b).freqEnd = s.freqEnd := rfl
@[simp] theorem State.setByte_endRepeat (b : Byte) : (s.setByte b).endRepeat = s.endRepeat := rfl
@[simp] theorem State.setByte_inRate (b : Byte) : (s.setByte b).inRate = s.inRate := rfl
@[simp] theorem State.setByte_nsym (b : Byte) : (s.setByte b).nsym = s.nsym := rfl
@[simp] theorem State.setByte_fstate (b : Byte) : (s.setByte b).fstate = s.fstate := rfl
@[simp] theorem State.setByte_cursor (b : Byte) : (s.setByte b).cursor = s.cursor := rfl
@[simp] theorem State.setByte_byte (b : Byte) : (s.setByte b).byte = b := rfl
@[simp] theorem State.setByte_cw (b : Byte) : (s.setByte b).cw = s.cw := rfl
@[simp] theorem State.setByte_syn (b : Byte) : (s.setByte b).syn = s.syn := rfl
@[simp] theorem State.setByte_sym (b : Byte) : (s.setByte b).sym = s.sym := rfl
@[simp] theorem State.setByte_bin (b : Byte) : (s.setByte b).bin = s.bin := rfl
@[simp] theorem State.setByte_status (b : Byte) : (s.setByte b).status = s.status := rfl
@[simp] theorem State.setByte_extInLen (b : Byte) : (s.setByte b).extInLen = s.extInLen := rfl
@[simp] theorem State.setByte_dataInLen (b : Byte) : (s.setByte b).dataInLen = s.dataInLen := rfl
@[simp] theorem State.setByte_waveInLen (b : Byte) : (s.setByte b).waveInLen = s.waveInLen := rfl
@[simp] theorem State.setByte_extOutLen (b : Byte) : (s.setByte b).extOutLen = s.extOutLen := rfl
@[simp] theorem State.setByte_dataOutLen (b : Byte) : (s.setByte b).dataOutLen = s.dataOutLen := rfl
@[simp] theorem State.setByte_waveOutLen (b : Byte) : (s.setByte b).waveOutLen = s.waveOutLen := rfl
@[simp] theorem State.setByte_bufSel (b : Byte) : (s.setByte b).bufSel = s.bufSel := rfl
@[simp] theorem State.setByte_bufIdx (b : Byte) : (s.setByte b).bufIdx = s.bufIdx := rfl
@[simp] theorem State.setByte_extIn (b : Byte) : (s.setByte b).extIn = s.extIn := rfl
@[simp] theorem State.setByte_dataIn (b : Byte) : (s.setByte b).dataIn = s.dataIn := rfl
@[simp] theorem State.setByte_waveIn (b : Byte) : (s.setByte b).waveIn = s.waveIn := rfl
@[simp] theorem State.setByte_extOut (b : Byte) : (s.setByte b).extOut = s.extOut := rfl
@[simp] theorem State.setByte_dataOut (b : Byte) : (s.setByte b).dataOut = s.dataOut := rfl
@[simp] theorem State.setByte_waveOut (b : Byte) : (s.setByte b).waveOut = s.waveOut := rfl
@[simp] theorem State.setByte_extCap (b : Byte) : (s.setByte b).extCap = s.extCap := rfl
@[simp] theorem State.setByte_dataCap (b : Byte) : (s.setByte b).dataCap = s.dataCap := rfl
@[simp] theorem State.setByte_waveCap (b : Byte) : (s.setByte b).waveCap = s.waveCap := rfl
@[simp] theorem State.setByte_pending (b : Byte) : (s.setByte b).pending = s.pending := rfl
@[simp] theorem State.setByte_reads (b : Byte) : (s.setByte b).reads = s.reads := rfl
@[simp] theorem State.setByte_freeCtr (b : Byte) : (s.setByte b).freeCtr = s.freeCtr := rfl

/-! `State.setCode`. -/

@[simp] theorem State.setCode_mode (c : Codeword) (y : BitVec 4) : (s.setCode c y).mode = s.mode := rfl
@[simp] theorem State.setCode_symbolRate (c : Codeword) (y : BitVec 4) : (s.setCode c y).symbolRate = s.symbolRate := rfl
@[simp] theorem State.setCode_freqLow (c : Codeword) (y : BitVec 4) : (s.setCode c y).freqLow = s.freqLow := rfl
@[simp] theorem State.setCode_freqHigh (c : Codeword) (y : BitVec 4) : (s.setCode c y).freqHigh = s.freqHigh := rfl
@[simp] theorem State.setCode_freqEnd (c : Codeword) (y : BitVec 4) : (s.setCode c y).freqEnd = s.freqEnd := rfl
@[simp] theorem State.setCode_endRepeat (c : Codeword) (y : BitVec 4) : (s.setCode c y).endRepeat = s.endRepeat := rfl
@[simp] theorem State.setCode_inRate (c : Codeword) (y : BitVec 4) : (s.setCode c y).inRate = s.inRate := rfl
@[simp] theorem State.setCode_nsym (c : Codeword) (y : BitVec 4) : (s.setCode c y).nsym = s.nsym := rfl
@[simp] theorem State.setCode_fstate (c : Codeword) (y : BitVec 4) : (s.setCode c y).fstate = s.fstate := rfl
@[simp] theorem State.setCode_cursor (c : Codeword) (y : BitVec 4) : (s.setCode c y).cursor = s.cursor := rfl
@[simp] theorem State.setCode_byte (c : Codeword) (y : BitVec 4) : (s.setCode c y).byte = s.byte := rfl
@[simp] theorem State.setCode_cw (c : Codeword) (y : BitVec 4) : (s.setCode c y).cw = c := rfl
@[simp] theorem State.setCode_syn (c : Codeword) (y : BitVec 4) : (s.setCode c y).syn = y := rfl
@[simp] theorem State.setCode_sym (c : Codeword) (y : BitVec 4) : (s.setCode c y).sym = s.sym := rfl
@[simp] theorem State.setCode_bin (c : Codeword) (y : BitVec 4) : (s.setCode c y).bin = s.bin := rfl
@[simp] theorem State.setCode_status (c : Codeword) (y : BitVec 4) : (s.setCode c y).status = s.status := rfl
@[simp] theorem State.setCode_extInLen (c : Codeword) (y : BitVec 4) : (s.setCode c y).extInLen = s.extInLen := rfl
@[simp] theorem State.setCode_dataInLen (c : Codeword) (y : BitVec 4) : (s.setCode c y).dataInLen = s.dataInLen := rfl
@[simp] theorem State.setCode_waveInLen (c : Codeword) (y : BitVec 4) : (s.setCode c y).waveInLen = s.waveInLen := rfl
@[simp] theorem State.setCode_extOutLen (c : Codeword) (y : BitVec 4) : (s.setCode c y).extOutLen = s.extOutLen := rfl
@[simp] theorem State.setCode_dataOutLen (c : Codeword) (y : BitVec 4) : (s.setCode c y).dataOutLen = s.dataOutLen := rfl
@[simp] theorem State.setCode_waveOutLen (c : Codeword) (y : BitVec 4) : (s.setCode c y).waveOutLen = s.waveOutLen := rfl
@[simp] theorem State.setCode_bufSel (c : Codeword) (y : BitVec 4) : (s.setCode c y).bufSel = s.bufSel := rfl
@[simp] theorem State.setCode_bufIdx (c : Codeword) (y : BitVec 4) : (s.setCode c y).bufIdx = s.bufIdx := rfl
@[simp] theorem State.setCode_extIn (c : Codeword) (y : BitVec 4) : (s.setCode c y).extIn = s.extIn := rfl
@[simp] theorem State.setCode_dataIn (c : Codeword) (y : BitVec 4) : (s.setCode c y).dataIn = s.dataIn := rfl
@[simp] theorem State.setCode_waveIn (c : Codeword) (y : BitVec 4) : (s.setCode c y).waveIn = s.waveIn := rfl
@[simp] theorem State.setCode_extOut (c : Codeword) (y : BitVec 4) : (s.setCode c y).extOut = s.extOut := rfl
@[simp] theorem State.setCode_dataOut (c : Codeword) (y : BitVec 4) : (s.setCode c y).dataOut = s.dataOut := rfl
@[simp] theorem State.setCode_waveOut (c : Codeword) (y : BitVec 4) : (s.setCode c y).waveOut = s.waveOut := rfl
@[simp] theorem State.setCode_extCap (c : Codeword) (y : BitVec 4) : (s.setCode c y).extCap = s.extCap := rfl
@[simp] theorem State.setCode_dataCap (c : Codeword) (y : BitVec 4) : (s.setCode c y).dataCap = s.dataCap := rfl
@[simp] theorem State.setCode_waveCap (c : Codeword) (y : BitVec 4) : (s.setCode c y).waveCap = s.waveCap := rfl
@[simp] theorem State.setCode_pending (c : Codeword) (y : BitVec 4) : (s.setCode c y).pending = s.pending := rfl
@[simp] theorem State.setCode_reads (c : Codeword) (y : BitVec 4) : (s.setCode c y).reads = s.reads := rfl
@[simp] theorem State.setCode_freeCtr (c : Codeword) (y : BitVec 4) : (s.setCode c y).freeCtr = s.freeCtr := rfl

/-! `State.setCursor`. -/

@[simp] theorem State.setCursor_mode (c : Word) : (s.setCursor c).mode = s.mode := rfl
@[simp] theorem State.setCursor_symbolRate (c : Word) : (s.setCursor c).symbolRate = s.symbolRate := rfl
@[simp] theorem State.setCursor_freqLow (c : Word) : (s.setCursor c).freqLow = s.freqLow := rfl
@[simp] theorem State.setCursor_freqHigh (c : Word) : (s.setCursor c).freqHigh = s.freqHigh := rfl
@[simp] theorem State.setCursor_freqEnd (c : Word) : (s.setCursor c).freqEnd = s.freqEnd := rfl
@[simp] theorem State.setCursor_endRepeat (c : Word) : (s.setCursor c).endRepeat = s.endRepeat := rfl
@[simp] theorem State.setCursor_inRate (c : Word) : (s.setCursor c).inRate = s.inRate := rfl
@[simp] theorem State.setCursor_nsym (c : Word) : (s.setCursor c).nsym = s.nsym := rfl
@[simp] theorem State.setCursor_fstate (c : Word) : (s.setCursor c).fstate = s.fstate := rfl
@[simp] theorem State.setCursor_cursor (c : Word) : (s.setCursor c).cursor = c := rfl
@[simp] theorem State.setCursor_byte (c : Word) : (s.setCursor c).byte = s.byte := rfl
@[simp] theorem State.setCursor_cw (c : Word) : (s.setCursor c).cw = s.cw := rfl
@[simp] theorem State.setCursor_syn (c : Word) : (s.setCursor c).syn = s.syn := rfl
@[simp] theorem State.setCursor_sym (c : Word) : (s.setCursor c).sym = s.sym := rfl
@[simp] theorem State.setCursor_bin (c : Word) : (s.setCursor c).bin = s.bin := rfl
@[simp] theorem State.setCursor_status (c : Word) : (s.setCursor c).status = s.status := rfl
@[simp] theorem State.setCursor_extInLen (c : Word) : (s.setCursor c).extInLen = s.extInLen := rfl
@[simp] theorem State.setCursor_dataInLen (c : Word) : (s.setCursor c).dataInLen = s.dataInLen := rfl
@[simp] theorem State.setCursor_waveInLen (c : Word) : (s.setCursor c).waveInLen = s.waveInLen := rfl
@[simp] theorem State.setCursor_extOutLen (c : Word) : (s.setCursor c).extOutLen = s.extOutLen := rfl
@[simp] theorem State.setCursor_dataOutLen (c : Word) : (s.setCursor c).dataOutLen = s.dataOutLen := rfl
@[simp] theorem State.setCursor_waveOutLen (c : Word) : (s.setCursor c).waveOutLen = s.waveOutLen := rfl
@[simp] theorem State.setCursor_bufSel (c : Word) : (s.setCursor c).bufSel = s.bufSel := rfl
@[simp] theorem State.setCursor_bufIdx (c : Word) : (s.setCursor c).bufIdx = s.bufIdx := rfl
@[simp] theorem State.setCursor_extIn (c : Word) : (s.setCursor c).extIn = s.extIn := rfl
@[simp] theorem State.setCursor_dataIn (c : Word) : (s.setCursor c).dataIn = s.dataIn := rfl
@[simp] theorem State.setCursor_waveIn (c : Word) : (s.setCursor c).waveIn = s.waveIn := rfl
@[simp] theorem State.setCursor_extOut (c : Word) : (s.setCursor c).extOut = s.extOut := rfl
@[simp] theorem State.setCursor_dataOut (c : Word) : (s.setCursor c).dataOut = s.dataOut := rfl
@[simp] theorem State.setCursor_waveOut (c : Word) : (s.setCursor c).waveOut = s.waveOut := rfl
@[simp] theorem State.setCursor_extCap (c : Word) : (s.setCursor c).extCap = s.extCap := rfl
@[simp] theorem State.setCursor_dataCap (c : Word) : (s.setCursor c).dataCap = s.dataCap := rfl
@[simp] theorem State.setCursor_waveCap (c : Word) : (s.setCursor c).waveCap = s.waveCap := rfl
@[simp] theorem State.setCursor_pending (c : Word) : (s.setCursor c).pending = s.pending := rfl
@[simp] theorem State.setCursor_reads (c : Word) : (s.setCursor c).reads = s.reads := rfl
@[simp] theorem State.setCursor_freeCtr (c : Word) : (s.setCursor c).freeCtr = s.freeCtr := rfl

/-! `State.setFstate`. -/

@[simp] theorem State.setFstate_mode (f : FState) : (s.setFstate f).mode = s.mode := rfl
@[simp] theorem State.setFstate_symbolRate (f : FState) : (s.setFstate f).symbolRate = s.symbolRate := rfl
@[simp] theorem State.setFstate_freqLow (f : FState) : (s.setFstate f).freqLow = s.freqLow := rfl
@[simp] theorem State.setFstate_freqHigh (f : FState) : (s.setFstate f).freqHigh = s.freqHigh := rfl
@[simp] theorem State.setFstate_freqEnd (f : FState) : (s.setFstate f).freqEnd = s.freqEnd := rfl
@[simp] theorem State.setFstate_endRepeat (f : FState) : (s.setFstate f).endRepeat = s.endRepeat := rfl
@[simp] theorem State.setFstate_inRate (f : FState) : (s.setFstate f).inRate = s.inRate := rfl
@[simp] theorem State.setFstate_nsym (f : FState) : (s.setFstate f).nsym = s.nsym := rfl
@[simp] theorem State.setFstate_fstate (f : FState) : (s.setFstate f).fstate = f := rfl
@[simp] theorem State.setFstate_cursor (f : FState) : (s.setFstate f).cursor = s.cursor := rfl
@[simp] theorem State.setFstate_byte (f : FState) : (s.setFstate f).byte = s.byte := rfl
@[simp] theorem State.setFstate_cw (f : FState) : (s.setFstate f).cw = s.cw := rfl
@[simp] theorem State.setFstate_syn (f : FState) : (s.setFstate f).syn = s.syn := rfl
@[simp] theorem State.setFstate_sym (f : FState) : (s.setFstate f).sym = s.sym := rfl
@[simp] theorem State.setFstate_bin (f : FState) : (s.setFstate f).bin = s.bin := rfl
@[simp] theorem State.setFstate_status (f : FState) : (s.setFstate f).status = s.status := rfl
@[simp] theorem State.setFstate_extInLen (f : FState) : (s.setFstate f).extInLen = s.extInLen := rfl
@[simp] theorem State.setFstate_dataInLen (f : FState) : (s.setFstate f).dataInLen = s.dataInLen := rfl
@[simp] theorem State.setFstate_waveInLen (f : FState) : (s.setFstate f).waveInLen = s.waveInLen := rfl
@[simp] theorem State.setFstate_extOutLen (f : FState) : (s.setFstate f).extOutLen = s.extOutLen := rfl
@[simp] theorem State.setFstate_dataOutLen (f : FState) : (s.setFstate f).dataOutLen = s.dataOutLen := rfl
@[simp] theorem State.setFstate_waveOutLen (f : FState) : (s.setFstate f).waveOutLen = s.waveOutLen := rfl
@[simp] theorem State.setFstate_bufSel (f : FState) : (s.setFstate f).bufSel = s.bufSel := rfl
@[simp] theorem State.setFstate_bufIdx (f : FState) : (s.setFstate f).bufIdx = s.bufIdx := rfl
@[simp] theorem State.setFstate_extIn (f : FState) : (s.setFstate f).extIn = s.extIn := rfl
@[simp] theorem State.setFstate_dataIn (f : FState) : (s.setFstate f).dataIn = s.dataIn := rfl
@[simp] theorem State.setFstate_waveIn (f : FState) : (s.setFstate f).waveIn = s.waveIn := rfl
@[simp] theorem State.setFstate_extOut (f : FState) : (s.setFstate f).extOut = s.extOut := rfl
@[simp] theorem State.setFstate_dataOut (f : FState) : (s.setFstate f).dataOut = s.dataOut := rfl
@[simp] theorem State.setFstate_waveOut (f : FState) : (s.setFstate f).waveOut = s.waveOut := rfl
@[simp] theorem State.setFstate_extCap (f : FState) : (s.setFstate f).extCap = s.extCap := rfl
@[simp] theorem State.setFstate_dataCap (f : FState) : (s.setFstate f).dataCap = s.dataCap := rfl
@[simp] theorem State.setFstate_waveCap (f : FState) : (s.setFstate f).waveCap = s.waveCap := rfl
@[simp] theorem State.setFstate_pending (f : FState) : (s.setFstate f).pending = s.pending := rfl
@[simp] theorem State.setFstate_reads (f : FState) : (s.setFstate f).reads = s.reads := rfl
@[simp] theorem State.setFstate_freeCtr (f : FState) : (s.setFstate f).freeCtr = s.freeCtr := rfl

/-! `State.setWaveOut`. -/

@[simp] theorem State.setWaveOut_mode (m : Memory 16) (n : Word) : (s.setWaveOut m n).mode = s.mode := rfl
@[simp] theorem State.setWaveOut_symbolRate (m : Memory 16) (n : Word) : (s.setWaveOut m n).symbolRate = s.symbolRate := rfl
@[simp] theorem State.setWaveOut_freqLow (m : Memory 16) (n : Word) : (s.setWaveOut m n).freqLow = s.freqLow := rfl
@[simp] theorem State.setWaveOut_freqHigh (m : Memory 16) (n : Word) : (s.setWaveOut m n).freqHigh = s.freqHigh := rfl
@[simp] theorem State.setWaveOut_freqEnd (m : Memory 16) (n : Word) : (s.setWaveOut m n).freqEnd = s.freqEnd := rfl
@[simp] theorem State.setWaveOut_endRepeat (m : Memory 16) (n : Word) : (s.setWaveOut m n).endRepeat = s.endRepeat := rfl
@[simp] theorem State.setWaveOut_inRate (m : Memory 16) (n : Word) : (s.setWaveOut m n).inRate = s.inRate := rfl
@[simp] theorem State.setWaveOut_nsym (m : Memory 16) (n : Word) : (s.setWaveOut m n).nsym = s.nsym := rfl
@[simp] theorem State.setWaveOut_fstate (m : Memory 16) (n : Word) : (s.setWaveOut m n).fstate = s.fstate := rfl
@[simp] theorem State.setWaveOut_cursor (m : Memory 16) (n : Word) : (s.setWaveOut m n).cursor = s.cursor := rfl
@[simp] theorem State.setWaveOut_byte (m : Memory 16) (n : Word) : (s.setWaveOut m n).byte = s.byte := rfl
@[simp] theorem State.setWaveOut_cw (m : Memory 16) (n : Word) : (s.setWaveOut m n).cw = s.cw := rfl
@[simp] theorem State.setWaveOut_syn (m : Memory 16) (n : Word) : (s.setWaveOut m n).syn = s.syn := rfl
@[simp] theorem State.setWaveOut_sym (m : Memory 16) (n : Word) : (s.setWaveOut m n).sym = s.sym := rfl
@[simp] theorem State.setWaveOut_bin (m : Memory 16) (n : Word) : (s.setWaveOut m n).bin = s.bin := rfl
@[simp] theorem State.setWaveOut_status (m : Memory 16) (n : Word) : (s.setWaveOut m n).status = s.status := rfl
@[simp] theorem State.setWaveOut_extInLen (m : Memory 16) (n : Word) : (s.setWaveOut m n).extInLen = s.extInLen := rfl
@[simp] theorem State.setWaveOut_dataInLen (m : Memory 16) (n : Word) : (s.setWaveOut m n).dataInLen = s.dataInLen := rfl
@[simp] theorem State.setWaveOut_waveInLen (m : Memory 16) (n : Word) : (s.setWaveOut m n).waveInLen = s.waveInLen := rfl
@[simp] theorem State.setWaveOut_extOutLen (m : Memory 16) (n : Word) : (s.setWaveOut m n).extOutLen = s.extOutLen := rfl
@[simp] theorem State.setWaveOut_dataOutLen (m : Memory 16) (n : Word) : (s.setWaveOut m n).dataOutLen = s.dataOutLen := rfl
@[simp] theorem State.setWaveOut_waveOutLen (m : Memory 16) (n : Word) : (s.setWaveOut m n).waveOutLen = n := rfl
@[simp] theorem State.setWaveOut_bufSel (m : Memory 16) (n : Word) : (s.setWaveOut m n).bufSel = s.bufSel := rfl
@[simp] theorem State.setWaveOut_bufIdx (m : Memory 16) (n : Word) : (s.setWaveOut m n).bufIdx = s.bufIdx := rfl
@[simp] theorem State.setWaveOut_extIn (m : Memory 16) (n : Word) : (s.setWaveOut m n).extIn = s.extIn := rfl
@[simp] theorem State.setWaveOut_dataIn (m : Memory 16) (n : Word) : (s.setWaveOut m n).dataIn = s.dataIn := rfl
@[simp] theorem State.setWaveOut_waveIn (m : Memory 16) (n : Word) : (s.setWaveOut m n).waveIn = s.waveIn := rfl
@[simp] theorem State.setWaveOut_extOut (m : Memory 16) (n : Word) : (s.setWaveOut m n).extOut = s.extOut := rfl
@[simp] theorem State.setWaveOut_dataOut (m : Memory 16) (n : Word) : (s.setWaveOut m n).dataOut = s.dataOut := rfl
@[simp] theorem State.setWaveOut_waveOut (m : Memory 16) (n : Word) : (s.setWaveOut m n).waveOut = m := rfl
@[simp] theorem State.setWaveOut_extCap (m : Memory 16) (n : Word) : (s.setWaveOut m n).extCap = s.extCap := rfl
@[simp] theorem State.setWaveOut_dataCap (m : Memory 16) (n : Word) : (s.setWaveOut m n).dataCap = s.dataCap := rfl
@[simp] theorem State.setWaveOut_waveCap (m : Memory 16) (n : Word) : (s.setWaveOut m n).waveCap = s.waveCap := rfl
@[simp] theorem State.setWaveOut_pending (m : Memory 16) (n : Word) : (s.setWaveOut m n).pending = s.pending := rfl
@[simp] theorem State.setWaveOut_reads (m : Memory 16) (n : Word) : (s.setWaveOut m n).reads = s.reads := rfl
@[simp] theorem State.setWaveOut_freeCtr (m : Memory 16) (n : Word) : (s.setWaveOut m n).freeCtr = s.freeCtr := rfl

/-! `State.clearOutputs`. -/

@[simp] theorem State.clearOutputs_mode : (s.clearOutputs).mode = s.mode := rfl
@[simp] theorem State.clearOutputs_symbolRate : (s.clearOutputs).symbolRate = s.symbolRate := rfl
@[simp] theorem State.clearOutputs_freqLow : (s.clearOutputs).freqLow = s.freqLow := rfl
@[simp] theorem State.clearOutputs_freqHigh : (s.clearOutputs).freqHigh = s.freqHigh := rfl
@[simp] theorem State.clearOutputs_freqEnd : (s.clearOutputs).freqEnd = s.freqEnd := rfl
@[simp] theorem State.clearOutputs_endRepeat : (s.clearOutputs).endRepeat = s.endRepeat := rfl
@[simp] theorem State.clearOutputs_inRate : (s.clearOutputs).inRate = s.inRate := rfl
@[simp] theorem State.clearOutputs_nsym : (s.clearOutputs).nsym = s.nsym := rfl
@[simp] theorem State.clearOutputs_fstate : (s.clearOutputs).fstate = s.fstate := rfl
@[simp] theorem State.clearOutputs_cursor : (s.clearOutputs).cursor = s.cursor := rfl
@[simp] theorem State.clearOutputs_byte : (s.clearOutputs).byte = s.byte := rfl
@[simp] theorem State.clearOutputs_cw : (s.clearOutputs).cw = s.cw := rfl
@[simp] theorem State.clearOutputs_syn : (s.clearOutputs).syn = s.syn := rfl
@[simp] theorem State.clearOutputs_sym : (s.clearOutputs).sym = s.sym := rfl
@[simp] theorem State.clearOutputs_bin : (s.clearOutputs).bin = s.bin := rfl
@[simp] theorem State.clearOutputs_status : (s.clearOutputs).status = s.status := rfl
@[simp] theorem State.clearOutputs_extInLen : (s.clearOutputs).extInLen = s.extInLen := rfl
@[simp] theorem State.clearOutputs_dataInLen : (s.clearOutputs).dataInLen = s.dataInLen := rfl
@[simp] theorem State.clearOutputs_waveInLen : (s.clearOutputs).waveInLen = s.waveInLen := rfl
@[simp] theorem State.clearOutputs_extOutLen : (s.clearOutputs).extOutLen = 0#32 := rfl
@[simp] theorem State.clearOutputs_dataOutLen : (s.clearOutputs).dataOutLen = 0#32 := rfl
@[simp] theorem State.clearOutputs_waveOutLen : (s.clearOutputs).waveOutLen = s.waveOutLen := rfl
@[simp] theorem State.clearOutputs_bufSel : (s.clearOutputs).bufSel = s.bufSel := rfl
@[simp] theorem State.clearOutputs_bufIdx : (s.clearOutputs).bufIdx = s.bufIdx := rfl
@[simp] theorem State.clearOutputs_extIn : (s.clearOutputs).extIn = s.extIn := rfl
@[simp] theorem State.clearOutputs_dataIn : (s.clearOutputs).dataIn = s.dataIn := rfl
@[simp] theorem State.clearOutputs_waveIn : (s.clearOutputs).waveIn = s.waveIn := rfl
@[simp] theorem State.clearOutputs_extOut : (s.clearOutputs).extOut = s.extOut := rfl
@[simp] theorem State.clearOutputs_dataOut : (s.clearOutputs).dataOut = s.dataOut := rfl
@[simp] theorem State.clearOutputs_waveOut : (s.clearOutputs).waveOut = s.waveOut := rfl
@[simp] theorem State.clearOutputs_extCap : (s.clearOutputs).extCap = s.extCap := rfl
@[simp] theorem State.clearOutputs_dataCap : (s.clearOutputs).dataCap = s.dataCap := rfl
@[simp] theorem State.clearOutputs_waveCap : (s.clearOutputs).waveCap = s.waveCap := rfl
@[simp] theorem State.clearOutputs_pending : (s.clearOutputs).pending = s.pending := rfl
@[simp] theorem State.clearOutputs_reads : (s.clearOutputs).reads = s.reads := rfl
@[simp] theorem State.clearOutputs_freeCtr : (s.clearOutputs).freeCtr = s.freeCtr := rfl

/-! `State.appendExtOut`. -/

@[simp] theorem State.appendExtOut_mode (b : Byte) : (s.appendExtOut b).mode = s.mode := rfl
@[simp] theorem State.appendExtOut_symbolRate (b : Byte) : (s.appendExtOut b).symbolRate = s.symbolRate := rfl
@[simp] theorem State.appendExtOut_freqLow (b : Byte) : (s.appendExtOut b).freqLow = s.freqLow := rfl
@[simp] theorem State.appendExtOut_freqHigh (b : Byte) : (s.appendExtOut b).freqHigh = s.freqHigh := rfl
@[simp] theorem State.appendExtOut_freqEnd (b : Byte) : (s.appendExtOut b).freqEnd = s.freqEnd := rfl
@[simp] theorem State.appendExtOut_endRepeat (b : Byte) : (s.appendExtOut b).endRepeat = s.endRepeat := rfl
@[simp] theorem State.appendExtOut_inRate (b : Byte) : (s.appendExtOut b).inRate = s.inRate := rfl
@[simp] theorem State.appendExtOut_nsym (b : Byte) : (s.appendExtOut b).nsym = s.nsym := rfl
@[simp] theorem State.appendExtOut_fstate (b : Byte) : (s.appendExtOut b).fstate = s.fstate := rfl
@[simp] theorem State.appendExtOut_cursor (b : Byte) : (s.appendExtOut b).cursor = s.cursor := rfl
@[simp] theorem State.appendExtOut_byte (b : Byte) : (s.appendExtOut b).byte = s.byte := rfl
@[simp] theorem State.appendExtOut_cw (b : Byte) : (s.appendExtOut b).cw = s.cw := rfl
@[simp] theorem State.appendExtOut_syn (b : Byte) : (s.appendExtOut b).syn = s.syn := rfl
@[simp] theorem State.appendExtOut_sym (b : Byte) : (s.appendExtOut b).sym = s.sym := rfl
@[simp] theorem State.appendExtOut_bin (b : Byte) : (s.appendExtOut b).bin = s.bin := rfl
@[simp] theorem State.appendExtOut_status (b : Byte) : (s.appendExtOut b).status = s.status := rfl
@[simp] theorem State.appendExtOut_extInLen (b : Byte) : (s.appendExtOut b).extInLen = s.extInLen := rfl
@[simp] theorem State.appendExtOut_dataInLen (b : Byte) : (s.appendExtOut b).dataInLen = s.dataInLen := rfl
@[simp] theorem State.appendExtOut_waveInLen (b : Byte) : (s.appendExtOut b).waveInLen = s.waveInLen := rfl
@[simp] theorem State.appendExtOut_extOutLen (b : Byte) : (s.appendExtOut b).extOutLen = s.extOutLen + 1#32 := rfl
@[simp] theorem State.appendExtOut_dataOutLen (b : Byte) : (s.appendExtOut b).dataOutLen = s.dataOutLen := rfl
@[simp] theorem State.appendExtOut_waveOutLen (b : Byte) : (s.appendExtOut b).waveOutLen = s.waveOutLen := rfl
@[simp] theorem State.appendExtOut_bufSel (b : Byte) : (s.appendExtOut b).bufSel = s.bufSel := rfl
@[simp] theorem State.appendExtOut_bufIdx (b : Byte) : (s.appendExtOut b).bufIdx = s.bufIdx := rfl
@[simp] theorem State.appendExtOut_extIn (b : Byte) : (s.appendExtOut b).extIn = s.extIn := rfl
@[simp] theorem State.appendExtOut_dataIn (b : Byte) : (s.appendExtOut b).dataIn = s.dataIn := rfl
@[simp] theorem State.appendExtOut_waveIn (b : Byte) : (s.appendExtOut b).waveIn = s.waveIn := rfl
@[simp] theorem State.appendExtOut_extOut (b : Byte) : (s.appendExtOut b).extOut = s.extOut.write s.extOutLen.toNat b := rfl
@[simp] theorem State.appendExtOut_dataOut (b : Byte) : (s.appendExtOut b).dataOut = s.dataOut := rfl
@[simp] theorem State.appendExtOut_waveOut (b : Byte) : (s.appendExtOut b).waveOut = s.waveOut := rfl
@[simp] theorem State.appendExtOut_extCap (b : Byte) : (s.appendExtOut b).extCap = s.extCap := rfl
@[simp] theorem State.appendExtOut_dataCap (b : Byte) : (s.appendExtOut b).dataCap = s.dataCap := rfl
@[simp] theorem State.appendExtOut_waveCap (b : Byte) : (s.appendExtOut b).waveCap = s.waveCap := rfl
@[simp] theorem State.appendExtOut_pending (b : Byte) : (s.appendExtOut b).pending = s.pending := rfl
@[simp] theorem State.appendExtOut_reads (b : Byte) : (s.appendExtOut b).reads = s.reads := rfl
@[simp] theorem State.appendExtOut_freeCtr (b : Byte) : (s.appendExtOut b).freeCtr = s.freeCtr := rfl

/-! `State.appendDataOut`. -/

@[simp] theorem State.appendDataOut_mode (b : Byte) : (s.appendDataOut b).mode = s.mode := rfl
@[simp] theorem State.appendDataOut_symbolRate (b : Byte) : (s.appendDataOut b).symbolRate = s.symbolRate := rfl
@[simp] theorem State.appendDataOut_freqLow (b : Byte) : (s.appendDataOut b).freqLow = s.freqLow := rfl
@[simp] theorem State.appendDataOut_freqHigh (b : Byte) : (s.appendDataOut b).freqHigh = s.freqHigh := rfl
@[simp] theorem State.appendDataOut_freqEnd (b : Byte) : (s.appendDataOut b).freqEnd = s.freqEnd := rfl
@[simp] theorem State.appendDataOut_endRepeat (b : Byte) : (s.appendDataOut b).endRepeat = s.endRepeat := rfl
@[simp] theorem State.appendDataOut_inRate (b : Byte) : (s.appendDataOut b).inRate = s.inRate := rfl
@[simp] theorem State.appendDataOut_nsym (b : Byte) : (s.appendDataOut b).nsym = s.nsym := rfl
@[simp] theorem State.appendDataOut_fstate (b : Byte) : (s.appendDataOut b).fstate = s.fstate := rfl
@[simp] theorem State.appendDataOut_cursor (b : Byte) : (s.appendDataOut b).cursor = s.cursor := rfl
@[simp] theorem State.appendDataOut_byte (b : Byte) : (s.appendDataOut b).byte = s.byte := rfl
@[simp] theorem State.appendDataOut_cw (b : Byte) : (s.appendDataOut b).cw = s.cw := rfl
@[simp] theorem State.appendDataOut_syn (b : Byte) : (s.appendDataOut b).syn = s.syn := rfl
@[simp] theorem State.appendDataOut_sym (b : Byte) : (s.appendDataOut b).sym = s.sym := rfl
@[simp] theorem State.appendDataOut_bin (b : Byte) : (s.appendDataOut b).bin = s.bin := rfl
@[simp] theorem State.appendDataOut_status (b : Byte) : (s.appendDataOut b).status = s.status := rfl
@[simp] theorem State.appendDataOut_extInLen (b : Byte) : (s.appendDataOut b).extInLen = s.extInLen := rfl
@[simp] theorem State.appendDataOut_dataInLen (b : Byte) : (s.appendDataOut b).dataInLen = s.dataInLen := rfl
@[simp] theorem State.appendDataOut_waveInLen (b : Byte) : (s.appendDataOut b).waveInLen = s.waveInLen := rfl
@[simp] theorem State.appendDataOut_extOutLen (b : Byte) : (s.appendDataOut b).extOutLen = s.extOutLen := rfl
@[simp] theorem State.appendDataOut_dataOutLen (b : Byte) : (s.appendDataOut b).dataOutLen = s.dataOutLen + 1#32 := rfl
@[simp] theorem State.appendDataOut_waveOutLen (b : Byte) : (s.appendDataOut b).waveOutLen = s.waveOutLen := rfl
@[simp] theorem State.appendDataOut_bufSel (b : Byte) : (s.appendDataOut b).bufSel = s.bufSel := rfl
@[simp] theorem State.appendDataOut_bufIdx (b : Byte) : (s.appendDataOut b).bufIdx = s.bufIdx := rfl
@[simp] theorem State.appendDataOut_extIn (b : Byte) : (s.appendDataOut b).extIn = s.extIn := rfl
@[simp] theorem State.appendDataOut_dataIn (b : Byte) : (s.appendDataOut b).dataIn = s.dataIn := rfl
@[simp] theorem State.appendDataOut_waveIn (b : Byte) : (s.appendDataOut b).waveIn = s.waveIn := rfl
@[simp] theorem State.appendDataOut_extOut (b : Byte) : (s.appendDataOut b).extOut = s.extOut := rfl
@[simp] theorem State.appendDataOut_dataOut (b : Byte) : (s.appendDataOut b).dataOut = s.dataOut.write s.dataOutLen.toNat b := rfl
@[simp] theorem State.appendDataOut_waveOut (b : Byte) : (s.appendDataOut b).waveOut = s.waveOut := rfl
@[simp] theorem State.appendDataOut_extCap (b : Byte) : (s.appendDataOut b).extCap = s.extCap := rfl
@[simp] theorem State.appendDataOut_dataCap (b : Byte) : (s.appendDataOut b).dataCap = s.dataCap := rfl
@[simp] theorem State.appendDataOut_waveCap (b : Byte) : (s.appendDataOut b).waveCap = s.waveCap := rfl
@[simp] theorem State.appendDataOut_pending (b : Byte) : (s.appendDataOut b).pending = s.pending := rfl
@[simp] theorem State.appendDataOut_reads (b : Byte) : (s.appendDataOut b).reads = s.reads := rfl
@[simp] theorem State.appendDataOut_freeCtr (b : Byte) : (s.appendDataOut b).freeCtr = s.freeCtr := rfl

/-! `State.take`. -/

@[simp] theorem State.take_mode (rest : List HostAction) : (s.take rest).mode = s.mode := rfl
@[simp] theorem State.take_symbolRate (rest : List HostAction) : (s.take rest).symbolRate = s.symbolRate := rfl
@[simp] theorem State.take_freqLow (rest : List HostAction) : (s.take rest).freqLow = s.freqLow := rfl
@[simp] theorem State.take_freqHigh (rest : List HostAction) : (s.take rest).freqHigh = s.freqHigh := rfl
@[simp] theorem State.take_freqEnd (rest : List HostAction) : (s.take rest).freqEnd = s.freqEnd := rfl
@[simp] theorem State.take_endRepeat (rest : List HostAction) : (s.take rest).endRepeat = s.endRepeat := rfl
@[simp] theorem State.take_inRate (rest : List HostAction) : (s.take rest).inRate = s.inRate := rfl
@[simp] theorem State.take_nsym (rest : List HostAction) : (s.take rest).nsym = s.nsym := rfl
@[simp] theorem State.take_fstate (rest : List HostAction) : (s.take rest).fstate = s.fstate := rfl
@[simp] theorem State.take_cursor (rest : List HostAction) : (s.take rest).cursor = s.cursor := rfl
@[simp] theorem State.take_byte (rest : List HostAction) : (s.take rest).byte = s.byte := rfl
@[simp] theorem State.take_cw (rest : List HostAction) : (s.take rest).cw = s.cw := rfl
@[simp] theorem State.take_syn (rest : List HostAction) : (s.take rest).syn = s.syn := rfl
@[simp] theorem State.take_sym (rest : List HostAction) : (s.take rest).sym = s.sym := rfl
@[simp] theorem State.take_bin (rest : List HostAction) : (s.take rest).bin = s.bin := rfl
@[simp] theorem State.take_status (rest : List HostAction) : (s.take rest).status = s.status := rfl
@[simp] theorem State.take_extInLen (rest : List HostAction) : (s.take rest).extInLen = s.extInLen := rfl
@[simp] theorem State.take_dataInLen (rest : List HostAction) : (s.take rest).dataInLen = s.dataInLen := rfl
@[simp] theorem State.take_waveInLen (rest : List HostAction) : (s.take rest).waveInLen = s.waveInLen := rfl
@[simp] theorem State.take_extOutLen (rest : List HostAction) : (s.take rest).extOutLen = s.extOutLen := rfl
@[simp] theorem State.take_dataOutLen (rest : List HostAction) : (s.take rest).dataOutLen = s.dataOutLen := rfl
@[simp] theorem State.take_waveOutLen (rest : List HostAction) : (s.take rest).waveOutLen = s.waveOutLen := rfl
@[simp] theorem State.take_bufSel (rest : List HostAction) : (s.take rest).bufSel = s.bufSel := rfl
@[simp] theorem State.take_bufIdx (rest : List HostAction) : (s.take rest).bufIdx = s.bufIdx := rfl
@[simp] theorem State.take_extIn (rest : List HostAction) : (s.take rest).extIn = s.extIn := rfl
@[simp] theorem State.take_dataIn (rest : List HostAction) : (s.take rest).dataIn = s.dataIn := rfl
@[simp] theorem State.take_waveIn (rest : List HostAction) : (s.take rest).waveIn = s.waveIn := rfl
@[simp] theorem State.take_extOut (rest : List HostAction) : (s.take rest).extOut = s.extOut := rfl
@[simp] theorem State.take_dataOut (rest : List HostAction) : (s.take rest).dataOut = s.dataOut := rfl
@[simp] theorem State.take_waveOut (rest : List HostAction) : (s.take rest).waveOut = s.waveOut := rfl
@[simp] theorem State.take_extCap (rest : List HostAction) : (s.take rest).extCap = s.extCap := rfl
@[simp] theorem State.take_dataCap (rest : List HostAction) : (s.take rest).dataCap = s.dataCap := rfl
@[simp] theorem State.take_waveCap (rest : List HostAction) : (s.take rest).waveCap = s.waveCap := rfl
@[simp] theorem State.take_pending (rest : List HostAction) : (s.take rest).pending = rest := rfl
@[simp] theorem State.take_reads (rest : List HostAction) : (s.take rest).reads = s.reads := rfl
@[simp] theorem State.take_freeCtr (rest : List HostAction) : (s.take rest).freeCtr = s.freeCtr + 1 := rfl

end Sys2Proof.Machine
end

