-- ==== Sys2Proof/Laws/Views.lean ====
section
/-! SUPPORT. What a command reads of its configuration and of WAVE_IN does not change under the updates it makes. -/

namespace Sys2Proof.Machine

variable (s : State)

/-! `State.setStatus`. -/

@[simp] theorem State.setStatus_cfgOk (st : BitVec 12) : (s.setStatus st).cfgOk = s.cfgOk := rfl
@[simp] theorem State.setStatus_phaseMod (st : BitVec 12) : (s.setStatus st).phaseMod = s.phaseMod := rfl
@[simp] theorem State.setStatus_freq (st : BitVec 12) (z : Symbol) : (s.setStatus st).freq z = s.freq z := rfl
@[simp] theorem State.setStatus_waveInAt (st : BitVec 12) (i : Nat) : (s.setStatus st).waveInAt i = s.waveInAt i := rfl
@[simp] theorem State.setStatus_remaining (st : BitVec 12) (i : Nat) : (s.setStatus st).remaining i = s.remaining i := rfl
@[simp] theorem State.setStatus_avail (st : BitVec 12) (i L : Nat) : (s.setStatus st).avail i L = s.avail i L := rfl
@[simp] theorem State.setStatus_window (st : BitVec 12) (i : Nat) : (s.setStatus st).window i = s.window i := rfl
@[simp] theorem State.setStatus_tonePhases (st : BitVec 12) (z : Symbol) : (s.setStatus st).tonePhases z = s.tonePhases z := rfl
@[simp] theorem State.setStatus_peakPhase (st : BitVec 12) (u : List Symbol) : (s.setStatus st).peakPhase u = s.peakPhase u := rfl
@[simp] theorem State.setStatus_zeroPeak (st : BitVec 12) (u : List Symbol) : (s.setStatus st).zeroPeak u = s.zeroPeak u := rfl
@[simp] theorem State.setStatus_waveSamples (st : BitVec 12) (u : List Symbol) : (s.setStatus st).waveSamples u = s.waveSamples u := rfl
@[simp] theorem State.setStatus_decodeSymbol (st : BitVec 12) (w : List Int) : (s.setStatus st).decodeSymbol w = s.decodeSymbol w := rfl
@[simp] theorem State.setStatus_symbolAt (st : BitVec 12) (i j : Nat) : (s.setStatus st).symbolAt i j = s.symbolAt i j := rfl
@[simp] theorem State.setStatus_binAt (st : BitVec 12) (i j : Nat) : (s.setStatus st).binAt i j = s.binAt i j := rfl

/-! `State.setSymBin`. -/

@[simp] theorem State.setSymBin_cfgOk (x : Symbol) (k : Word) : (s.setSymBin x k).cfgOk = s.cfgOk := rfl
@[simp] theorem State.setSymBin_phaseMod (x : Symbol) (k : Word) : (s.setSymBin x k).phaseMod = s.phaseMod := rfl
@[simp] theorem State.setSymBin_freq (x : Symbol) (k : Word) (z : Symbol) : (s.setSymBin x k).freq z = s.freq z := rfl
@[simp] theorem State.setSymBin_waveInAt (x : Symbol) (k : Word) (i : Nat) : (s.setSymBin x k).waveInAt i = s.waveInAt i := rfl
@[simp] theorem State.setSymBin_remaining (x : Symbol) (k : Word) (i : Nat) : (s.setSymBin x k).remaining i = s.remaining i := rfl
@[simp] theorem State.setSymBin_avail (x : Symbol) (k : Word) (i L : Nat) : (s.setSymBin x k).avail i L = s.avail i L := rfl
@[simp] theorem State.setSymBin_window (x : Symbol) (k : Word) (i : Nat) : (s.setSymBin x k).window i = s.window i := rfl
@[simp] theorem State.setSymBin_tonePhases (x : Symbol) (k : Word) (z : Symbol) : (s.setSymBin x k).tonePhases z = s.tonePhases z := rfl
@[simp] theorem State.setSymBin_peakPhase (x : Symbol) (k : Word) (u : List Symbol) : (s.setSymBin x k).peakPhase u = s.peakPhase u := rfl
@[simp] theorem State.setSymBin_zeroPeak (x : Symbol) (k : Word) (u : List Symbol) : (s.setSymBin x k).zeroPeak u = s.zeroPeak u := rfl
@[simp] theorem State.setSymBin_waveSamples (x : Symbol) (k : Word) (u : List Symbol) : (s.setSymBin x k).waveSamples u = s.waveSamples u := rfl
@[simp] theorem State.setSymBin_decodeSymbol (x : Symbol) (k : Word) (w : List Int) : (s.setSymBin x k).decodeSymbol w = s.decodeSymbol w := rfl
@[simp] theorem State.setSymBin_symbolAt (x : Symbol) (k : Word) (i j : Nat) : (s.setSymBin x k).symbolAt i j = s.symbolAt i j := rfl
@[simp] theorem State.setSymBin_binAt (x : Symbol) (k : Word) (i j : Nat) : (s.setSymBin x k).binAt i j = s.binAt i j := rfl

/-! `State.setByte`. -/

@[simp] theorem State.setByte_cfgOk (b : Byte) : (s.setByte b).cfgOk = s.cfgOk := rfl
@[simp] theorem State.setByte_phaseMod (b : Byte) : (s.setByte b).phaseMod = s.phaseMod := rfl
@[simp] theorem State.setByte_freq (b : Byte) (z : Symbol) : (s.setByte b).freq z = s.freq z := rfl
@[simp] theorem State.setByte_waveInAt (b : Byte) (i : Nat) : (s.setByte b).waveInAt i = s.waveInAt i := rfl
@[simp] theorem State.setByte_remaining (b : Byte) (i : Nat) : (s.setByte b).remaining i = s.remaining i := rfl
@[simp] theorem State.setByte_avail (b : Byte) (i L : Nat) : (s.setByte b).avail i L = s.avail i L := rfl
@[simp] theorem State.setByte_window (b : Byte) (i : Nat) : (s.setByte b).window i = s.window i := rfl
@[simp] theorem State.setByte_tonePhases (b : Byte) (z : Symbol) : (s.setByte b).tonePhases z = s.tonePhases z := rfl
@[simp] theorem State.setByte_peakPhase (b : Byte) (u : List Symbol) : (s.setByte b).peakPhase u = s.peakPhase u := rfl
@[simp] theorem State.setByte_zeroPeak (b : Byte) (u : List Symbol) : (s.setByte b).zeroPeak u = s.zeroPeak u := rfl
@[simp] theorem State.setByte_waveSamples (b : Byte) (u : List Symbol) : (s.setByte b).waveSamples u = s.waveSamples u := rfl
@[simp] theorem State.setByte_decodeSymbol (b : Byte) (w : List Int) : (s.setByte b).decodeSymbol w = s.decodeSymbol w := rfl
@[simp] theorem State.setByte_symbolAt (b : Byte) (i j : Nat) : (s.setByte b).symbolAt i j = s.symbolAt i j := rfl
@[simp] theorem State.setByte_binAt (b : Byte) (i j : Nat) : (s.setByte b).binAt i j = s.binAt i j := rfl

/-! `State.setCode`. -/

@[simp] theorem State.setCode_cfgOk (c : Codeword) (y : BitVec 4) : (s.setCode c y).cfgOk = s.cfgOk := rfl
@[simp] theorem State.setCode_phaseMod (c : Codeword) (y : BitVec 4) : (s.setCode c y).phaseMod = s.phaseMod := rfl
@[simp] theorem State.setCode_freq (c : Codeword) (y : BitVec 4) (z : Symbol) : (s.setCode c y).freq z = s.freq z := rfl
@[simp] theorem State.setCode_waveInAt (c : Codeword) (y : BitVec 4) (i : Nat) : (s.setCode c y).waveInAt i = s.waveInAt i := rfl
@[simp] theorem State.setCode_remaining (c : Codeword) (y : BitVec 4) (i : Nat) : (s.setCode c y).remaining i = s.remaining i := rfl
@[simp] theorem State.setCode_avail (c : Codeword) (y : BitVec 4) (i L : Nat) : (s.setCode c y).avail i L = s.avail i L := rfl
@[simp] theorem State.setCode_window (c : Codeword) (y : BitVec 4) (i : Nat) : (s.setCode c y).window i = s.window i := rfl
@[simp] theorem State.setCode_tonePhases (c : Codeword) (y : BitVec 4) (z : Symbol) : (s.setCode c y).tonePhases z = s.tonePhases z := rfl
@[simp] theorem State.setCode_peakPhase (c : Codeword) (y : BitVec 4) (u : List Symbol) : (s.setCode c y).peakPhase u = s.peakPhase u := rfl
@[simp] theorem State.setCode_zeroPeak (c : Codeword) (y : BitVec 4) (u : List Symbol) : (s.setCode c y).zeroPeak u = s.zeroPeak u := rfl
@[simp] theorem State.setCode_waveSamples (c : Codeword) (y : BitVec 4) (u : List Symbol) : (s.setCode c y).waveSamples u = s.waveSamples u := rfl
@[simp] theorem State.setCode_decodeSymbol (c : Codeword) (y : BitVec 4) (w : List Int) : (s.setCode c y).decodeSymbol w = s.decodeSymbol w := rfl
@[simp] theorem State.setCode_symbolAt (c : Codeword) (y : BitVec 4) (i j : Nat) : (s.setCode c y).symbolAt i j = s.symbolAt i j := rfl
@[simp] theorem State.setCode_binAt (c : Codeword) (y : BitVec 4) (i j : Nat) : (s.setCode c y).binAt i j = s.binAt i j := rfl

/-! `State.setCursor`. -/

@[simp] theorem State.setCursor_cfgOk (c : Word) : (s.setCursor c).cfgOk = s.cfgOk := rfl
@[simp] theorem State.setCursor_phaseMod (c : Word) : (s.setCursor c).phaseMod = s.phaseMod := rfl
@[simp] theorem State.setCursor_freq (c : Word) (z : Symbol) : (s.setCursor c).freq z = s.freq z := rfl
@[simp] theorem State.setCursor_waveInAt (c : Word) (i : Nat) : (s.setCursor c).waveInAt i = s.waveInAt i := rfl
@[simp] theorem State.setCursor_remaining (c : Word) (i : Nat) : (s.setCursor c).remaining i = s.remaining i := rfl
@[simp] theorem State.setCursor_avail (c : Word) (i L : Nat) : (s.setCursor c).avail i L = s.avail i L := rfl
@[simp] theorem State.setCursor_window (c : Word) (i : Nat) : (s.setCursor c).window i = s.window i := rfl
@[simp] theorem State.setCursor_tonePhases (c : Word) (z : Symbol) : (s.setCursor c).tonePhases z = s.tonePhases z := rfl
@[simp] theorem State.setCursor_peakPhase (c : Word) (u : List Symbol) : (s.setCursor c).peakPhase u = s.peakPhase u := rfl
@[simp] theorem State.setCursor_zeroPeak (c : Word) (u : List Symbol) : (s.setCursor c).zeroPeak u = s.zeroPeak u := rfl
@[simp] theorem State.setCursor_waveSamples (c : Word) (u : List Symbol) : (s.setCursor c).waveSamples u = s.waveSamples u := rfl
@[simp] theorem State.setCursor_decodeSymbol (c : Word) (w : List Int) : (s.setCursor c).decodeSymbol w = s.decodeSymbol w := rfl
@[simp] theorem State.setCursor_symbolAt (c : Word) (i j : Nat) : (s.setCursor c).symbolAt i j = s.symbolAt i j := rfl
@[simp] theorem State.setCursor_binAt (c : Word) (i j : Nat) : (s.setCursor c).binAt i j = s.binAt i j := rfl

/-! `State.setFstate`. -/

@[simp] theorem State.setFstate_cfgOk (f : FState) : (s.setFstate f).cfgOk = s.cfgOk := rfl
@[simp] theorem State.setFstate_phaseMod (f : FState) : (s.setFstate f).phaseMod = s.phaseMod := rfl
@[simp] theorem State.setFstate_freq (f : FState) (z : Symbol) : (s.setFstate f).freq z = s.freq z := rfl
@[simp] theorem State.setFstate_waveInAt (f : FState) (i : Nat) : (s.setFstate f).waveInAt i = s.waveInAt i := rfl
@[simp] theorem State.setFstate_remaining (f : FState) (i : Nat) : (s.setFstate f).remaining i = s.remaining i := rfl
@[simp] theorem State.setFstate_avail (f : FState) (i L : Nat) : (s.setFstate f).avail i L = s.avail i L := rfl
@[simp] theorem State.setFstate_window (f : FState) (i : Nat) : (s.setFstate f).window i = s.window i := rfl
@[simp] theorem State.setFstate_tonePhases (f : FState) (z : Symbol) : (s.setFstate f).tonePhases z = s.tonePhases z := rfl
@[simp] theorem State.setFstate_peakPhase (f : FState) (u : List Symbol) : (s.setFstate f).peakPhase u = s.peakPhase u := rfl
@[simp] theorem State.setFstate_zeroPeak (f : FState) (u : List Symbol) : (s.setFstate f).zeroPeak u = s.zeroPeak u := rfl
@[simp] theorem State.setFstate_waveSamples (f : FState) (u : List Symbol) : (s.setFstate f).waveSamples u = s.waveSamples u := rfl
@[simp] theorem State.setFstate_decodeSymbol (f : FState) (w : List Int) : (s.setFstate f).decodeSymbol w = s.decodeSymbol w := rfl
@[simp] theorem State.setFstate_symbolAt (f : FState) (i j : Nat) : (s.setFstate f).symbolAt i j = s.symbolAt i j := rfl
@[simp] theorem State.setFstate_binAt (f : FState) (i j : Nat) : (s.setFstate f).binAt i j = s.binAt i j := rfl

/-! `State.setWaveOut`. -/

@[simp] theorem State.setWaveOut_cfgOk (m : Memory 16) (n : Word) : (s.setWaveOut m n).cfgOk = s.cfgOk := rfl
@[simp] theorem State.setWaveOut_phaseMod (m : Memory 16) (n : Word) : (s.setWaveOut m n).phaseMod = s.phaseMod := rfl
@[simp] theorem State.setWaveOut_freq (m : Memory 16) (n : Word) (z : Symbol) : (s.setWaveOut m n).freq z = s.freq z := rfl
@[simp] theorem State.setWaveOut_waveInAt (m : Memory 16) (n : Word) (i : Nat) : (s.setWaveOut m n).waveInAt i = s.waveInAt i := rfl
@[simp] theorem State.setWaveOut_remaining (m : Memory 16) (n : Word) (i : Nat) : (s.setWaveOut m n).remaining i = s.remaining i := rfl
@[simp] theorem State.setWaveOut_avail (m : Memory 16) (n : Word) (i L : Nat) : (s.setWaveOut m n).avail i L = s.avail i L := rfl
@[simp] theorem State.setWaveOut_window (m : Memory 16) (n : Word) (i : Nat) : (s.setWaveOut m n).window i = s.window i := rfl
@[simp] theorem State.setWaveOut_tonePhases (m : Memory 16) (n : Word) (z : Symbol) : (s.setWaveOut m n).tonePhases z = s.tonePhases z := rfl
@[simp] theorem State.setWaveOut_peakPhase (m : Memory 16) (n : Word) (u : List Symbol) : (s.setWaveOut m n).peakPhase u = s.peakPhase u := rfl
@[simp] theorem State.setWaveOut_zeroPeak (m : Memory 16) (n : Word) (u : List Symbol) : (s.setWaveOut m n).zeroPeak u = s.zeroPeak u := rfl
@[simp] theorem State.setWaveOut_waveSamples (m : Memory 16) (n : Word) (u : List Symbol) : (s.setWaveOut m n).waveSamples u = s.waveSamples u := rfl
@[simp] theorem State.setWaveOut_decodeSymbol (m : Memory 16) (n : Word) (w : List Int) : (s.setWaveOut m n).decodeSymbol w = s.decodeSymbol w := rfl
@[simp] theorem State.setWaveOut_symbolAt (m : Memory 16) (n : Word) (i j : Nat) : (s.setWaveOut m n).symbolAt i j = s.symbolAt i j := rfl
@[simp] theorem State.setWaveOut_binAt (m : Memory 16) (n : Word) (i j : Nat) : (s.setWaveOut m n).binAt i j = s.binAt i j := rfl

/-! `State.clearOutputs`. -/

@[simp] theorem State.clearOutputs_cfgOk : (s.clearOutputs).cfgOk = s.cfgOk := rfl
@[simp] theorem State.clearOutputs_phaseMod : (s.clearOutputs).phaseMod = s.phaseMod := rfl
@[simp] theorem State.clearOutputs_freq (z : Symbol) : (s.clearOutputs).freq z = s.freq z := rfl
@[simp] theorem State.clearOutputs_waveInAt (i : Nat) : (s.clearOutputs).waveInAt i = s.waveInAt i := rfl
@[simp] theorem State.clearOutputs_remaining (i : Nat) : (s.clearOutputs).remaining i = s.remaining i := rfl
@[simp] theorem State.clearOutputs_avail (i L : Nat) : (s.clearOutputs).avail i L = s.avail i L := rfl
@[simp] theorem State.clearOutputs_window (i : Nat) : (s.clearOutputs).window i = s.window i := rfl
@[simp] theorem State.clearOutputs_tonePhases (z : Symbol) : (s.clearOutputs).tonePhases z = s.tonePhases z := rfl
@[simp] theorem State.clearOutputs_peakPhase (u : List Symbol) : (s.clearOutputs).peakPhase u = s.peakPhase u := rfl
@[simp] theorem State.clearOutputs_zeroPeak (u : List Symbol) : (s.clearOutputs).zeroPeak u = s.zeroPeak u := rfl
@[simp] theorem State.clearOutputs_waveSamples (u : List Symbol) : (s.clearOutputs).waveSamples u = s.waveSamples u := rfl
@[simp] theorem State.clearOutputs_decodeSymbol (w : List Int) : (s.clearOutputs).decodeSymbol w = s.decodeSymbol w := rfl
@[simp] theorem State.clearOutputs_symbolAt (i j : Nat) : (s.clearOutputs).symbolAt i j = s.symbolAt i j := rfl
@[simp] theorem State.clearOutputs_binAt (i j : Nat) : (s.clearOutputs).binAt i j = s.binAt i j := rfl

/-! `State.appendExtOut`. -/

@[simp] theorem State.appendExtOut_cfgOk (b : Byte) : (s.appendExtOut b).cfgOk = s.cfgOk := rfl
@[simp] theorem State.appendExtOut_phaseMod (b : Byte) : (s.appendExtOut b).phaseMod = s.phaseMod := rfl
@[simp] theorem State.appendExtOut_freq (b : Byte) (z : Symbol) : (s.appendExtOut b).freq z = s.freq z := rfl
@[simp] theorem State.appendExtOut_waveInAt (b : Byte) (i : Nat) : (s.appendExtOut b).waveInAt i = s.waveInAt i := rfl
@[simp] theorem State.appendExtOut_remaining (b : Byte) (i : Nat) : (s.appendExtOut b).remaining i = s.remaining i := rfl
@[simp] theorem State.appendExtOut_avail (b : Byte) (i L : Nat) : (s.appendExtOut b).avail i L = s.avail i L := rfl
@[simp] theorem State.appendExtOut_window (b : Byte) (i : Nat) : (s.appendExtOut b).window i = s.window i := rfl
@[simp] theorem State.appendExtOut_tonePhases (b : Byte) (z : Symbol) : (s.appendExtOut b).tonePhases z = s.tonePhases z := rfl
@[simp] theorem State.appendExtOut_peakPhase (b : Byte) (u : List Symbol) : (s.appendExtOut b).peakPhase u = s.peakPhase u := rfl
@[simp] theorem State.appendExtOut_zeroPeak (b : Byte) (u : List Symbol) : (s.appendExtOut b).zeroPeak u = s.zeroPeak u := rfl
@[simp] theorem State.appendExtOut_waveSamples (b : Byte) (u : List Symbol) : (s.appendExtOut b).waveSamples u = s.waveSamples u := rfl
@[simp] theorem State.appendExtOut_decodeSymbol (b : Byte) (w : List Int) : (s.appendExtOut b).decodeSymbol w = s.decodeSymbol w := rfl
@[simp] theorem State.appendExtOut_symbolAt (b : Byte) (i j : Nat) : (s.appendExtOut b).symbolAt i j = s.symbolAt i j := rfl
@[simp] theorem State.appendExtOut_binAt (b : Byte) (i j : Nat) : (s.appendExtOut b).binAt i j = s.binAt i j := rfl

/-! `State.appendDataOut`. -/

@[simp] theorem State.appendDataOut_cfgOk (b : Byte) : (s.appendDataOut b).cfgOk = s.cfgOk := rfl
@[simp] theorem State.appendDataOut_phaseMod (b : Byte) : (s.appendDataOut b).phaseMod = s.phaseMod := rfl
@[simp] theorem State.appendDataOut_freq (b : Byte) (z : Symbol) : (s.appendDataOut b).freq z = s.freq z := rfl
@[simp] theorem State.appendDataOut_waveInAt (b : Byte) (i : Nat) : (s.appendDataOut b).waveInAt i = s.waveInAt i := rfl
@[simp] theorem State.appendDataOut_remaining (b : Byte) (i : Nat) : (s.appendDataOut b).remaining i = s.remaining i := rfl
@[simp] theorem State.appendDataOut_avail (b : Byte) (i L : Nat) : (s.appendDataOut b).avail i L = s.avail i L := rfl
@[simp] theorem State.appendDataOut_window (b : Byte) (i : Nat) : (s.appendDataOut b).window i = s.window i := rfl
@[simp] theorem State.appendDataOut_tonePhases (b : Byte) (z : Symbol) : (s.appendDataOut b).tonePhases z = s.tonePhases z := rfl
@[simp] theorem State.appendDataOut_peakPhase (b : Byte) (u : List Symbol) : (s.appendDataOut b).peakPhase u = s.peakPhase u := rfl
@[simp] theorem State.appendDataOut_zeroPeak (b : Byte) (u : List Symbol) : (s.appendDataOut b).zeroPeak u = s.zeroPeak u := rfl
@[simp] theorem State.appendDataOut_waveSamples (b : Byte) (u : List Symbol) : (s.appendDataOut b).waveSamples u = s.waveSamples u := rfl
@[simp] theorem State.appendDataOut_decodeSymbol (b : Byte) (w : List Int) : (s.appendDataOut b).decodeSymbol w = s.decodeSymbol w := rfl
@[simp] theorem State.appendDataOut_symbolAt (b : Byte) (i j : Nat) : (s.appendDataOut b).symbolAt i j = s.symbolAt i j := rfl
@[simp] theorem State.appendDataOut_binAt (b : Byte) (i j : Nat) : (s.appendDataOut b).binAt i j = s.binAt i j := rfl

end Sys2Proof.Machine
end

