-- ==== Sys2Proof/Laws/Ops.lean ====
section
/-! SUPPORT. What each shared operation can do: how a command ends, what BuildWave, a byte window and a run of the frame
decoder leave behind. -/

namespace Sys2Proof.Machine

/-! How a command ends. -/

@[simp] theorem raise_eq (e : CoreError) (s : State) : raise e s = s.setStatus (statusError e) := rfl

@[simp] theorem finish_eq (isend trunc : Bool) (s : State) :
    finish isend trunc s = s.setStatus (statusOk isend trunc) := rfl

@[simp] theorem advance_eq (s : State) (L : Nat) :
    s.advance L = s.setCursor (BitVec.ofNat 32 (s.cursor.toNat + L * s.nsym.toNat)) := rfl

@[simp] theorem setDecoded_eq (s : State) (c : Codeword) :
    s.setDecoded c = (s.setCode (correct c) (syndrome c)).setByte (extract (correct c)) := rfl

@[simp] theorem classifyWindow_eq (s : State) (c : Nat) :
    s.classifyWindow c = s.setSymBin (s.decodeSymbol (s.window c)) (BitVec.ofNat 32 (peakBin (s.window c))) := rfl

/-- Writing SYM and BIN with the values they hold changes nothing. -/
theorem setSymBin_self (s : State) : s.setSymBin s.sym s.bin = s := rfl

theorem statusOk_none : statusOk false false = 0x000#12 := rfl
theorem statusOk_isend : statusOk true false = 0x002#12 := rfl
theorem statusOk_trunc : statusOk false true = 0x004#12 := rfl
theorem statusError_illegalCmd : statusError .illegalCmd = 0x108#12 := rfl
theorem statusError_badConfig : statusError .badConfig = 0x208#12 := rfl
theorem statusError_rateMismatch : statusError .rateMismatch = 0x308#12 := rfl
theorem statusError_shortWindow : statusError .shortWindow = 0x408#12 := rfl
theorem statusError_zeroPeak : statusError .zeroPeak = 0x508#12 := rfl
theorem statusError_overflow : statusError .overflow = 0x608#12 := rfl

/-- CFG_OK as its two conditions (00_scope.md R16). -/
theorem cfgOk_iff (s : State) : s.cfgOk = true ↔ 1 ≤ s.symbolRate.toNat ∧ 1 ≤ s.nsym.toNat := by
  simp [State.cfgOk]

theorem avail_iff (s : State) (c L : Nat) : s.avail c L = true ↔ L * s.nsym.toNat ≤ s.waveInLen.toNat - c := by
  exact decide_eq_true_iff

/-- Where whole windows remain, the cursor stays within WAVE_IN_LEN and does not wrap (10_state.md R29). -/
theorem advance_toNat {s : State} {L : Nat} (hn : 1 ≤ L * s.nsym.toNat) (h : s.avail s.cursor.toNat L = true) :
    (BitVec.ofNat 32 (s.cursor.toNat + L * s.nsym.toNat)).toNat = s.cursor.toNat + L * s.nsym.toNat
      ∧ s.cursor.toNat + L * s.nsym.toNat ≤ s.waveInLen.toNat := by
  rw [avail_iff] at h
  have := s.waveInLen.isLt
  rw [BitVec.toNat_ofNat, Nat.mod_eq_of_lt (by omega)]
  omega

/-! Lengths. -/

@[simp] theorem tonePhases_length (s : State) (x : Symbol) : (s.tonePhases x).length = s.nsym.toNat := by
  simp [State.tonePhases]

@[simp] theorem toneSamples_length (s : State) (ps : Nat) (x : Symbol) : (s.toneSamples ps x).length = s.nsym.toNat := by
  simp [State.toneSamples]

@[simp] theorem waveSamples_length (s : State) (syms : List Symbol) :
    (s.waveSamples syms).length = s.nsym.toNat * syms.length := by
  simp only [State.waveSamples, List.length_map]
  generalize s.peakPhase (usedSymbols syms) = ps
  induction syms with
  | nil => simp
  | cons x r ih => rw [List.flatMap_cons, List.length_append, ih, toneSamples_length, List.length_cons]; ring

@[simp] theorem plainSyms_length (b : Byte) : (plainSyms b).length = 8 := rfl

@[simp] theorem cwSyms_length (c : Codeword) : (cwSyms c).length = 12 := rfl

@[simp] theorem window_length (s : State) (c : Nat) : (s.window c).length = s.nsym.toNat := by
  simp [State.window]

@[simp] theorem extInput_length (s : State) : s.extInput.length = s.extInLen.toNat := by simp [State.extInput]

@[simp] theorem dataInput_length (s : State) : s.dataInput.length = s.dataInLen.toNat := by simp [State.dataInput]

theorem payloadByteSyms_length (mode : BitVec 1) (b : Byte) : (payloadByteSyms mode b).length = payloadLen mode := by
  unfold payloadByteSyms payloadLen
  split <;> rfl

theorem flatMap_length_const {α β : Type*} (f : α → List β) (k : Nat) (h : ∀ a, (f a).length = k) (l : List α) :
    (l.flatMap f).length = k * l.length := by
  induction l with
  | nil => simp
  | cons a r ih => rw [List.flatMap_cons, List.length_append, ih, h, List.length_cons]; ring

/-- The number of symbols of a frame (30_encoding.md R97). -/
@[simp] theorem frameSyms_length (mode : BitVec 1) (ext data : List Byte) (n : Nat) :
    (frameSyms mode ext data n).length = frameLen mode ext.length data.length n := by
  unfold frameSyms frameLen headerSyms payloadSyms sentinelSyms
  simp only [List.length_append, List.length_replicate, plainSyms_length,
    flatMap_length_const plainSyms 8 plainSyms_length,
    flatMap_length_const (payloadByteSyms mode) (payloadLen mode) (payloadByteSyms_length mode)]
  have : (if mode = 1#1 then preambleSyms else []).length = preambleCount mode := by
    unfold preambleCount; split <;> rfl
  rw [this]
  ring

/-! BuildWave and the encode commands (40_tone_generator.md R118): the four ways they end, in the order of the checks. -/

theorem encodeCommand_badConfig {s : State} (h : s.cfgOk = false) (count : Nat) (syms : List Symbol)
    (results : State → State) : encodeCommand count syms results s = s.setStatus (statusError .badConfig) := by
  simp [encodeCommand, buildWave, h]

theorem encodeCommand_overflow {s : State} (h : s.cfgOk = true) {count : Nat} (hc : s.waveCap.toNat < s.nsym.toNat * count)
    (syms : List Symbol) (results : State → State) :
    encodeCommand count syms results s = (s.setWaveOut s.waveOut 0#32).setStatus (statusError .overflow) := by
  simp [encodeCommand, buildWave, h, hc]

theorem encodeCommand_zeroPeak {s : State} (h : s.cfgOk = true) {count : Nat}
    (hc : s.nsym.toNat * count ≤ s.waveCap.toNat) {syms : List Symbol} (hz : s.zeroPeak (usedSymbols syms) = true)
    (results : State → State) :
    encodeCommand count syms results s = (s.setWaveOut s.waveOut 0#32).setStatus (statusError .zeroPeak) := by
  simp [encodeCommand, buildWave, h, Nat.not_lt.mpr hc, hz]

theorem encodeCommand_completed {s : State} (h : s.cfgOk = true) {count : Nat}
    (hc : s.nsym.toNat * count ≤ s.waveCap.toNat) {syms : List Symbol} (hz : s.zeroPeak (usedSymbols syms) = false)
    (results : State → State) :
    encodeCommand count syms results s
      = (results (s.setWaveOut (s.waveOut.writeFront (s.waveSamples syms))
          (BitVec.ofNat 32 (s.nsym.toNat * count)))).setStatus (statusOk false false) := by
  simp [encodeCommand, buildWave, h, Nat.not_lt.mpr hc, hz]

/-- An encode command ends in one of four ways (40_tone_generator.md R118). -/
theorem encodeCommand_cases (count : Nat) (syms : List Symbol) (results : State → State) (s : State) :
    (encodeCommand count syms results s = s.setStatus (statusError .badConfig) ∧ s.cfgOk = false)
    ∨ (encodeCommand count syms results s = (s.setWaveOut s.waveOut 0#32).setStatus (statusError .overflow)
        ∧ s.cfgOk = true ∧ s.waveCap.toNat < s.nsym.toNat * count)
    ∨ (encodeCommand count syms results s = (s.setWaveOut s.waveOut 0#32).setStatus (statusError .zeroPeak)
        ∧ s.cfgOk = true ∧ s.nsym.toNat * count ≤ s.waveCap.toNat)
    ∨ (encodeCommand count syms results s
          = (results (s.setWaveOut (s.waveOut.writeFront (s.waveSamples syms))
              (BitVec.ofNat 32 (s.nsym.toNat * count)))).setStatus (statusOk false false)
        ∧ s.cfgOk = true ∧ s.nsym.toNat * count ≤ s.waveCap.toNat) := by
  cases hc : s.cfgOk with
  | false => exact .inl ⟨encodeCommand_badConfig hc _ _ _, rfl⟩
  | true =>
    by_cases ho : s.waveCap.toNat < s.nsym.toNat * count
    · exact .inr (.inl ⟨encodeCommand_overflow hc ho _ _, rfl, ho⟩)
    · have ho' := not_lt.mp ho
      cases hz : s.zeroPeak (usedSymbols syms) with
      | true => exact .inr (.inr (.inl ⟨encodeCommand_zeroPeak hc ho' hz _, rfl, ho'⟩))
      | false => exact .inr (.inr (.inr ⟨encodeCommand_completed hc ho' hz _, rfl, ho'⟩))

/-! A byte window (42_byte_codec.md R147). -/

/-- A byte window writes SYM and BIN and nothing else. -/
theorem classifyRun_frame (n c : Nat) (v : List Bool) (s : State) :
    ∃ x k, (classifyRun n c v s).2 = s.setSymBin x k := by
  induction n generalizing c v s with
  | zero => exact ⟨s.sym, s.bin, rfl⟩
  | succ n ih =>
    rw [classifyRun]
    split
    · exact ⟨_, _, rfl⟩
    · rename_i x _
      obtain ⟨y, k, h⟩ := ih (c + s.nsym.toNat) (x :: v) (s.classifyWindow c)
      exact ⟨y, k, h⟩

theorem decodeByteWindow_frame (c L : Nat) (s : State) : ∃ x k, (decodeByteWindow c L s).2 = s.setSymBin x k := by
  unfold decodeByteWindow
  split
  · exact classifyRun_frame L c [] s
  · exact ⟨s.sym, s.bin, rfl⟩

theorem symbolBit_eq_none {x : Symbol} : symbolBit x = none ↔ x = .endSym := by cases x <;> simp [symbolBit]

theorem symbolBit_eq_some {x : Symbol} (h : x ≠ .endSym) : symbolBit x = some (x == .one) := by
  cases x <;> first | rfl | exact absurd rfl h

theorem symbolAt_succ (s : State) (c j : Nat) : s.symbolAt c (j + 1) = s.symbolAt (c + s.nsym.toNat) j := by
  unfold State.symbolAt; congr 2; ring

theorem binAt_succ (s : State) (c j : Nat) : s.binAt c (j + 1) = s.binAt (c + s.nsym.toNat) j := by
  unfold State.binAt; congr 3; ring

theorem symbolAt_zero (s : State) (c : Nat) : s.symbolAt c 0 = s.decodeSymbol (s.window c) := by
  simp [State.symbolAt]

theorem binAt_zero (s : State) (c : Nat) : s.binAt c 0 = BitVec.ofNat 32 (peakBin (s.window c)) := by
  simp [State.binAt]

theorem bitsAt_succ (s : State) (c L : Nat) :
    s.bitsAt c (L + 1) = (s.symbolAt c 0 == .one) :: s.bitsAt (c + s.nsym.toNat) L := by
  unfold State.bitsAt
  rw [List.range_succ_eq_map, List.map_cons, List.map_map]
  rw [List.cons.injEq]
  refine ⟨rfl, List.map_congr_left fun j _ => ?_⟩
  simp only [Function.comp, symbolAt_succ]

/-- Windows without an END give their bits, and SYM and BIN the last one's. -/
theorem classifyRun_bits (n c : Nat) (v : List Bool) (s : State) (h : s.noEnd c (n + 1)) :
    classifyRun (n + 1) c v s
      = (.bits (v.reverse ++ s.bitsAt c (n + 1)), s.setSymBin (s.symbolAt c n) (s.binAt c n)) := by
  induction n generalizing c v s with
  | zero =>
    have h0 := h 0 (by omega)
    rw [symbolAt_zero] at h0
    rw [classifyRun, symbolBit_eq_some h0]
    simp only [classifyRun, classifyWindow_eq, bitsAt_succ, symbolAt_zero, binAt_zero]
    simp [State.bitsAt]
  | succ n ih =>
    have h0 := h 0 (by omega)
    rw [symbolAt_zero] at h0
    have hn : (s.classifyWindow c).noEnd (c + s.nsym.toNat) (n + 1) := fun j hj => by
      have := h (j + 1) (by omega)
      rwa [symbolAt_succ] at this
    rw [classifyRun, symbolBit_eq_some h0]
    have := ih (c + s.nsym.toNat) ((s.decodeSymbol (s.window c) == .one) :: v) (s.classifyWindow c) hn
    simp only [this]
    rw [bitsAt_succ s c (n + 1), symbolAt_succ, binAt_succ, symbolAt_zero]
    simp only [List.reverse_cons, List.append_assoc, List.singleton_append]
    rfl

/-- The first END ends a byte window, and SYM and BIN are that window's. -/
theorem classifyRun_end (n c j : Nat) (v : List Bool) (s : State) (h : s.firstEnd c n j) :
    classifyRun n c v s = (.endMark, s.setSymBin .endSym (s.binAt c j)) := by
  induction n generalizing c j v s with
  | zero => exact absurd h.1 (by omega)
  | succ n ih =>
    obtain ⟨hj, he, hb⟩ := h
    cases j with
    | zero =>
      rw [symbolAt_zero] at he
      rw [classifyRun, symbolBit_eq_none.mpr he]
      simp only [classifyWindow_eq, he, binAt_zero]
    | succ j =>
      have h0 := hb 0 (by omega)
      rw [symbolAt_zero] at h0
      rw [classifyRun, symbolBit_eq_some h0]
      have hf : (s.classifyWindow c).firstEnd (c + s.nsym.toNat) n j := by
        refine ⟨by omega, ?_, fun i hi => ?_⟩
        · rw [symbolAt_succ] at he; exact he
        · have := hb (i + 1) (by omega)
          rw [symbolAt_succ] at this; exact this
      have := ih (c + s.nsym.toNat) j ((s.decodeSymbol (s.window c) == .one) :: v) (s.classifyWindow c) hf
      simp only [this]
      rw [binAt_succ]
      rfl

theorem decodeByteWindow_trunc {s : State} {c L : Nat} (h : s.avail c L = false) : decodeByteWindow c L s = (.trunc, s) := by
  simp [decodeByteWindow, h]

theorem decodeByteWindow_bits {s : State} {c L : Nat} (ha : s.avail c (L + 1) = true) (h : s.noEnd c (L + 1)) :
    decodeByteWindow c (L + 1) s = (.bits (s.bitsAt c (L + 1)), s.setSymBin (s.symbolAt c L) (s.binAt c L)) := by
  simp [decodeByteWindow, ha, classifyRun_bits L c [] s h]

theorem decodeByteWindow_end {s : State} {c L j : Nat} (ha : s.avail c L = true) (h : s.firstEnd c L j) :
    decodeByteWindow c L s = (.endMark, s.setSymBin .endSym (s.binAt c j)) := by
  simp [decodeByteWindow, ha, classifyRun_end L c j [] s h]

/-- A byte window as one equation: its result, and the state it leaves. -/
theorem decodeByteWindow_cases (c L : Nat) (s : State) :
    ∃ r x k, decodeByteWindow c L s = (r, s.setSymBin x k) ∧ (r ≠ .trunc → s.avail c L = true) := by
  obtain ⟨x, k, h⟩ := decodeByteWindow_frame c L s
  refine ⟨(decodeByteWindow c L s).1, x, k, Prod.ext rfl h, ?_⟩
  intro hr
  cases ha : s.avail c L with
  | true => rfl
  | false => rw [decodeByteWindow_trunc ha] at hr; exact absurd rfl hr

/-- One of the two holds of every byte window. -/
theorem noEnd_or_firstEnd (s : State) (c L : Nat) : s.noEnd c L ∨ ∃ j, s.firstEnd c L j := by
  induction L with
  | zero => exact .inl fun j hj => absurd hj (by omega)
  | succ L ih =>
    rcases ih with h | ⟨j, h1, h2⟩
    · by_cases he : s.symbolAt c L = .endSym
      · exact .inr ⟨L, by omega, he, h⟩
      · exact .inl fun j hj => by
          rcases Nat.lt_succ_iff_lt_or_eq.mp hj with hj | rfl
          · exact h j hj
          · exact he
    · exact .inr ⟨j, by omega, h2⟩

/-! The frame decoder. -/

/-- What a DSTEP can do (44_frame_codec.md R191 to R195): be refused; end in DONE, with one of four STATUS words; or consume L =
8, 10 or 12 windows, appending to one output or to none. SYM, BIN, BYTE, CW and SYN are written or keep their values. -/
theorem dstep_cases (s : State) :
    (dstep s = s.setStatus (statusError .badConfig) ∧ s.cfgOk = false)
    ∨ ∃ x k b c y,
      (∃ st, dstep s = ((((s.setSymBin x k).setByte b).setCode c y).setFstate .done).setStatus st
        ∧ (st = statusOk false false ∨ st = statusOk true false ∨ st = statusOk false true ∨ st = statusError .overflow)
        ∧ (st = statusOk false false → s.fstate = .done) ∧ s.cfgOk = true)
      ∨ ∃ L f, (L = 8 ∨ L = 10 ∨ L = 12) ∧ s.avail s.cursor.toNat L = true ∧ s.cfgOk = true
        ∧ (dstep s = (((((s.setSymBin x k).setByte b).setCode c y).setFstate f).advance L).setStatus (statusOk false false)
          ∨ (dstep s = ((((((s.setSymBin x k).setByte b).setCode c y).setFstate f).appendExtOut b).advance L).setStatus
              (statusOk false false) ∧ s.extOutLen ≠ s.extCap)
          ∨ (dstep s = ((((((s.setSymBin x k).setByte b).setCode c y).setFstate f).appendDataOut b).advance L).setStatus
              (statusOk false false) ∧ s.dataOutLen ≠ s.dataCap)) := by
  cases hc : s.cfgOk with
  | false => exact .inl ⟨by simp [dstep, hc], rfl⟩
  | true =>
    right
    unfold dstep
    rw [if_neg (by simp [hc])]
    split
    · unfold stepPreamble
      split
      · rename_i ha
        exact ⟨s.sym, s.bin, s.byte, s.cw, s.syn, .inr ⟨10, .header, by omega, ha, rfl, .inl rfl⟩⟩
      · exact ⟨s.sym, s.bin, s.byte, s.cw, s.syn, .inl ⟨_, rfl, by decide, fun h => absurd h (by decide), rfl⟩⟩
    · rename_i hf
      unfold stepHeader
      obtain ⟨r, x, k, h, ha⟩ := decodeByteWindow_cases s.cursor.toNat Config.plainLen s
      rw [h]
      cases r with
      | trunc => exact ⟨x, k, s.byte, s.cw, s.syn, .inl ⟨_, rfl, by decide, fun h => absurd h (by decide), rfl⟩⟩
      | endMark => exact ⟨x, k, s.byte, s.cw, s.syn, .inl ⟨_, rfl, by decide, fun h => absurd h (by decide), rfl⟩⟩
      | bits v =>
        dsimp only
        unfold takeHeaderByte
        split
        · exact ⟨x, k, packMSB v, s.cw, s.syn, .inr ⟨8, .payload, by omega, ha (by simp), rfl, .inl rfl⟩⟩
        · split
          · exact ⟨x, k, packMSB v, s.cw, s.syn, .inl ⟨_, rfl, by decide, fun h => absurd h (by decide), rfl⟩⟩
          · rename_i hne
            exact ⟨x, k, packMSB v, s.cw, s.syn, .inr ⟨8, s.fstate, by omega, ha (by simp), rfl, .inr (.inl ⟨rfl, hne⟩)⟩⟩
    · unfold stepPayload
      obtain ⟨r, x, k, h, ha⟩ := decodeByteWindow_cases s.cursor.toNat (payloadLen s.mode) s
      rw [h]
      cases r with
      | trunc => exact ⟨x, k, s.byte, s.cw, s.syn, .inl ⟨_, rfl, by decide, fun h => absurd h (by decide), rfl⟩⟩
      | endMark => exact ⟨x, k, s.byte, s.cw, s.syn, .inl ⟨_, rfl, by decide, fun h => absurd h (by decide), rfl⟩⟩
      | bits v =>
        dsimp only
        obtain ⟨b, c, y, hp⟩ : ∃ b c y, (s.setSymBin x k).setPayload v = ((s.setSymBin x k).setByte b).setCode c y := by
          unfold State.setPayload
          split
          · exact ⟨_, _, _, rfl⟩
          · exact ⟨packMSB v, s.cw, s.syn, rfl⟩
        rw [hp]
        unfold takePayloadByte
        split
        · exact ⟨x, k, b, c, y, .inl ⟨_, rfl, by decide, fun h => absurd h (by decide), rfl⟩⟩
        · rename_i hne
          exact ⟨x, k, b, c, y, .inr ⟨payloadLen s.mode, s.fstate, by unfold payloadLen; split <;> decide, ha (by simp), rfl,
            .inr (.inr ⟨rfl, hne⟩)⟩⟩
    · rename_i hf
      refine ⟨s.sym, s.bin, s.byte, s.cw, s.syn, .inl ⟨_, ?_, .inl rfl, fun _ => hf, rfl⟩⟩
      show s.setStatus _ = _
      have : s = (((s.setSymBin s.sym s.bin).setByte s.byte).setCode s.cw s.syn).setFstate .done := by
        rw [← hf]; rfl
      rw [← this]

/-- Every DSTEP ends the decode, or moves the cursor over at least one whole byte window (44_frame_codec.md R197). -/
theorem dstep_done_or_advances {s : State} (hc : s.cfgOk = true) :
    (dstep s).fstate = .done ∨
      ∃ L, 8 ≤ L ∧ s.avail s.cursor.toNat L = true
        ∧ (dstep s).cursor = BitVec.ofNat 32 (s.cursor.toNat + L * s.nsym.toNat) := by
  rcases dstep_cases s with ⟨_, h⟩ | ⟨x, k, b, c, y, ⟨st, h, _⟩ | ⟨L, f, hL, ha, _, h | ⟨h, _⟩ | ⟨h, _⟩⟩⟩
  · rw [hc] at h; cases h
  · exact .inl (by rw [h]; rfl)
  all_goals exact .inr ⟨L, by omega, ha, by rw [h]; rfl⟩

/-- DINIT as its three outcomes (44_frame_codec.md R190). -/
theorem dinit_eq (s : State) :
    dinit s =
      if s.cfgOk = false then s.setStatus (statusError .badConfig)
      else if s.inRate.toNat ≠ 44100 then ((s.setFstate .done).clearOutputs).setStatus (statusError .rateMismatch)
      else (((s.clearOutputs).setCursor 0#32).setFstate (startState s.mode)).setStatus (statusOk false false) := by
  unfold dinit dinitCore Config.sampleRate
  cases hc : s.cfgOk with
  | false => rfl
  | true => by_cases hr : s.inRate.toNat = 44100 <;> simp [hr]

/-- DECF is DINIT where DINIT does not complete, and else DINIT and a loop of DSTEPs (44_frame_codec.md R196). -/
theorem decf_cases (s : State) :
    (decf s = dinit s ∧ (s.cfgOk = false ∨ s.inRate.toNat ≠ 44100))
    ∨ (s.cfgOk = true ∧ s.inRate.toNat = 44100 ∧ decf s = decodeLoop (decodeBound s) (dinit s)) := by
  unfold decf dinit dinitCore
  cases hc : s.cfgOk with
  | false => exact .inl ⟨by simp, .inl rfl⟩
  | true =>
    by_cases hr : s.inRate.toNat = 44100
    · right; simp [hr, Config.sampleRate]
    · left; simp [hr, Config.sampleRate]

/-- A loop of DSTEPs is some number of them, none after DONE. -/
theorem decodeLoop_iterate (fuel : Nat) (s : State) :
    ∃ n ≤ fuel, decodeLoop fuel s = dstep^[n] s ∧ (∀ m < n, (dstep^[m] s).fstate ≠ .done)
      ∧ (n = fuel ∨ (dstep^[n] s).fstate = .done) := by
  induction fuel generalizing s with
  | zero => exact ⟨0, le_refl _, rfl, fun m hm => absurd hm (by omega), .inl rfl⟩
  | succ f ih =>
    obtain ⟨n, hn, h1, h2, h3⟩ := ih (dstep s)
    have hgo : s.fstate ≠ .done → decodeLoop (f + 1) s = decodeLoop f (dstep s) := by
      intro h
      rw [decodeLoop]
      split <;> first | rfl | (rename_i hd; exact absurd hd h)
    by_cases hd : s.fstate = .done
    · refine ⟨0, by omega, ?_, fun m hm => absurd hm (by omega), .inr hd⟩
      rw [decodeLoop, hd]; rfl
    · refine ⟨n + 1, by omega, by rw [hgo hd, h1, Function.iterate_succ_apply], fun m hm => ?_, ?_⟩
      · cases m with
        | zero => exact hd
        | succ m => rw [Function.iterate_succ_apply]; exact h2 m (by omega)
      · rw [Function.iterate_succ_apply]; exact h3.imp (fun h => by omega) id

end Sys2Proof.Machine
end

