-- ==== Sys2Proof/Laws/PerInstr.lean ====
section
/-! SUPPORT. A law about every command as syntax, one lemma per command: the word of a command is a word of the opcode
table's row for its mnemonic. -/

namespace Sys2Proof.Laws.TableRow

/-- The row of the opcode table for a command, by the table's order (30_encoding.md R85). -/
def rowIndex : Instr → Nat
  | .tone _ => 0
  | .encb _ => 1
  | .ench _ => 2
  | .encf => 3
  | .dsym => 4
  | .decb => 5
  | .dech => 6
  | .decf => 7
  | .dinit => 8
  | .dstep => 9
  | .henc _ => 10
  | .hdec _ => 11

/-- The command's word is a word of its row: masked, it is the row's pattern (30_encoding.md R81 to R85). -/
def Statement (i : Instr) : Prop :=
  ∃ r, opcodeRows[rowIndex i]? = some r ∧ encode i &&& r.mask = r.pattern

theorem tone (sym : BitVec 2) : Statement (.tone sym) :=
  ⟨_, rfl, by revert sym; decide⟩
theorem encb (b : Byte) : Statement (.encb b) :=
  ⟨_, rfl, by revert b; decide⟩
theorem ench (b : Byte) : Statement (.ench b) :=
  ⟨_, rfl, by revert b; decide⟩
theorem encf : Statement .encf := ⟨_, rfl, by decide⟩
theorem dsym : Statement .dsym := ⟨_, rfl, by decide⟩
theorem decb : Statement .decb := ⟨_, rfl, by decide⟩
theorem dech : Statement .dech := ⟨_, rfl, by decide⟩
theorem decf : Statement .decf := ⟨_, rfl, by decide⟩
theorem dinit : Statement .dinit := ⟨_, rfl, by decide⟩
theorem dstep : Statement .dstep := ⟨_, rfl, by decide⟩
theorem henc (b : Byte) : Statement (.henc b) :=
  ⟨_, rfl, by revert b; decide⟩
theorem hdec (cw : Codeword) : Statement (.hdec cw) :=
  ⟨_, rfl, by
    apply BitVec.eq_of_getLsbD_eq
    intro i hi
    interval_cases i <;> simp [encode, commandWord]⟩

end Sys2Proof.Laws.TableRow
end

