-- ==== Sys2Proof/Tests/Slice0.lean ====
section
/-! SUPPORT. Tests of the model against the spec's own examples and hand calculations from its rules, and for every statement
with hypotheses a state and operands that meet them. -/

namespace Sys2Proof.Tests

open Sys2Proof.Machine

/-! Well-formedness and decoding. -/

/-- 30_encoding.md R82: the code 3 is no symbol. -/
theorem test_wellFormed_refuses_symbol_three : (Instr.tone 3#2).wellFormed = false := by decide

theorem test_wellFormed_accepts_end : (Instr.tone 2#2).wellFormed = true := by decide

/-! One word for every command, written out from its format (30_encoding.md R81 to R85). -/

theorem test_decode_tone : decode 0b0000_0000_0000_0000_0000_0010_0001_0000#32 = .ok (.tone 2#2) := by decide
theorem test_decode_encb : decode 0b0000_0000_0000_0000_0100_0001_0001_0001#32 = .ok (.encb 0x41#8) := by decide
theorem test_decode_ench : decode 0b0000_0000_0000_0000_1000_0010_0001_0010#32 = .ok (.ench 0x82#8) := by decide
theorem test_decode_encf : decode 0b0000_0000_0000_0000_0000_0000_0001_0011#32 = .ok .encf := by decide
theorem test_decode_dsym : decode 0b0000_0000_0000_0000_0000_0000_0010_0000#32 = .ok .dsym := by decide
theorem test_decode_decb : decode 0b0000_0000_0000_0000_0000_0000_0010_0001#32 = .ok .decb := by decide
theorem test_decode_dech : decode 0b0000_0000_0000_0000_0000_0000_0010_0010#32 = .ok .dech := by decide
theorem test_decode_decf : decode 0b0000_0000_0000_0000_0000_0000_0010_0011#32 = .ok .decf := by decide
theorem test_decode_dinit : decode 0b0000_0000_0000_0000_0000_0000_0010_0100#32 = .ok .dinit := by decide
theorem test_decode_dstep : decode 0b0000_0000_0000_0000_0000_0000_0010_0101#32 = .ok .dstep := by decide
theorem test_decode_henc : decode 0b0000_0000_0000_0000_1111_1111_0011_0000#32 = .ok (.henc 0xFF#8) := by decide
theorem test_decode_hdec : decode 0b0000_0000_0000_0101_0010_0101_0011_0001#32 = .ok (.hdec 0x525#12) := by decide

/-- Illegal words (30_encoding.md R80 to R86): no opcode, the symbol code 3, and one bit too many in each format. -/
theorem test_decode_refuses :
    [0x00#32, 0x14#32, 0x26#32, 0x310#32, 0x410#32, 0x10011#32, 0x10012#32, 0x113#32, 0x80000020#32, 0x10030#32,
      0x100031#32].map (fun w => (decode w).toOption) = List.replicate 11 none := by decide

/-! The codeword arithmetic, by the examples of 43_hamming.md R164, R170, R171. -/

theorem test_hamEnc_examples :
    [0x00#8, 0x01#8, 0x41#8, 0x42#8, 0x43#8, 0x80#8, 0xFF#8].map hamEnc
      = [0x000#12, 0x111#12, 0x505#12, 0x40A#12, 0x51B#12, 0x806#12, 0xFFE#12] := by decide

/-- 43_hamming.md R171: a data error at position 7, an all-ones word with syndrome 12, and one with syndrome 13. -/
theorem test_hamDec_examples :
    [0x525#12, 0xFFF#12, 0x7FF#12].map (fun c => (syndrome c, correct c, extract (correct c)))
      = [(7#4, 0x505#12, 0x41#8), (12#4, 0xFFE#12, 0xFF#8), (13#4, 0x7FF#12, 0x7F#8)] := by decide

/-! NSYM, by the examples of 00_scope.md R8. -/

theorem test_nsym_examples : [2000#32, 1960#32, 88200#32, 88201#32, 0#32].map nsymOf = [22#32, 23#32, 1#32, 0#32, 0#32] := by
  decide

/-! States for the tests. -/

/-- A core configured with a symbol rate and three carriers, and the right input rate. -/
def configured (rate low high fend : Word) : State :=
  { State.reset with
    symbolRate := rate, nsym := nsymOf rate, freqLow := low, freqHigh := high, freqEnd := fend, inRate := 44100#32 }

/-- The same with samples in WAVE_IN. -/
def withWave (s : State) (samples : List Sample) : State :=
  { s with waveIn := Memory.cells 0 samples, waveInLen := BitVec.ofNat 32 samples.length }

/-- The configuration of 95_test_vectors.md: SYMBOL_RATE 2000, NSYM 22. -/
def vectors : State := configured 2000#32 2000#32 4000#32 6000#32

/-- NSYM = 1: every window has bin 0 alone, so every symbol is ZERO (41_symbol_detector.md R134). -/
def allZero : State := configured 88200#32 1000#32 2000#32 3000#32

/-- NSYM = 1 and equal carriers: every symbol is ONE (70_reset_and_hazards.md R242). -/
def allOne : State := configured 88200#32 1000#32 1000#32 1000#32

/-- NSYM = 2: the window (1, 1) has peak bin 0, which is ZERO, and (1, -1) has bin 1, which is END. -/
def zeroEnd : State := configured 22050#32 0#32 44100#32 22050#32

/-- NSYM = 5 with a carrier on each of the bins 0, 1 and 2. -/
def three : State := configured 8820#32 0#32 8820#32 17640#32

/-- n windows of `zeroEnd` classified as ZERO. -/
def zeros (n : Nat) : List Sample := List.replicate (2 * n) 1#16

/-- One window of `zeroEnd` classified as END. -/
def oneEnd : List Sample := [1#16, -1#16]

/-- The next state of an outcome, if it is one. -/
def nextOf : Host.Outcome State Fault Refusal → Option State
  | .next t => some t
  | .fault _ => none
  | .refused _ => none

/-- A view of the state a command leaves. -/
def after {α : Type} (i : Instr) (s : State) (view : State → α) : Option α := (nextOf (exec i s)).map view

/-! One command on one state. -/

/-- 40_tone_generator.md R119, the example: the 22 samples of `TONE ZERO`. -/
theorem test_tone_example :
    after (.tone 0#2) vectors (fun t => (t.status, t.waveOutLen, t.waveOut.map (fun c => c.2.toInt)))
      = some (0#12, 22#32, [0, 9326, 17897, 25018, 30112, 32767, 32767, 30112, 25018, 17897, 9326, 0, -9326, -17897,
          -25018, -30112, -32767, -32767, -30112, -25018, -17897, -9326]) := by decide +kernel

/-- 42_byte_codec.md R146: 8 tones of 22 samples. -/
theorem test_encb_length :
    after (.encb 0x41#8) vectors (fun t => (t.status, t.waveOutLen, t.byte)) = some (0#12, 176#32, 0x41#8) := by
  decide +kernel

/-- 43_hamming.md R172: 12 tones of 22 samples. -/
theorem test_ench_length :
    after (.ench 0x41#8) vectors (fun t => (t.status, t.waveOutLen, t.cw, t.syn)) = some (0#12, 264#32, 0x505#12, 0#4) := by
  decide +kernel

/-- 44_frame_codec.md R186: the example's 44 symbols make 968 samples. -/
theorem test_encf_length :
    after .encf { vectors with
        endRepeat := 4#32, extIn := [(0, 0x74#8)], extInLen := 1#32,
        dataIn := [(0, 0x41#8), (1, 0x42#8), (2, 0x43#8)], dataInLen := 3#32 }
      (fun t => (t.status, t.waveOutLen)) = some (0#12, 968#32) := by decide +kernel

/-- 41_symbol_detector.md R136: bin 2 of a tone of two cycles is ONE (the samples of 95_test_vectors.md V-T1). -/
theorem test_dsym_example :
    after .dsym (withWave vectors ([0, 17897, 30112, 32767, 25018, 9326, -9326, -25018, -32767, -30112, -17897,
        0, 17897, 30112, 32767, 25018, 9326, -9326, -25018, -32767, -30112, -17897].map (BitVec.ofInt 16)))
      (fun t => (t.status, t.sym, t.bin, t.cursor)) = some (0#12, .one, 2#32, 22#32) := by decide +kernel

/-- 41_symbol_detector.md R140: one sample short. -/
theorem test_dsym_short :
    after .dsym (withWave vectors (List.replicate 21 0#16)) (fun t => (t.status, t.cursor)) = some (0x408#12, 0#32) := by
  decide +kernel

/-- 42_byte_codec.md R148: eight ONEs are 0xFF. -/
theorem test_decb_ones :
    after .decb (withWave allOne (List.replicate 8 5#16)) (fun t => (t.status, t.byte, t.cursor, t.sym))
      = some (0#12, 0xFF#8, 8#32, .one) := by decide +kernel

/-- 42_byte_codec.md R148: an END in the last window discards the seven bits before it. -/
theorem test_decb_end :
    after .decb (withWave zeroEnd (zeros 7 ++ oneEnd)) (fun t => (t.status, t.byte, t.cursor, t.sym, t.bin))
      = some (0x002#12, 0#8, 0#32, .endSym, 1#32) := by decide +kernel

/-- 43_hamming.md R171, R174: twelve ONEs have syndrome 12 and give 0xFF. -/
theorem test_dech_ones :
    after .dech (withWave allOne (List.replicate 12 5#16)) (fun t => (t.status, t.byte, t.cw, t.syn, t.cursor))
      = some (0#12, 0xFF#8, 0xFFE#12, 12#4, 12#32) := by decide +kernel

/-- 44_frame_codec.md R190: the examples, and the mismatch by one hertz (60_exceptions.md R219). -/
theorem test_dinit_example :
    after .dinit { vectors with mode := 1#1, cursor := 7#32 } (fun t => (t.status, t.fstate, t.cursor))
      = some (0#12, .preamble, 0#32) := by decide
theorem test_dinit_mismatch :
    after .dinit { vectors with inRate := 44101#32, cursor := 7#32 } (fun t => (t.status, t.fstate, t.cursor))
      = some (0x308#12, .done, 7#32) := by decide

/-- 44_frame_codec.md R193: a zero byte is consumed, not stored, and starts the payload. -/
theorem test_dstep_terminator :
    after .dstep (withWave { allZero with fstate := .header } (List.replicate 8 3#16))
      (fun t => (t.status, t.fstate, t.cursor, t.extOutLen)) = some (0#12, .payload, 8#32, 0#32) := by decide +kernel

/-- 44_frame_codec.md R193: a character that does not fit is in BYTE, not stored, and CURSOR stays. -/
theorem test_dstep_overflow :
    after .dstep (withWave { allOne with fstate := .header, extCap := 0#32 } (List.replicate 8 3#16))
      (fun t => (t.status, t.fstate, t.cursor, t.byte)) = some (0x608#12, .done, 0#32, 0xFF#8) := by decide +kernel

/-- 44_frame_codec.md R194, R202, R203: silence decodes as the terminator and zero bytes until the recording runs out. -/
theorem test_decf_silence :
    after .decf (withWave allZero (List.replicate 27 0#16))
      (fun t => (t.status, t.fstate, t.cursor, t.dataOutLen, t.dataOut.map (fun c => c.2)))
      = some (0x004#12, .done, 24#32, 2#32, [0#8, 0#8]) := by decide +kernel

theorem test_henc_example :
    after (.henc 0x41#8) State.reset (fun t => (t.status, t.byte, t.cw, t.syn)) = some (0#12, 0x41#8, 0x505#12, 0#4) := by
  decide
theorem test_hdec_example :
    after (.hdec 0x525#12) State.reset (fun t => (t.status, t.byte, t.cw, t.syn)) = some (0#12, 0x41#8, 0x505#12, 7#4) := by
  decide

/-! A step. -/

/-- 10_state.md R21: a write of CMD runs the command. -/
theorem test_step_command :
    (nextOf (step { State.reset with pending := [.wr 0#32 0x4130#32] })).map (fun t => (t.cw, t.pending)) = some (0x505#12, []) := by
  decide

/-- 20_memory.md R62, R63: a sample is stored as 16 bits and, below WAVE_IN_LEN, read back with its sign. -/
theorem test_step_buffer :
    ((nextOf (step { State.reset with bufSel := 2#3, waveInLen := 1#32, pending := [.wr 0x64#32 0x1FFFE#32, .rd 0x64#32] })).bind
      (fun t => nextOf (step t))).map (fun t => t.reads) = some [0xFFFFFFFE#32] := by decide

/-- 20_memory.md R62, 92_eei_decisions.md D35: a sample that was written at WAVE_IN_LEN reads as an unspecified value. -/
theorem test_step_buffer_stale :
    nextOf (step { State.reset with bufSel := 2#3, waveIn := [(0, 7#16)], pending := [.rd 0x64#32] })
      = some { State.reset with
          bufSel := 2#3, waveIn := [(0, 7#16)], reads := [(Config.unspecifiedSample 1 2 0).signExtend 32], freeCtr := 1 } := by
  rfl

/-! Witnesses: states and operands that meet the hypotheses of the statements. -/

theorem witness_CommandWordRoundTrip : (Instr.tone 2#2).wellFormed = true := by decide
theorem witness_DecodedWordIsEncoding : decode 0x000FFF31#32 = .ok (.hdec 0xFFF#12) := by decide
theorem witness_IllegalWordRefused :
    ({ State.reset with pending := [.wr 0x00#32 0x310#32] } : State).pending = [.wr 0x00#32 0x310#32]
      ∧ legalWord 0x310#32 = false ∧ legalWord 0x210#32 = true ∧ legalWord 0xFFF31#32 = true ∧ legalWord 0x100031#32 = false := by
  decide
theorem witness_StepRunsDecodedCommand :
    ({ State.reset with pending := [.wr 0x00#32 0x24#32] } : State).pending = [.wr 0x00#32 0x24#32]
      ∧ decode 0x24#32 = .ok .dinit ∧ decodeTableWord 32 0x24 = some .dinit ∧ State.reset.pending = []
      ∧ ({ State.reset with pending := [.rd 0x64#32] } : State).pending = [.rd 0x64#32]
      ∧ ({ State.reset with pending := [.wr 0x08#32 1#32, .reset] } : State).pending = [.wr 0x08#32 1#32, .reset]
      ∧ ({ State.reset with pending := [.wrLast 0x64#32], reads := [9#32, 5#32] } : State).pending = [.wrLast 0x64#32]
      ∧ ({ State.reset with pending := [.wrLast 0x64#32], reads := [9#32, 5#32] } : State).reads = [9#32, 5#32] := by decide
theorem witness_ReservedOffsets :
    (0x68#32).toNat % 4 = 0 ∧ 0x68 ≤ (0x68#32).toNat ∧ (0xFFFFFFFC#32).toNat % 4 = 0 ∧ 0x68 ≤ (0xFFFFFFFC#32).toNat := by decide
theorem witness_NsymFollowsSymbolRate : (0#32 : Word) = 0#32 ∧ (88201#32 : Word) ≠ 0#32 := by decide

/-- The selections of BUF_DATA, at the first index out of range and the last in range of a capacity of 4. -/
def selecting (sel : BitVec 3) (i : Word) : State :=
  { State.reset with bufSel := sel, bufIdx := i, extCap := 4#32, dataCap := 4#32, waveCap := 4#32 }

/-- A selection in range of every length, at the last element below it. -/
def selectingValid (sel : BitVec 3) : State :=
  { selecting sel 2#32 with
    extInLen := 3#32, dataInLen := 3#32, waveInLen := 3#32, extOutLen := 3#32, dataOutLen := 3#32, waveOutLen := 3#32 }

theorem witness_BufferReads :
    (selecting 0#3 3#32).bufSel = 0#3 ∧ (selecting 1#3 4#32).bufSel = 1#3 ∧ (selecting 2#3 3#32).bufSel = 2#3
      ∧ (selecting 3#3 3#32).bufSel = 3#3 ∧ (selecting 4#3 3#32).bufSel = 4#3 ∧ (selecting 5#3 4#32).bufSel = 5#3
      ∧ 6 ≤ (selecting 6#3 0#32).bufSel.toNat ∧ 6 ≤ (selecting 7#3 0#32).bufSel.toNat
      ∧ ((selectingValid 0#3).bufSel = 0#3 ∧ (selectingValid 0#3).bufIdx.toNat < (selectingValid 0#3).extInLen.toNat)
      ∧ ((selectingValid 2#3).bufSel = 2#3 ∧ (selectingValid 2#3).bufIdx.toNat < (selectingValid 2#3).waveInLen.toNat)
      ∧ ((selectingValid 5#3).bufSel = 5#3 ∧ (selectingValid 5#3).bufIdx.toNat < (selectingValid 5#3).waveOutLen.toNat) := by
  decide
theorem witness_BufferWrites :
    ((selecting 0#3 3#32).bufSel = 0#3 ∧ (selecting 0#3 3#32).bufIdx.toNat < (selecting 0#3 3#32).extCap.toNat)
      ∧ ((selecting 1#3 3#32).bufSel = 1#3 ∧ (selecting 1#3 3#32).bufIdx.toNat < (selecting 1#3 3#32).dataCap.toNat)
      ∧ ((selecting 2#3 3#32).bufSel = 2#3 ∧ (selecting 2#3 3#32).bufIdx.toNat < (selecting 2#3 3#32).waveCap.toNat)
      ∧ ((selecting 2#3 4#32).bufSel = 2#3 ∧ (selecting 2#3 4#32).waveCap.toNat ≤ (selecting 2#3 4#32).bufIdx.toNat)
      ∧ 3 ≤ (selecting 3#3 0#32).bufSel.toNat := by decide
theorem witness_ResetValues :
    (Instr.dstep).wellFormed = true ∧ (∀ b, Instr.dstep ≠ .henc b) ∧ ∀ c, Instr.dstep ≠ .hdec c := by
  refine ⟨rfl, fun b h => ?_, fun c h => ?_⟩ <;> cases h
theorem witness_ResetEvent :
    ({ vectors with pending := [.reset] } : State).pending = [.reset] := by decide

/-- A legal state that is not the reset state, with an action to take. -/
def legalSample : State :=
  { selecting 0#3 3#32 with
    symbolRate := 2000#32, nsym := 22#32, extIn := [(3, 7#8)], dataOut := [(0, 9#8)], dataOutLen := 1#32,
    pending := [.wr 0x64#32 5#32] }

theorem witness_StepKeepsLegal : legalSample.Legal ∧ ∃ t, step legalSample = .next t := by
  refine ⟨?_, _, rfl⟩
  constructor <;> first
    | decide
    | (unfold withinCap; decide)
    | (intro i hi; exact absurd hi (Nat.not_lt_zero _))
    | (intro i hi; exact ⟨9#8, by rw [Nat.lt_one_iff.mp hi]; rfl⟩)

theorem witness_commands_answer :
    (∃ t, exec (.henc 0x41#8) State.reset = .next t) ∧ (∃ t, exec .dsym (withWave allOne [1#16]) = .next t)
      ∧ (∃ t, exec .decf (withWave allZero [1#16]) = .next t) ∧ ∃ t, exec (.encb 0#8) vectors = .next t :=
  ⟨⟨_, rfl⟩, ⟨_, rfl⟩, ⟨_, rfl⟩, ⟨_, rfl⟩⟩

/-- Each error code with a command that ends with it: its code, and its ERR. -/
def errorOf (i : Instr) (s : State) : Option (BitVec 4 × Bool) := after i s (fun t => (errCode t.status, errFlag t.status))

theorem witness_ErrorWrites :
    errorOf (.tone 3#2) vectors = some (1#4, true) ∧ errorOf .dstep State.reset = some (2#4, true)
      ∧ errorOf .decf { vectors with inRate := 44099#32 } = some (3#4, true) ∧ errorOf .dsym vectors = some (4#4, true)
      ∧ errorOf (.tone 0#2) allOne = some (5#4, true)
      ∧ errorOf .encf { vectors with endRepeat := 0xFFFFFFFF#32, waveCap := 100#32 } = some (6#4, true)
      ∧ errorOf .dstep (withWave { allZero with fstate := .payload, dataCap := 0#32 } (List.replicate 8 3#16))
          = some (6#4, true) := by
  decide +kernel

theorem witness_UnconfiguredRefused :
    State.reset.symbolRate = 0#32 ∧ (configured 88201#32 1#32 2#32 3#32).nsym = 0#32
      ∧ (configured 88201#32 1#32 2#32 3#32).symbolRate ≠ 0#32 ∧ (Instr.tone 2#2).wellFormed = true
      ∧ (∀ b, Instr.tone 2#2 ≠ .henc b) ∧ ∀ c, Instr.tone 2#2 ≠ .hdec c := by
  refine ⟨by decide, by decide, by decide, by decide, fun b h => ?_, fun c h => ?_⟩ <;> cases h
/-- A cursor on a window's boundary, and one that is on none, which DSYM moves on by NSYM = 22 all the same. -/
theorem witness_CursorInWholeWindows :
    ((withWave vectors (List.replicate 44 0#16)).nsym.toNat ∣ ({ withWave vectors (List.replicate 44 0#16) with
        cursor := 22#32 } : State).cursor.toNat
      ∧ ∃ t, exec .dsym { withWave vectors (List.replicate 44 0#16) with cursor := 22#32 } = .next t)
    ∧ after .dsym { withWave vectors (List.replicate 44 0#16) with cursor := 7#32 } (fun t => t.cursor) = some 29#32 :=
  ⟨⟨by decide, _, rfl⟩, by decide +kernel⟩

theorem witness_HammingEncode : ∀ k ∈ checkSets, checkBit 0x505#12 k = false := by decide
theorem witness_SyndromeNamesPositions :
    (∀ k ∈ checkSets, checkBit 0xFFE#12 k = false) ∧ [1, 4, 12].Nodup ∧ ∀ p ∈ [1, 4, 12], 1 ≤ p ∧ p ≤ 12 := by decide
theorem witness_CorrectAndExtract :
    (syndrome 0x505#12).toNat = 0 ∧ 13 ≤ (syndrome 0x7FF#12).toNat ∧ (1 ≤ 1 ∧ 1 ≤ 12) ∧ (1 ≤ 12 ∧ 12 ≤ 12) := by decide
theorem witness_SingleErrorCorrected : (1 ≤ 1 ∧ 1 ≤ 12) ∧ 1 ≤ 12 ∧ 12 ≤ 12 := by decide
theorem witness_DoubleErrorSilent :
    (1 ≤ 4 ∧ 4 ≤ 12 ∧ 1 ≤ 8 ∧ 8 ≤ 12 ∧ 4 ≠ 8 ∧ 4 ^^^ 8 ≤ 12) ∧ 1 ≤ 1 ∧ 1 ≤ 12 ∧ 12 ≤ 12 ∧ 1 ≠ 12 ∧ 13 ≤ 1 ^^^ 12 := by
  decide

theorem witness_PeakPhaseIsLoudest :
    phaseDist 4 1 = 0 ∧ phaseDist 4 2 = 4 ∧ vectors.cfgOk = true ∧ [Symbol.zero] ≠ [] ∧ Symbol.zero ∈ [Symbol.zero]
      ∧ 21 < vectors.nsym.toNat := by decide
theorem witness_QuantisedSampleExact : 0 < 4 ∧ sine 1 4 ≠ 0 ∧ |sine 0 4| ≤ |sine 1 4| := by
  have h1 : sine 1 4 = 1 := by
    unfold sine
    rw [show 2 * Real.pi * ((1 : ℕ) : ℝ) / ((4 : ℕ) : ℝ) = Real.pi / 2 by push_cast; ring, Real.sin_pi_div_two]
  have h0 : sine 0 4 = 0 := by simp [sine]
  rw [h0, h1]
  norm_num
theorem witness_QuantisedSampleProperties :
    phaseDist 8 2 < 8
      ∧ (0 < 8 ∧ phaseDist 8 2 ≤ phaseDist 8 0 ∧ 2 * 0 % 8 = 0) ∧ (4 < 8 ∧ phaseDist 8 2 ≤ phaseDist 8 4 ∧ 2 * 4 % 8 = 0)
      ∧ (0 < 3 ∧ 2 * 3 < 8 ∧ phaseDist 8 2 ≤ phaseDist 8 3) ∧ (8 < 2 * 5 ∧ 5 < 8 ∧ phaseDist 8 2 ≤ phaseDist 8 5)
      ∧ 2 * (3 + 1) = 8 ∧ 2 * (5 + 7) = 3 * 8 ∧ phaseDist 8 6 = phaseDist 8 2 ∧ phaseDist 8 3 ≤ phaseDist 8 4 := by decide

theorem witness_WaveformExact :
    vectors.cfgOk = true ∧ vectors.zeroPeak (usedSymbols [.one, .zero]) = false := by decide +kernel
theorem witness_ZeroPeakExactly : vectors.cfgOk = true ∧ allOne.cfgOk = true := by decide

/-- The capacity that a waveform of n samples just fits. -/
def fits (s : State) (n : Nat) : State := { s with waveCap := BitVec.ofNat 32 n }

theorem witness_ToneResult :
    (2#2 : BitVec 2) = Symbol.code .endSym ∧ (fits vectors 22).cfgOk = true
      ∧ (fits vectors 22).nsym.toNat ≤ (fits vectors 22).waveCap.toNat ∧ (fits vectors 22).zeroPeak [.endSym] = false := by
  decide +kernel
theorem witness_EncbResult :
    (fits vectors 176).cfgOk = true ∧ 8 * (fits vectors 176).nsym.toNat ≤ (fits vectors 176).waveCap.toNat
      ∧ (fits vectors 176).zeroPeak (usedSymbols (plainSyms 0x41#8)) = false := by decide +kernel
theorem witness_EnchResult :
    (fits vectors 264).cfgOk = true ∧ 12 * (fits vectors 264).nsym.toNat ≤ (fits vectors 264).waveCap.toNat
      ∧ (fits vectors 264).zeroPeak (usedSymbols (cwSyms (hamEnc 0x41#8))) = false := by decide +kernel
/-- A protected frame of no character, one byte and one END: 10 + 8 + 12 + 1 symbols. -/
def oneByteFrame (cap : Nat) : State :=
  { fits vectors cap with mode := 1#1, endRepeat := 1#32, dataIn := [(0, 0x41#8)], dataInLen := 1#32 }
theorem witness_EncfResult :
    682 = (oneByteFrame 682).nsym.toNat * ((if (oneByteFrame 682).mode = 1#1 then 10 else 0)
        + 8 * ((oneByteFrame 682).extInLen.toNat + 1)
        + (if (oneByteFrame 682).mode = 1#1 then 12 else 8) * (oneByteFrame 682).dataInLen.toNat
        + (oneByteFrame 682).endRepeat.toNat)
      ∧ (oneByteFrame 682).cfgOk = true ∧ 682 ≤ (oneByteFrame 682).waveCap.toNat
      ∧ (oneByteFrame 682).zeroPeak (usedSymbols (frameSyms (oneByteFrame 682).mode (oneByteFrame 682).extInput
          (oneByteFrame 682).dataInput (oneByteFrame 682).endRepeat.toNat)) = false := by decide +kernel
theorem witness_EncodeFaults :
    (oneByteFrame 681).commandSyms .encf = some (frameSyms 1#1 [] [0x41#8] 1) ∧ (oneByteFrame 681).cfgOk = true
      ∧ (oneByteFrame 681).waveCap.toNat < (oneByteFrame 681).nsym.toNat * (frameSyms 1#1 [] [0x41#8] 1).length
      ∧ allOne.commandSyms (.tone 1#2) = some [.one] ∧ allOne.cfgOk = true
      ∧ allOne.nsym.toNat * [Symbol.one].length ≤ allOne.waveCap.toNat ∧ allOne.zeroPeak (usedSymbols [.one]) = true := by
  decide +kernel

/-- A window whose peak bin is not 0. -/
theorem witness_PeakBinExact : 0 < [(1 : Int), -1].length ∧ 1 ≤ [(1 : Int), -1].length / 2 ∧ 0 < peakBin [1, -1] := by
  decide +kernel
theorem witness_ClassifyTwoStage : 0 < 22 := by decide
theorem witness_ConstantWindowIsBinZero : 1 ≤ vectors.nsym.toNat ∧ vectors.freqLow.toNat < vectors.freqHigh.toNat := by decide
theorem witness_ScaleInvariance : (-1 : Int) ≠ 0 := by decide
theorem witness_DsymResult :
    (withWave vectors (List.replicate 22 1#16)).cfgOk = true
      ∧ (withWave vectors (List.replicate 22 1#16)).cursor.toNat + (withWave vectors (List.replicate 22 1#16)).nsym.toNat
          ≤ (withWave vectors (List.replicate 22 1#16)).waveInLen.toNat
      ∧ (withWave vectors (List.replicate 21 1#16)).waveInLen.toNat
          < (withWave vectors (List.replicate 21 1#16)).cursor.toNat + (withWave vectors (List.replicate 21 1#16)).nsym.toNat := by
  decide

/-- The outcomes of a byte window of L symbols: one sample short, an END in its first or its last window, and none. -/
structure ByteWindow (L : Nat) (short first last none : State) : Prop where
  short : short.cfgOk = true ∧ short.waveInLen.toNat < short.cursor.toNat + L * short.nsym.toNat
  first : first.cfgOk = true ∧ first.cursor.toNat + L * first.nsym.toNat ≤ first.waveInLen.toNat
    ∧ first.firstEnd first.cursor.toNat L 0
  last : last.cfgOk = true ∧ last.cursor.toNat + L * last.nsym.toNat ≤ last.waveInLen.toNat
    ∧ last.firstEnd last.cursor.toNat L (L - 1)
  none : none.cfgOk = true ∧ none.cursor.toNat + L * none.nsym.toNat ≤ none.waveInLen.toNat
    ∧ none.noEnd none.cursor.toNat L

theorem witness_DecbResult :
    ByteWindow 8 (withWave zeroEnd (zeros 7 ++ [1#16])) (withWave zeroEnd (oneEnd ++ zeros 7))
      (withWave zeroEnd (zeros 7 ++ oneEnd)) (withWave zeroEnd (zeros 8)) := by
  constructor <;> (try unfold State.firstEnd) <;> (try unfold State.noEnd) <;> decide +kernel
theorem witness_DechResult :
    ByteWindow 12 (withWave zeroEnd (zeros 11 ++ [1#16])) (withWave zeroEnd (oneEnd ++ zeros 11))
      (withWave zeroEnd (zeros 11 ++ oneEnd)) (withWave zeroEnd (zeros 12)) := by
  constructor <;> (try unfold State.firstEnd) <;> (try unfold State.noEnd) <;> decide +kernel

/-- The byte 0x40 in a waveform of its own, in WAVE_IN. -/
def sentByte : State := withWave three (three.waveSamples (plainSyms 0x40#8))

theorem witness_PlainByteRoundTrip :
    sentByte.cfgOk = true ∧ sentByte.distinguishable = true ∧ (∀ x ∈ plainSyms 0x40#8, x ∈ plainSyms 0x40#8)
      ∧ sentByte.zeroPeak (usedSymbols (plainSyms 0x40#8)) = false
      ∧ sentByte.cursor.toNat + 8 * sentByte.nsym.toNat ≤ sentByte.waveInLen.toNat
      ∧ ∀ j < 8, ∀ x ∈ (plainSyms 0x40#8)[j]?,
          sentByte.window (sentByte.cursor.toNat + j * sentByte.nsym.toNat)
            = sentByte.toneSamples (sentByte.peakPhase (usedSymbols (plainSyms 0x40#8))) x := by
  refine ⟨by decide, by decide +kernel, by decide, by decide +kernel, by decide +kernel, by decide +kernel⟩

theorem witness_DinitResult :
    vectors.cfgOk = true ∧ vectors.inRate = 44100#32 ∧ ({ vectors with inRate := 44099#32 } : State).inRate ≠ 44100#32 := by
  decide
theorem witness_DstepPreambleAndDone :
    (withWave { zeroEnd with fstate := .preamble } (zeros 10)).cfgOk = true
      ∧ (withWave { zeroEnd with fstate := .preamble } (zeros 10)).fstate = .preamble
      ∧ (withWave { zeroEnd with fstate := .preamble } (zeros 10)).cursor.toNat + 10 * zeroEnd.nsym.toNat
          ≤ (withWave { zeroEnd with fstate := .preamble } (zeros 10)).waveInLen.toNat
      ∧ (withWave { zeroEnd with fstate := .preamble } (zeros 9 ++ [1#16])).waveInLen.toNat
          < 0 + 10 * zeroEnd.nsym.toNat
      ∧ zeroEnd.fstate = .done ∧ zeroEnd.cfgOk = true := by decide

/-- In HEADER the four outcomes of a byte window, and a byte that is 0, one that fits and one that does not. -/
theorem witness_DstepHeader :
    ByteWindow 8 (withWave { zeroEnd with fstate := .header } (zeros 7 ++ [1#16]))
      (withWave { zeroEnd with fstate := .header } (oneEnd ++ zeros 7))
      (withWave { zeroEnd with fstate := .header } (zeros 7 ++ oneEnd)) (withWave { zeroEnd with fstate := .header } (zeros 8))
    ∧ packMSB ((withWave { zeroEnd with fstate := .header } (zeros 8)).bitsAt 0 8) = 0#8
    ∧ packMSB ((withWave { allOne with fstate := .header } (List.replicate 8 1#16)).bitsAt 0 8) ≠ 0#8
    ∧ (withWave { allOne with fstate := .header } (List.replicate 8 1#16)).noEnd 0 8
    ∧ allOne.extOutLen.toNat < allOne.extCap.toNat
    ∧ ({ allOne with extCap := 0#32 } : State).extOutLen = ({ allOne with extCap := 0#32 } : State).extCap := by
  refine ⟨?_, by decide +kernel, by decide +kernel, ?_, by decide, by decide⟩
  · constructor <;> (try unfold State.firstEnd) <;> (try unfold State.noEnd) <;> decide +kernel
  · unfold State.noEnd; decide +kernel

/-- In PAYLOAD the same in both modes. -/
theorem witness_DstepPayload :
    ByteWindow 8 (withWave { zeroEnd with fstate := .payload } (zeros 7 ++ [1#16]))
      (withWave { zeroEnd with fstate := .payload } (oneEnd ++ zeros 7))
      (withWave { zeroEnd with fstate := .payload } (zeros 7 ++ oneEnd)) (withWave { zeroEnd with fstate := .payload } (zeros 8))
    ∧ ByteWindow 12 (withWave { zeroEnd with fstate := .payload, mode := 1#1 } (zeros 11 ++ [1#16]))
      (withWave { zeroEnd with fstate := .payload, mode := 1#1 } (oneEnd ++ zeros 11))
      (withWave { zeroEnd with fstate := .payload, mode := 1#1 } (zeros 11 ++ oneEnd))
      (withWave { zeroEnd with fstate := .payload, mode := 1#1 } (zeros 12))
    ∧ zeroEnd.dataOutLen.toNat < zeroEnd.dataCap.toNat
    ∧ ({ zeroEnd with dataCap := 0#32 } : State).dataOutLen = ({ zeroEnd with dataCap := 0#32 } : State).dataCap := by
  refine ⟨?_, ?_, by decide, by decide⟩ <;>
    (constructor <;> (try unfold State.firstEnd) <;> (try unfold State.noEnd) <;> decide +kernel)
theorem witness_DecfRunsToDone : vectors.cfgOk = true ∧ vectors.inRate = 44100#32 := by decide

/-- A plain frame of no character, the byte 0x40 and n END symbols, played back. -/
def sentFrame (n : Nat) : State := withWave three (three.waveSamples (frameSyms 0#1 [] [0x40#8] n))

theorem witness_FrameRoundTrip : ∀ n ∈ [7, 8],
    (sentFrame n).mode = 0#1 ∧ (sentFrame n).cfgOk = true ∧ (sentFrame n).distinguishable = true
      ∧ (sentFrame n).inRate = 44100#32 ∧ (∀ b ∈ ([] : List Byte), b ≠ 0#8)
      ∧ [0x40#8].length ≤ (sentFrame n).dataCap.toNat
      ∧ (sentFrame n).zeroPeak (usedSymbols (frameSyms 0#1 [] [0x40#8] n)) = false
      ∧ (sentFrame n).waveInLen.toNat = (sentFrame n).nsym.toNat * (frameSyms 0#1 [] [0x40#8] n).length
      ∧ (sentFrame n).plays 0 ((sentFrame n).waveSamples (frameSyms 0#1 [] [0x40#8] n)) := by
  intro n hn
  rcases List.mem_pair.mp hn with rfl | rfl <;>
    exact ⟨rfl, by decide, by decide +kernel, rfl, by decide, by decide, by decide +kernel, by decide +kernel,
      by unfold State.plays; decide +kernel⟩

end Sys2Proof.Tests
end

section
/-! PROOF. NSYM as a function of SYMBOL_RATE (00_scope.md R8), and the host write that recomputes it (10_state.md R28). -/

namespace Sys2Proof.Machine

theorem nsymOf_zero : nsymOf 0#32 = 0#32 := rfl

/-- NSYM loses no bit of the quotient: from the rate 1 on it fits the register, and for the rate 0 both sides are 0
(Lean's quotient by 0). -/
theorem toNat_nsymOf (v : Word) : (nsymOf v).toNat = (2 * 44100 + v.toNat) / (2 * v.toNat) := by
  by_cases hv : v = 0#32
  · subst hv
    rfl
  · have hpos : 0 < v.toNat := Nat.pos_of_ne_zero (BitVec.toNat_ne.mp hv)
    have hfit : (2 * 44100 + v.toNat) / (2 * v.toNat) < 2 ^ 32 := Nat.div_lt_of_lt_mul (by omega)
    rw [nsymOf, if_neg hv, Config.sampleRate, BitVec.toNat_ofNat, Nat.mod_eq_of_lt hfit]

/-- NSYM is not above the exact quotient by more than a half. -/
theorem nsymOf_mul_le (v : Word) : 2 * (nsymOf v).toNat * v.toNat ≤ 2 * 44100 + v.toNat :=
  calc 2 * (nsymOf v).toNat * v.toNat
      = (2 * 44100 + v.toNat) / (2 * v.toNat) * (2 * v.toNat) := by rw [toNat_nsymOf]; ring
    _ ≤ 2 * 44100 + v.toNat := Nat.div_mul_le_self _ _

/-- NSYM is below the exact quotient by less than a half, so an exact half goes up. -/
theorem lt_nsymOf_mul {v : Word} (hv : v ≠ 0#32) : 2 * 44100 < 2 * (nsymOf v).toNat * v.toNat + v.toNat := by
  have hpos : 0 < 2 * v.toNat := Nat.mul_pos two_pos (Nat.pos_of_ne_zero (BitVec.toNat_ne.mp hv))
  have hlt := Nat.lt_div_mul_add (a := 2 * 44100 + v.toNat) hpos
  have hmul : (2 * 44100 + v.toNat) / (2 * v.toNat) * (2 * v.toNat) = 2 * (nsymOf v).toNat * v.toNat := by
    rw [toNat_nsymOf]; ring
  omega

/-- The rates that give a symbol at least one sample: the quotient is 0 for the rate 0 and, rounded, above 88200. -/
theorem one_le_nsymOf_iff (v : Word) : 1 ≤ (nsymOf v).toNat ↔ 1 ≤ v.toNat ∧ v.toNat ≤ 88200 := by
  rw [toNat_nsymOf, Nat.one_le_iff_ne_zero, Nat.div_ne_zero_iff]
  omega

/-- A write at the offset of SYMBOL_RATE stores the rate, recomputes NSYM and changes nothing else. -/
theorem hostWrite_symbolRate (v : Word) (s : State) :
    hostWrite 0x0C#32 v s = .next { s with symbolRate := v, nsym := nsymOf v } :=
  hostWrite_offset .symbolRate (by decide) v s

/-- Settles O10: the NSYM written is `nsymOf`, and each clause is a fact about its quotient. -/
theorem nsymFollowsSymbolRate : Obligations.NsymFollowsSymbolRate := fun s v =>
  ⟨nsymOf v, hostWrite_symbolRate v s, fun h => h ▸ nsymOf_zero,
    fun h => ⟨toNat_nsymOf v, nsymOf_mul_le v, lt_nsymOf_mul h⟩, one_le_nsymOf_iff v⟩

end Sys2Proof.Machine
end

section
/-! PROOF. What a command can do: the writes it makes beside STATUS, one constructor per way a command goes, and that every
command but DECF ends with one of these and a legal STATUS word (10_state.md R22, R47); DECF is DINIT and a loop of DSTEPs. -/

namespace Sys2Proof.Machine

/-- WAVE_OUT and WAVE_OUT_LEN as a completed encode command leaves them (40_tone_generator.md R118). -/
def State.putWave (s : State) (vs : List Sample) : State :=
  s.setWaveOut (s.waveOut.writeFront vs) (BitVec.ofNat 32 vs.length)

/-- SYM, BIN, BYTE, CW and SYN, the registers of a byte decoded (43_hamming.md R168, 44_frame_codec.md R193, R194). -/
def State.setByteRegs (s : State) (x : Symbol) (k : Word) (b : Byte) (c : Codeword) (y : BitVec 4) : State :=
  ((s.setSymBin x k).setByte b).setCode c y

@[simp] theorem setByteRegs_eq (s : State) (x : Symbol) (k : Word) (b : Byte) (c : Codeword) (y : BitVec 4) :
    s.setByteRegs x k b c y = ((s.setSymBin x k).setByte b).setCode c y := rfl

@[simp] theorem putWave_eq (s : State) (vs : List Sample) :
    s.putWave vs = s.setWaveOut (s.waveOut.writeFront vs) (BitVec.ofNat 32 vs.length) := rfl

/-- The windows a command moves CURSOR over are there (41_symbol_detector.md R130), in a good configuration. -/
def State.consumes (s : State) (L : Nat) : Prop := s.cfgOk = true ∧ s.avail s.cursor.toNat L = true

/-- What a command other than DECF has written when it comes to write STATUS (10_state.md R47). -/
inductive Writes (s : State) : Instr → State → Prop
  /-- A command refused, a byte window that is too short, and DSTEP in DONE. -/
  | nothing (i : Instr) : Writes s i s
  /-- OVERFLOW and ZERO_PEAK of an encode command. -/
  | waveDropped (i : Instr) (h : (s.commandSyms i).isSome = true) : Writes s i (s.setWaveOut s.waveOut 0#32)
  | tone (sym : BitVec 2) (x : Symbol) (vs : List Sample) (hfit : vs.length ≤ s.waveCap.toNat) :
      Writes s (.tone sym) ((s.putWave vs).setSymBin x s.bin)
  | encb (b : Byte) (vs : List Sample) (hfit : vs.length ≤ s.waveCap.toNat) :
      Writes s (.encb b) ((s.putWave vs).setByte b)
  | ench (b : Byte) (c : Codeword) (y : BitVec 4) (vs : List Sample) (hfit : vs.length ≤ s.waveCap.toNat) :
      Writes s (.ench b) (((s.putWave vs).setByte b).setCode c y)
  | encf (vs : List Sample) (hfit : vs.length ≤ s.waveCap.toNat) : Writes s .encf (s.putWave vs)
  | dsym (x : Symbol) (k : Word) (hc : s.consumes 1) : Writes s .dsym ((s.setSymBin x k).advance 1)
  | decbEnded (x : Symbol) (k : Word) : Writes s .decb (s.setSymBin x k)
  | decb (x : Symbol) (k : Word) (b : Byte) (hc : s.consumes 8) :
      Writes s .decb (((s.setSymBin x k).setByte b).advance 8)
  | dechEnded (x : Symbol) (k : Word) : Writes s .dech (s.setSymBin x k)
  | dech (x : Symbol) (k : Word) (b : Byte) (c : Codeword) (y : BitVec 4) (hc : s.consumes 12) :
      Writes s .dech ((s.setByteRegs x k b c y).advance 12)
  | rateMismatch : Writes s .dinit (s.setFstate .done).clearOutputs
  | dinit (f : FState) : Writes s .dinit ((s.clearOutputs.setCursor 0#32).setFstate f)
  | dstepEnded (x : Symbol) (k : Word) (b : Byte) (c : Codeword) (y : BitVec 4) :
      Writes s .dstep ((s.setByteRegs x k b c y).setFstate .done)
  | dstep (x : Symbol) (k : Word) (b : Byte) (c : Codeword) (y : BitVec 4) (L : Nat) (f : FState)
      (hL : L = 8 ∨ L = 10 ∨ L = 12) (hc : s.consumes L) :
      Writes s .dstep (((s.setByteRegs x k b c y).setFstate f).advance L)
  | dstepHeader (x : Symbol) (k : Word) (b : Byte) (c : Codeword) (y : BitVec 4) (L : Nat) (f : FState)
      (hL : L = 8 ∨ L = 10 ∨ L = 12) (hc : s.consumes L) (hcap : s.extOutLen ≠ s.extCap) :
      Writes s .dstep ((((s.setByteRegs x k b c y).setFstate f).appendExtOut b).advance L)
  | dstepPayload (x : Symbol) (k : Word) (b : Byte) (c : Codeword) (y : BitVec 4) (L : Nat) (f : FState)
      (hL : L = 8 ∨ L = 10 ∨ L = 12) (hc : s.consumes L) (hcap : s.dataOutLen ≠ s.dataCap) :
      Writes s .dstep ((((s.setByteRegs x k b c y).setFstate f).appendDataOut b).advance L)
  | henc (b : Byte) (c : Codeword) (y : BitVec 4) : Writes s (.henc b) ((s.setByte b).setCode c y)
  | hdec (cw : Codeword) (b : Byte) (c : Codeword) (y : BitVec 4) : Writes s (.hdec cw) ((s.setCode c y).setByte b)

/-- A command that ends in t: one of its writes, then a STATUS word of those listed (10_state.md R22). -/
def Ends (i : Instr) (s t : State) : Prop := ∃ r st, Writes s i r ∧ legalStatus st = true ∧ t = r.setStatus st

theorem legalStatus_statusError (e : CoreError) : legalStatus (statusError e) = true := by cases e <;> decide

/-- The flags of a command that is carried out are never ISEND and TRUNC together (10_state.md R22). -/
theorem legalStatus_statusOk {isend trunc : Bool} (h : (isend && trunc) = false) :
    legalStatus (statusOk isend trunc) = true := by
  revert isend trunc; decide

theorem Writes.ends_raise {i : Instr} {s r : State} (h : Writes s i r) (e : CoreError) : Ends i s (raise e r) :=
  ⟨r, _, h, legalStatus_statusError e, rfl⟩

theorem Writes.ends_finish {i : Instr} {s r : State} (h : Writes s i r) {isend trunc : Bool}
    (hf : (isend && trunc) = false) : Ends i s (finish isend trunc r) :=
  ⟨r, _, h, legalStatus_statusOk hf, rfl⟩

/-- The four ways an encode command ends (40_tone_generator.md R118): `hres` says what it writes where it completes. -/
theorem encodeCommand_ends {i : Instr} {s : State} {syms : List Symbol} {results : State → State}
    (hi : s.commandSyms i = some syms)
    (hres : ∀ vs, vs.length ≤ s.waveCap.toNat → Writes s i (results (s.putWave vs))) :
    Ends i s (encodeCommand syms.length syms results s) := by
  have hdrop : Writes s i (s.setWaveOut s.waveOut 0#32) := .waveDropped i (by rw [hi]; rfl)
  rcases encodeCommand_cases syms.length syms results s with ⟨h, _⟩ | ⟨h, _⟩ | ⟨h, _⟩ | ⟨h, _, hfit⟩ <;> rw [h]
  · exact (Writes.nothing i).ends_raise _
  · exact hdrop.ends_raise _
  · exact hdrop.ends_raise _
  · have hw := hres (s.waveSamples syms) (by rwa [waveSamples_length])
    rw [State.putWave, waveSamples_length] at hw
    exact hw.ends_finish rfl

/-- TONE with the code 3 is refused; with a symbol it is an encode command (40_tone_generator.md R119). -/
theorem execTone_ends {sym : BitVec 2} {s t : State} (h : execTone sym s = .next t) : Ends (.tone sym) s t := by
  unfold execTone at h
  cases hx : Symbol.ofCode sym with
  | none =>
    rw [hx] at h
    exact Host.Outcome.next.inj h ▸ (Writes.nothing _).ends_raise _
  | some x =>
    rw [hx] at h
    exact Host.Outcome.next.inj h ▸ encodeCommand_ends (syms := [x]) (by rw [State.commandSyms, hx]; rfl)
      fun vs hv => .tone sym x vs hv

theorem execEncf_ends {s t : State} (h : execEncf s = .next t) : Ends .encf s t := by
  have hlen : (frameSyms s.mode s.extInput s.dataInput s.endRepeat.toNat).length
      = frameLen s.mode s.extInLen.toNat s.dataInLen.toNat s.endRepeat.toNat := by simp
  rw [execEncf, ← hlen] at h
  exact Host.Outcome.next.inj h ▸ encodeCommand_ends (i := .encf) rfl fun vs hv => .encf vs hv

theorem dsym_ends (s : State) : Ends .dsym s (dsym s) := by
  unfold dsym
  cases hc : s.cfgOk with
  | false => exact (Writes.nothing _).ends_raise _
  | true =>
    cases ha : s.avail s.cursor.toNat 1 with
    | false => exact (Writes.nothing _).ends_raise _
    | true => exact (Writes.dsym _ _ ⟨hc, ha⟩).ends_finish (Bool.and_false _)

theorem decb_ends (s : State) : Ends .decb s (decb s) := by
  unfold decb
  cases hc : s.cfgOk with
  | false => exact (Writes.nothing _).ends_raise _
  | true =>
    obtain ⟨r, x, k, h, ha⟩ := decodeByteWindow_cases s.cursor.toNat Config.plainLen s
    rw [h]
    cases r with
    | trunc => exact (Writes.decbEnded x k).ends_finish rfl
    | endMark => exact (Writes.decbEnded x k).ends_finish rfl
    | bits v => exact (Writes.decb x k (packMSB v) ⟨hc, ha (by simp)⟩).ends_finish rfl

theorem dech_ends (s : State) : Ends .dech s (dech s) := by
  unfold dech
  cases hc : s.cfgOk with
  | false => exact (Writes.nothing _).ends_raise _
  | true =>
    obtain ⟨r, x, k, h, ha⟩ := decodeByteWindow_cases s.cursor.toNat Config.cwLen s
    rw [h]
    cases r with
    | trunc => exact (Writes.dechEnded x k).ends_finish rfl
    | endMark => exact (Writes.dechEnded x k).ends_finish rfl
    | bits v =>
      exact (Writes.dech x k (extract (correct (packCode v))) (correct (packCode v)) (syndrome (packCode v))
        ⟨hc, ha (by simp)⟩).ends_finish rfl

theorem dinit_ends (s : State) : Ends .dinit s (dinit s) := by
  rw [dinit_eq]
  split
  · exact (Writes.nothing _).ends_raise _
  · split
    · exact Writes.rateMismatch.ends_raise _
    · exact (Writes.dinit _).ends_finish rfl

/-- DSTEP, by its cases (44_frame_codec.md R191 to R195). -/
theorem dstep_ends (s : State) : Ends .dstep s (dstep s) := by
  rcases dstep_cases s with ⟨h, _⟩ | ⟨x, k, b, c, y, ⟨st, h, hst, _⟩ | ⟨L, f, hL, ha, hc, h | ⟨h, hcap⟩ | ⟨h, hcap⟩⟩⟩
    <;> rw [h]
  · exact (Writes.nothing _).ends_raise _
  · exact ⟨_, st, .dstepEnded x k b c y, by rcases hst with rfl | rfl | rfl | rfl <;> decide, rfl⟩
  · exact (Writes.dstep x k b c y L f hL ⟨hc, ha⟩).ends_finish rfl
  · exact (Writes.dstepHeader x k b c y L f hL ⟨hc, ha⟩ hcap).ends_finish rfl
  · exact (Writes.dstepPayload x k b c y L f hL ⟨hc, ha⟩ hcap).ends_finish rfl

/-- Every command but DECF ends with one of its writes and a legal STATUS word. -/
theorem exec_ends {i : Instr} {s t : State} (hi : i ≠ .decf) (h : exec i s = .next t) : Ends i s t := by
  cases i with
  | tone sym => exact execTone_ends h
  | encb b => exact Host.Outcome.next.inj h ▸ encodeCommand_ends (i := .encb b) rfl fun vs hv => .encb b vs hv
  | ench b => exact Host.Outcome.next.inj h ▸ encodeCommand_ends (i := .ench b) rfl fun vs hv => .ench b _ _ vs hv
  | encf => exact execEncf_ends h
  | dsym => exact Host.Outcome.next.inj h ▸ dsym_ends s
  | decb => exact Host.Outcome.next.inj h ▸ decb_ends s
  | dech => exact Host.Outcome.next.inj h ▸ dech_ends s
  | decf => exact absurd rfl hi
  | dinit => exact Host.Outcome.next.inj h ▸ dinit_ends s
  | dstep => exact Host.Outcome.next.inj h ▸ dstep_ends s
  | henc b => exact Host.Outcome.next.inj h ▸ (Writes.henc b _ _).ends_finish rfl
  | hdec cw => exact Host.Outcome.next.inj h ▸ (Writes.hdec cw _ _ _).ends_finish rfl

/-- What holds at the start of a loop of DSTEPs and is kept by each holds at its end. -/
theorem decodeLoop_induction {P : State → Prop} (hstep : ∀ u, P u → P (dstep u)) {s : State} (hs : P s) (fuel : Nat) :
    P (decodeLoop fuel s) := by
  obtain ⟨n, -, h, -⟩ := decodeLoop_iterate fuel s
  rw [h]
  exact Function.Iterate.rec P hs hstep n

/-- So for DECF: what DINIT gives and each DSTEP keeps (44_frame_codec.md R196). -/
theorem decf_induction {P : State → Prop} (hstep : ∀ u, P u → P (dstep u)) {s : State} (hs : P (dinit s)) : P (decf s) := by
  rcases decf_cases s with ⟨h, _⟩ | ⟨_, _, h⟩ <;> rw [h]
  · exact hs
  · exact decodeLoop_induction hstep hs _

/-- A property of the next state holds after every command, if it holds after each command but DECF and each DSTEP keeps it. -/
theorem exec_induction {P : State → Prop} {s : State} (hends : ∀ i t, Ends i s t → P t) (hstep : ∀ u, P u → P (dstep u))
    {i : Instr} {t : State} (h : exec i s = .next t) : P t := by
  by_cases hi : i = .decf
  · subst hi
    exact Host.Outcome.next.inj h ▸ decf_induction hstep (hends _ _ (dinit_ends s))
  · exact hends i t (exec_ends hi h)

/-- Settles O19: each command's end writes a legal word, and so does the last DSTEP of a DECF. -/
theorem statusWordsLegal : Obligations.StatusWordsLegal := by
  intro i s t h
  have hends : ∀ i s t, Ends i s t → legalStatus t.status = true := by
    rintro i s _ ⟨r, st, _, hst, rfl⟩
    exact hst
  exact exec_induction (hends · s) (fun u _ => hends _ _ _ (dstep_ends u)) h

end Sys2Proof.Machine
end

section
/-! PROOF. What a command leaves unchanged (10_state.md R47, 60_exceptions.md R233), and where it leaves CURSOR (R29). -/

namespace Sys2Proof.Machine

/-- s with what command i writes, and nothing else, as in t: the rows of 10_state.md R47. -/
def State.withWritten (s : State) (i : Instr) (t : State) : State :=
  match i with
  | .tone _ => { s with status := t.status, sym := t.sym, waveOut := t.waveOut, waveOutLen := t.waveOutLen }
  | .encb _ => { s with status := t.status, byte := t.byte, waveOut := t.waveOut, waveOutLen := t.waveOutLen }
  | .ench _ =>
    { s with
      status := t.status, byte := t.byte, cw := t.cw, syn := t.syn, waveOut := t.waveOut, waveOutLen := t.waveOutLen }
  | .encf => { s with status := t.status, waveOut := t.waveOut, waveOutLen := t.waveOutLen }
  | .dsym => { s with status := t.status, sym := t.sym, bin := t.bin, cursor := t.cursor }
  | .decb => { s with status := t.status, sym := t.sym, bin := t.bin, byte := t.byte, cursor := t.cursor }
  | .dech =>
    { s with
      status := t.status, sym := t.sym, bin := t.bin, byte := t.byte, cw := t.cw, syn := t.syn, cursor := t.cursor }
  | .dinit =>
    { s with
      status := t.status, fstate := t.fstate, cursor := t.cursor, extOutLen := t.extOutLen, dataOutLen := t.dataOutLen }
  | .dstep | .decf =>
    { s with
      status := t.status, fstate := t.fstate, cursor := t.cursor, sym := t.sym, bin := t.bin, byte := t.byte,
      cw := t.cw, syn := t.syn, extOut := t.extOut, extOutLen := t.extOutLen, dataOut := t.dataOut,
      dataOutLen := t.dataOutLen }
  | .henc _ | .hdec _ => { s with status := t.status, byte := t.byte, cw := t.cw, syn := t.syn }

/-- A command other than DECF writes nothing outside its row. The updates are unfolded to plain records here, once. -/
theorem Ends.eq_withWritten {i : Instr} {s t : State} (h : Ends i s t) : t = s.withWritten i t := by
  obtain ⟨r, st, hw, -, rfl⟩ := h
  cases hw with
  | nothing => cases i <;> rfl
  | waveDropped _ h =>
    cases i <;> try contradiction
    all_goals rfl
  | _ =>
    simp only [State.withWritten, State.setStatus, State.setSymBin, State.setByte, State.setCode, State.setByteRegs,
      State.setCursor, State.advance, State.setFstate, State.setWaveOut, State.putWave, State.clearOutputs,
      State.appendExtOut, State.appendDataOut]

/-- The row of DINIT is within that of DECF. -/
theorem dinit_eq_withWritten (s : State) : dinit s = s.withWritten .decf (dinit s) := by
  rw [(dinit_ends s).eq_withWritten]
  rfl

/-- A DSTEP after writes of DECF's row is within the row. -/
theorem dstep_eq_withWritten {s u : State} (hu : u = s.withWritten .decf u) : dstep u = s.withWritten .decf (dstep u) := by
  rw [(dstep_ends u).eq_withWritten]
  generalize dstep u = t
  rw [hu]
  rfl

/-- Every command writes nothing outside its row. -/
theorem exec_eq_withWritten {i : Instr} {s t : State} (h : exec i s = .next t) : t = s.withWritten i t := by
  by_cases hi : i = .decf
  · subst hi
    rw [← Host.Outcome.next.inj h]
    exact decf_induction (P := fun u => u = s.withWritten .decf u) (fun _ => dstep_eq_withWritten) (dinit_eq_withWritten s)
  · exact (exec_ends hi h).eq_withWritten

/-- Settles O22: each clause is the command's row; DSTEP and DECF have one in common. -/
theorem commandWrites : Obligations.CommandWrites := fun _ _ =>
  ⟨fun _ => exec_eq_withWritten, fun _ => exec_eq_withWritten, fun _ => exec_eq_withWritten, exec_eq_withWritten,
    exec_eq_withWritten, exec_eq_withWritten, exec_eq_withWritten, exec_eq_withWritten,
    Or.rec exec_eq_withWritten exec_eq_withWritten, fun _ => exec_eq_withWritten, fun _ => exec_eq_withWritten⟩

/-- Settles O21: what the statement lists stands in no row. -/
theorem commandsKeepTheHostsState : Obligations.CommandsKeepTheHostsState := by
  intro i s t h
  rw [exec_eq_withWritten h]
  cases i <;> simp [State.withWritten]

/-! CURSOR. -/

/-- The numbers of windows a command can move CURSOR over (10_state.md R29). -/
def WindowCount (i : Instr) (k : Nat) : Prop :=
  (i = .dsym ∧ k = 1) ∨ (i = .decb ∧ k = 8) ∨ (i = .dech ∧ k = 12) ∨ (i = .dstep ∧ (k = 8 ∨ k = 10 ∨ k = 12))

/-- CURSOR of t is that of s moved on by k whole windows, all of them there. -/
def CursorAdvanced (k : Nat) (s t : State) : Prop :=
  t.cursor.toNat = s.cursor.toNat + k * s.nsym.toNat ∧ t.cursor.toNat ≤ s.waveInLen.toNat

theorem State.consumes.advanced {s r : State} {L : Nat} (h : s.consumes L) (hL : 1 ≤ L)
    (hr : r.cursor = BitVec.ofNat 32 (s.cursor.toNat + L * s.nsym.toNat)) : CursorAdvanced L s r := by
  obtain ⟨hc, ha⟩ := h
  obtain ⟨heq, hle⟩ := advance_toNat (Nat.mul_pos hL ((cfgOk_iff s).mp hc).2) ha
  exact ⟨by rw [hr, heq], by rwa [hr, heq]⟩

/-- Where a command other than DECF leaves CURSOR. -/
theorem Ends.cursor {i : Instr} {s t : State} (h : Ends i s t) :
    t.cursor = s.cursor ∨ (∃ k, WindowCount i k ∧ CursorAdvanced k s t) ∨ (i = .dinit ∧ t.cursor = 0#32) := by
  obtain ⟨r, st, hw, -, rfl⟩ := h
  cases hw with
  | dsym x k hc => exact .inr (.inl ⟨1, .inl ⟨rfl, rfl⟩, hc.advanced (by omega) (by simp)⟩)
  | decb x k b hc => exact .inr (.inl ⟨8, .inr (.inl ⟨rfl, rfl⟩), hc.advanced (by omega) (by simp)⟩)
  | dech x k b c y hc => exact .inr (.inl ⟨12, .inr (.inr (.inl ⟨rfl, rfl⟩)), hc.advanced (by omega) (by simp)⟩)
  | dstep x k b c y L f hL hc | dstepHeader x k b c y L f hL hc | dstepPayload x k b c y L f hL hc =>
    exact .inr (.inl ⟨L, .inr (.inr (.inr ⟨rfl, hL⟩)), hc.advanced (by omega) (by simp)⟩)
  | dinit f => exact .inr (.inr ⟨rfl, rfl⟩)
  | _ => exact .inl (by simp)

/-- CURSOR of t stands a number of whole windows of s from 0, within s's WAVE_IN, which is t's (10_state.md R29, R47). -/
structure CursorFromZero (s t : State) : Prop where
  nsym : t.nsym = s.nsym
  waveInLen : t.waveInLen = s.waveInLen
  windows : ∃ k, t.cursor.toNat = k * s.nsym.toNat
  within : t.cursor.toNat ≤ s.waveInLen.toNat

/-- A DSTEP keeps CURSOR a number of whole windows from 0. -/
theorem CursorFromZero.dstep {s u : State} (h : CursorFromZero s u) : CursorFromZero s (dstep u) := by
  obtain ⟨hn, hl, ⟨m, hm⟩, hw⟩ := h
  have hframe := (dstep_ends u).eq_withWritten
  have hn' : (Machine.dstep u).nsym = s.nsym := by rw [hframe]; exact hn
  have hl' : (Machine.dstep u).waveInLen = s.waveInLen := by rw [hframe]; exact hl
  rcases (dstep_ends u).cursor with h | ⟨k, -, h, hle⟩ | ⟨h, -⟩
  · exact ⟨hn', hl', ⟨m, h ▸ hm⟩, h ▸ hw⟩
  · exact ⟨hn', hl', ⟨m + k, by rw [h, hm, hn, Nat.add_mul]⟩, hl ▸ hle⟩
  · cases h

/-- DINIT where it completes. -/
theorem dinit_cursorFromZero {s : State} (hc : s.cfgOk = true) (hr : s.inRate.toNat = 44100) :
    CursorFromZero s (dinit s) := by
  rw [dinit_eq, if_neg (by simp [hc]), if_neg (by simp [hr])]
  exact ⟨by simp, by simp, ⟨0, by simp⟩, by simp⟩

theorem decf_cursor (s : State) : (decf s).cursor = s.cursor ∨ CursorFromZero s (decf s) := by
  rcases decf_cases s with ⟨h, hbad⟩ | ⟨hc, hr, h⟩ <;> rw [h]
  · left
    rw [dinit_eq]
    rcases hbad with hc | hr
    · rw [if_pos hc]; rfl
    · rw [if_pos hr]; split <;> rfl
  · exact .inr (decodeLoop_induction (P := CursorFromZero s) (fun _ => CursorFromZero.dstep) (dinit_cursorFromZero hc hr) _)

/-- Where any command leaves CURSOR. -/
theorem exec_cursor {i : Instr} {s t : State} (h : exec i s = .next t) :
    t.cursor = s.cursor ∨ (∃ k, WindowCount i k ∧ CursorAdvanced k s t)
      ∨ ((i = .dinit ∨ i = .decf) ∧ (∃ k, t.cursor.toNat = k * s.nsym.toNat) ∧ t.cursor.toNat ≤ s.waveInLen.toNat) := by
  by_cases hi : i = .decf
  · subst hi
    rw [← Host.Outcome.next.inj h]
    exact (decf_cursor s).imp_right fun hz => .inr ⟨.inr rfl, hz.windows, hz.within⟩
  · rcases (exec_ends hi h).cursor with hs | hk | ⟨hd, hz⟩
    · exact .inl hs
    · exact .inr (.inl hk)
    · exact .inr (.inr ⟨.inl hd, ⟨0, by simp [hz]⟩, by simp [hz]⟩)

/-- Settles O25: a CURSOR that stays, moves on by whole windows, or is put on one from 0. -/
theorem cursorInWholeWindows : Obligations.CursorInWholeWindows := by
  intro i s t h
  rcases exec_cursor h with h | ⟨k, hk, h, hle⟩ | ⟨hi, ⟨k, h⟩, hle⟩
  · exact ⟨.inl h, fun hd => h ▸ hd, .inl h⟩
  · exact ⟨.inr (.inl ⟨k, hk, h⟩), fun hd => h ▸ Nat.dvd_add hd (Nat.dvd_mul_left _ k), .inr hle⟩
  · exact ⟨.inr (.inr ⟨hi, k, h⟩), fun _ => h ▸ Nat.dvd_mul_left _ k, .inr hle⟩

end Sys2Proof.Machine
end

section
/-! PROOF. Steps, and what a host access at each offset of the register map does (10_state.md R20 to R38, R45); the reset
values (R46). -/

namespace Sys2Proof.Machine

/-- A row's bits that decode are those of one command word that decodes. -/
theorem decode_of_decodeTableWord {nbits w : Nat} {i : Instr} (h : decodeTableWord nbits w = some i) :
    decode (BitVec.ofNat 32 (w % 2 ^ nbits)) = .ok i := by
  unfold decodeTableWord tableWord at h
  split at h
  · cases h
  · rename_i v hv
    split at hv
    · obtain rfl := Option.some.inj hv
      cases hd : decode (BitVec.ofNat 32 (w % 2 ^ nbits)) with
      | ok j => rw [hd] at h; exact congrArg _ (Option.some.inj h)
      | error e => rw [hd] at h; cases h
    · cases hv

/-- A step with a write of CMD waiting, of a word that decodes, runs the command. -/
theorem step_command {s : State} {w : Word} {rest : List HostAction} {i : Instr}
    (hp : s.pending = .wr 0x00#32 w :: rest) (hd : decode w = .ok i) : step s = exec i (s.take rest) := by
  rw [step_cons hp]
  exact (hostWrite_cmd w _).trans (runCommand_ok hd _)

/-- A write-back writes the value read last (30_encoding.md R100). -/
theorem act_wrLast {s : State} {v : Word} {older : List Word} (h : s.reads = v :: older) (off : Word) :
    act (.wrLast off) s = hostWrite off v s := by
  rw [act, h]

/-- Settles O5: each clause is the step with its action waiting. -/
theorem stepRunsDecodedCommand : Obligations.StepRunsDecodedCommand := by
  refine ⟨fun s w rest i hp hd => step_command hp hd, fun s nbits w i h => ?_, fun s off rest hp => step_cons hp,
    fun s off v rest hp => step_cons hp, fun s off v rest older hp hr => ?_, fun s hp => by rw [step, hp]⟩
  · exact step_command (s := s.withFetchWord nbits w) rfl (decode_of_decodeTableWord h)
  · exact (step_cons hp).trans (act_wrLast (s := s.take rest) hr off)

/-! Reads. -/

/-- The registers of the map but BUF_DATA (10_state.md R20). -/
def plainRegs : List Reg :=
  [.cmd, .status, .mode, .symbolRate, .freqLow, .freqHigh, .freqEnd, .endRepeat, .inRate, .nsym, .cursor, .fstate,
   .byte, .cw, .syn, .sym, .bin, .extInLen, .dataInLen, .waveInLen, .extOutLen, .dataOutLen, .waveOutLen, .bufSel, .bufIdx]

/-- Settles O6: the offsets and values listed are those of the registers, and a read at a register's offset adds its value. -/
theorem registerReads : Obligations.RegisterReads := by
  intro s x hx
  obtain ⟨r, -, rfl⟩ : ∃ r ∈ plainRegs, (r.offset, s.readReg r) = x := by
    refine List.mem_map.mp (Eq.mp (congrArg (x ∈ ·) ?_) hx)
    simp only [plainRegs, List.map, Reg.offset, State.readReg]
    cases s.fstate <;> cases s.sym <;> rfl
  exact hostRead_offset r s

/-! Writes. -/

theorem toNat_clampLen (cap v : Word) : (clampLen cap v).toNat = min v.toNat cap.toNat := by
  unfold clampLen
  split <;> omega

/-- Settles O7: a write at a register's offset writes the register, and a length is clamped to its capacity. -/
theorem registerWrites : Obligations.RegisterWrites := fun s v =>
  ⟨hostWrite_offset .mode (by decide) v s, hostWrite_offset .freqLow (by decide) v s,
    hostWrite_offset .freqHigh (by decide) v s, hostWrite_offset .freqEnd (by decide) v s,
    hostWrite_offset .endRepeat (by decide) v s, hostWrite_offset .inRate (by decide) v s,
    hostWrite_offset .cursor (by decide) v s, hostWrite_offset .bufSel (by decide) v s,
    hostWrite_offset .bufIdx (by decide) v s,
    ⟨_, hostWrite_offset .extInLen (by decide) v s, toNat_clampLen _ _⟩,
    ⟨_, hostWrite_offset .dataInLen (by decide) v s, toNat_clampLen _ _⟩,
    ⟨_, hostWrite_offset .waveInLen (by decide) v s, toNat_clampLen _ _⟩⟩

/-- The read-only registers (10_state.md R20). -/
def readOnlyRegs : List Reg := [.status, .nsym, .fstate, .byte, .cw, .syn, .sym, .bin, .extOutLen, .dataOutLen, .waveOutLen]

theorem writeReg_readOnly (s : State) (v : Word) : ∀ r ∈ readOnlyRegs, s.writeReg r v = s ∧ r ≠ .cmd := by
  simp [readOnlyRegs, State.writeReg]

/-- Settles O8: the offsets listed are those of the read-only registers. -/
theorem readOnlyWritesIgnored : Obligations.ReadOnlyWritesIgnored := by
  intro s v off hoff
  obtain ⟨r, hr, rfl⟩ : ∃ r ∈ readOnlyRegs, r.offset = off := List.mem_map.mp hoff
  obtain ⟨hw, hcmd⟩ := writeReg_readOnly s v r hr
  rw [hostWrite_offset r hcmd, hw]

/-- From 0x68 on no offset is in the table (10_state.md R20, R45). -/
theorem ofOffset_reserved {off : Word} (h : 0x68 ≤ off.toNat) : Reg.ofOffset off = .reserved := by
  unfold Reg.ofOffset
  split <;> try omega
  rfl

/-- Settles O9: a reserved offset is that of no register. -/
theorem reservedOffsets : Obligations.ReservedOffsets := by
  intro s off v hal hoff
  have hal' : aligned off = true := decide_eq_true hal
  rw [hostRead, hostWrite, hal', ofOffset_reserved hoff]
  exact ⟨rfl, rfl⟩

/-! Reset. -/

/-- The operand of a well-formed TONE is a symbol (30_encoding.md R82). -/
theorem ofCode_ne_none {sym : BitVec 2} : (Instr.tone sym).wellFormed = true → Symbol.ofCode sym ≠ none := by
  revert sym; decide

/-- Without a good configuration every command but HENC and HDEC is refused with BAD_CONFIG (60_exceptions.md R218). -/
theorem exec_badConfig {s : State} (hc : s.cfgOk = false) {i : Instr} (hwf : i.wellFormed = true) (henc : ∀ b, i ≠ .henc b)
    (hhdec : ∀ c, i ≠ .hdec c) : exec i s = .next (s.setStatus (statusError .badConfig)) := by
  have hencode := @encodeCommand_badConfig s hc
  cases i with
  | tone sym =>
    obtain ⟨x, hx⟩ := Option.ne_none_iff_exists'.mp (ofCode_ne_none hwf)
    simp [exec, execTone, hx, hencode]
  | encb b => simp [exec, execEncb, hencode]
  | ench b => simp [exec, execEnch, hencode]
  | encf => simp [exec, execEncf, hencode]
  | dsym => simp [exec, execDsym, dsym, hc]
  | decb => simp [exec, execDecb, decb, hc]
  | dech => simp [exec, execDech, dech, hc]
  | decf => simp [exec, execDecf, decf, dinitCore, hc]
  | dinit => simp [exec, execDinit, dinit_eq, hc]
  | dstep => simp [exec, execDstep, dstep, hc]
  | henc b => exact absurd rfl (henc b)
  | hdec c => exact absurd rfl (hhdec c)

/-- Settles O13: the values are those of the definition, and the configuration they make is not good. -/
theorem resetValues : Obligations.ResetValues :=
  ⟨rfl, rfl, rfl, rfl, rfl, rfl, rfl, rfl, rfl, rfl, rfl, rfl, rfl, rfl, rfl, rfl, rfl, rfl, rfl, rfl, rfl, rfl, rfl, rfl,
    fun _ => ⟨rfl, rfl, rfl, rfl, rfl, rfl⟩, rfl, fun _ => exec_badConfig rfl⟩

end Sys2Proof.Machine
end

section
/-! PROOF. The legal states: the reset state is one, and every update, every command, every host access and so every step
keeps a state legal (10_state.md R22, R28, R36, R37; 20_memory.md R69). -/

namespace Sys2Proof.Machine

/-- Appending an element makes the elements written one more. -/
theorem writtenBelow_write {w : Nat} {m : Memory w} {n : Nat} (h : writtenBelow m n) (v : BitVec w) :
    writtenBelow (m.write n v) (n + 1) := by
  intro i hi
  rw [Memory.read?_write]
  split
  · exact ⟨v, rfl⟩
  · exact h i (by omega)

/-- A whole output written is written up to its length. -/
theorem writtenBelow_writeFront {w : Nat} (m : Memory w) (vs : List (BitVec w)) :
    writtenBelow (m.writeFront vs) vs.length := by
  intro i hi
  exact ⟨vs[i], by simp [hi]⟩

theorem writtenBelow_zero {w : Nat} (m : Memory w) : writtenBelow m 0 := fun i hi => absurd hi (Nat.not_lt_zero i)

/-- A length that is not the capacity but not above it can be raised by 1, without wrapping. -/
theorem toNat_add_one_of_lt_cap {len cap : Word} (h : len.toNat ≤ cap.toNat) (hne : len ≠ cap) :
    len.toNat < cap.toNat ∧ (len + 1#32).toNat = len.toNat + 1 := by
  have hlt : len.toNat < cap.toNat := lt_of_le_of_ne h (BitVec.toNat_ne.mp hne)
  exact ⟨hlt, by have := cap.isLt; simp; omega⟩

/-! The updates of a command. -/

namespace State.Legal

variable {s : State} (h : s.Legal)

include h

theorem setStatus {st : BitVec 12} (hst : legalStatus st = true) : (s.setStatus st).Legal := { h with status := hst }

theorem setSymBin (x : Symbol) (k : Word) : (s.setSymBin x k).Legal := { h with }

theorem setByte (b : Byte) : (s.setByte b).Legal := { h with }

theorem setCode (c : Codeword) (y : BitVec 4) : (s.setCode c y).Legal := { h with }

theorem setCursor (c : Word) : (s.setCursor c).Legal := { h with }

theorem setFstate (f : FState) : (s.setFstate f).Legal := { h with }

theorem advance (L : Nat) : (s.advance L).Legal := h.setCursor _

theorem setByteRegs (x : Symbol) (k : Word) (b : Byte) (c : Codeword) (y : BitVec 4) : (s.setByteRegs x k b c y).Legal :=
  ((h.setSymBin x k).setByte b).setCode c y

theorem take (rest : List HostAction) : (s.take rest).Legal := { h with }

/-- An output length of 0 declares nothing valid. -/
theorem clearOutputs : s.clearOutputs.Legal :=
  { h with
    extOutLen := Nat.zero_le _, dataOutLen := Nat.zero_le _,
    extOutWritten := writtenBelow_zero _, dataOutWritten := writtenBelow_zero _ }

theorem dropWave : (s.setWaveOut s.waveOut 0#32).Legal :=
  { h with waveOutLen := Nat.zero_le _, waveOutWritten := writtenBelow_zero _ }

/-- A waveform that fits is written up to the length declared. -/
theorem putWave {vs : List Sample} (hfit : vs.length ≤ s.waveCap.toNat) : (s.putWave vs).Legal := by
  have hlen : (BitVec.ofNat 32 vs.length).toNat = vs.length :=
    Nat.mod_eq_of_lt (lt_of_le_of_lt hfit s.waveCap.isLt)
  exact { h with
    waveOutLen := hlen.symm ▸ hfit
    waveOutWf := Memory.wf_writeFront h.waveOutWf vs
    waveOutCap := withinCap_writeFront h.waveOutCap hfit
    waveOutWritten := hlen.symm ▸ writtenBelow_writeFront s.waveOut vs }

theorem appendExtOut (hcap : s.extOutLen ≠ s.extCap) (b : Byte) : (s.appendExtOut b).Legal := by
  obtain ⟨hlt, hlen⟩ := toNat_add_one_of_lt_cap h.extOutLen hcap
  exact { h with
    extOutLen := hlen.symm ▸ hlt
    extOutWf := Memory.wf_write h.extOutWf _ b
    extOutCap := withinCap_write h.extOutCap hlt b
    extOutWritten := hlen.symm ▸ writtenBelow_write h.extOutWritten b }

theorem appendDataOut (hcap : s.dataOutLen ≠ s.dataCap) (b : Byte) : (s.appendDataOut b).Legal := by
  obtain ⟨hlt, hlen⟩ := toNat_add_one_of_lt_cap h.dataOutLen hcap
  exact { h with
    dataOutLen := hlen.symm ▸ hlt
    dataOutWf := Memory.wf_write h.dataOutWf _ b
    dataOutCap := withinCap_write h.dataOutCap hlt b
    dataOutWritten := hlen.symm ▸ writtenBelow_write h.dataOutWritten b }

/-! The commands. -/

theorem writes {i : Instr} {r : State} (hw : Writes s i r) : r.Legal := by
  cases hw with
  | nothing => exact h
  | waveDropped => exact h.dropWave
  | tone sym x vs hfit => exact (h.putWave hfit).setSymBin x _
  | encb b vs hfit => exact (h.putWave hfit).setByte b
  | ench b c y vs hfit => exact ((h.putWave hfit).setByte b).setCode c y
  | encf vs hfit => exact h.putWave hfit
  | dsym x k => exact (h.setSymBin x k).advance 1
  | decbEnded x k | dechEnded x k => exact h.setSymBin x k
  | decb x k b => exact ((h.setSymBin x k).setByte b).advance 8
  | dech x k b c y => exact (h.setByteRegs x k b c y).advance 12
  | rateMismatch => exact (h.setFstate .done).clearOutputs
  | dinit f => exact (h.clearOutputs.setCursor _).setFstate f
  | dstepEnded x k b c y => exact (h.setByteRegs x k b c y).setFstate .done
  | dstep x k b c y L f => exact ((h.setByteRegs x k b c y).setFstate f).advance L
  | dstepHeader x k b c y L f _ _ hcap => exact (((h.setByteRegs x k b c y).setFstate f).appendExtOut hcap b).advance L
  | dstepPayload x k b c y L f _ _ hcap => exact (((h.setByteRegs x k b c y).setFstate f).appendDataOut hcap b).advance L
  | henc b c y => exact (h.setByte b).setCode c y
  | hdec cw b c y => exact (h.setCode c y).setByte b

theorem ends {i : Instr} {t : State} (he : Ends i s t) : t.Legal := by
  obtain ⟨r, st, hw, hst, rfl⟩ := he
  exact (h.writes hw).setStatus hst

/-- Every command keeps a state legal. -/
theorem exec {i : Instr} {t : State} (ht : Machine.exec i s = .next t) : t.Legal :=
  exec_induction (fun _ _ => h.ends) (fun u hu => hu.ends (dstep_ends u)) ht

theorem runCommand {w : Word} {t : State} (ht : Machine.runCommand w s = .next t) : t.Legal := by
  cases hd : decode w with
  | ok i => exact h.exec (runCommand_ok hd s ▸ ht)
  | error e =>
    rw [runCommand_error hd] at ht
    exact Host.Outcome.next.inj ht ▸ h.setStatus (legalStatus_statusError .illegalCmd)

/-! The host's accesses. -/

/-- A write of BUF_DATA stores below the capacity or not at all (20_memory.md R63). -/
theorem writeBufData (v : Word) : (s.writeBufData v).Legal := by
  unfold State.writeBufData
  dsimp only
  split <;> try split
  · rename_i hi
    exact { h with extInWf := Memory.wf_write h.extInWf _ _, extInCap := withinCap_write h.extInCap hi _ }
  · exact h
  · rename_i hi
    exact { h with dataInWf := Memory.wf_write h.dataInWf _ _, dataInCap := withinCap_write h.dataInCap hi _ }
  · exact h
  · rename_i hi
    exact { h with waveInWf := Memory.wf_write h.waveInWf _ _, waveInCap := withinCap_write h.waveInCap hi _ }
  · exact h
  · exact h

theorem writeReg (r : Reg) (v : Word) : (s.writeReg r v).Legal := by
  have hclamp (cap : Word) : (clampLen cap v).toNat ≤ cap.toNat := toNat_clampLen cap v ▸ Nat.min_le_right _ _
  cases r with
  | symbolRate => exact { h with nsym := rfl }
  | extInLen => exact { h with extInLen := hclamp _ }
  | dataInLen => exact { h with dataInLen := hclamp _ }
  | waveInLen => exact { h with waveInLen := hclamp _ }
  | bufData => exact h.writeBufData v
  | _ => exact { h with }

theorem hostWrite {off v : Word} {t : State} (ht : Machine.hostWrite off v s = .next t) : t.Legal := by
  unfold Machine.hostWrite at ht
  split at ht
  · cases ht
  · split at ht
    · exact h.runCommand ht
    · exact Host.Outcome.next.inj ht ▸ h.writeReg _ v

theorem hostRead {off : Word} {t : State} (ht : Machine.hostRead off s = .next t) : t.Legal := by
  unfold Machine.hostRead at ht
  split at ht
  · cases ht
  · exact Host.Outcome.next.inj ht ▸ { h with }

end State.Legal

/-- After the reset event every state is legal (70_reset_and_hazards.md R240). -/
theorem afterReset_legal (s : State) : s.afterReset.Legal where
  nsym := nsymOf_zero.symm
  status := rfl
  extInLen := Nat.zero_le _
  dataInLen := Nat.zero_le _
  waveInLen := Nat.zero_le _
  extOutLen := Nat.zero_le _
  dataOutLen := Nat.zero_le _
  waveOutLen := Nat.zero_le _
  extInWf := rfl
  dataInWf := rfl
  waveInWf := rfl
  extOutWf := rfl
  dataOutWf := rfl
  waveOutWf := rfl
  extInCap := nofun
  dataInCap := nofun
  waveInCap := nofun
  extOutCap := nofun
  dataOutCap := nofun
  waveOutCap := nofun
  extOutWritten := writtenBelow_zero _
  dataOutWritten := writtenBelow_zero _
  waveOutWritten := writtenBelow_zero _

/-- Settles O15: the reset state is what the reset event makes of it. -/
theorem resetIsLegal : Obligations.ResetIsLegal := afterReset_legal State.reset

/-- Every action of the host keeps a state legal. -/
theorem State.Legal.act {s t : State} (h : s.Legal) {a : HostAction} (ht : Machine.act a s = .next t) : t.Legal := by
  cases a with
  | wr off v => exact h.hostWrite ht
  | rd off => exact h.hostRead ht
  | wrLast off =>
    cases hr : s.reads with
    | nil =>
      rw [Machine.act, hr] at ht
      cases ht
    | cons v older => exact h.hostWrite (act_wrLast hr off ▸ ht)
  | reset => exact Host.Outcome.next.inj ht ▸ afterReset_legal s

/-- Settles O16: a step is one action of the host, in the state that the action is taken from the queue in. -/
theorem stepKeepsLegal : Obligations.StepKeepsLegal := by
  intro s t h ht
  cases hp : s.pending with
  | nil =>
    rw [step, hp] at ht
    exact Host.Outcome.next.inj ht ▸ h
  | cons a rest => exact (h.take rest).act (step_cons hp ▸ ht)

end Sys2Proof.Machine
end

section
/-! PROOF. The host's reads and writes of BUF_DATA (20_memory.md R62, R63), and when a step stops (R61; assumptions 6
and 7). -/

namespace Sys2Proof.Machine

/-! Reads of BUF_DATA. -/

/-- Where BUF_SEL is known, `readBufData` computes to the view of the one buffer it selects (10_state.md R39). -/
theorem readBufData_select {s : State} {sel : BitVec 3} (h : s.bufSel = sel) :
    s.readBufData = State.readBufData { s with bufSel := sel } := by
  subst h
  rfl

/-- The selections 6 and 7 select nothing (20_memory.md R62). -/
theorem readBufData_unselected {s : State} (h : 6 ≤ s.bufSel.toNat) : s.readBufData = 0#32 := by
  unfold State.readBufData
  split <;> try omega
  rfl

/-- Settles O11: a read at the offset of BUF_DATA adds `readBufData` to the host's values, and each selection is a case of it. -/
theorem bufferReads : Obligations.BufferReads := fun s =>
  ⟨s.readBufData, hostRead_offset .bufData s, readBufData_select, readBufData_select, readBufData_select,
    readBufData_select, readBufData_select, readBufData_select, readBufData_unselected⟩

/-! Writes of BUF_DATA. -/

/-- A write at the offset of BUF_DATA. -/
theorem hostWrite_bufData (v : Word) (s : State) : hostWrite 0x64#32 v s = .next (s.writeBufData v) :=
  hostWrite_offset .bufData (by decide) v s

theorem writeBufData_extIn {s : State} (h : s.bufSel = 0#3) (v : Word) :
    s.writeBufData v = if s.bufIdx.toNat < s.extCap.toNat
      then { s with extIn := s.extIn.write s.bufIdx.toNat (v.setWidth 8) } else s := by
  rw [State.writeBufData, h]
  rfl

theorem writeBufData_dataIn {s : State} (h : s.bufSel = 1#3) (v : Word) :
    s.writeBufData v = if s.bufIdx.toNat < s.dataCap.toNat
      then { s with dataIn := s.dataIn.write s.bufIdx.toNat (v.setWidth 8) } else s := by
  rw [State.writeBufData, h]
  rfl

theorem writeBufData_waveIn {s : State} (h : s.bufSel = 2#3) (v : Word) :
    s.writeBufData v = if s.bufIdx.toNat < s.waveCap.toNat
      then { s with waveIn := s.waveIn.write s.bufIdx.toNat (v.setWidth 16) } else s := by
  rw [State.writeBufData, h]
  rfl

/-- The output buffers cannot be written, and the selections 6 and 7 select nothing (20_memory.md R63). -/
theorem writeBufData_notInput {s : State} (h : 3 ≤ s.bufSel.toNat) (v : Word) : s.writeBufData v = s := by
  unfold State.writeBufData
  dsimp only
  split <;> try omega
  rfl

/-- The element a write of BUF_DATA stores is the low bits of the word written. -/
theorem read?_write_lowBits {w : Nat} (hw : w ≤ 32) (m : Memory w) (i : Nat) (v : Word) (j : Nat) :
    (m.write i (v.setWidth w)).read? j = if j = i then some (v.extractLsb' 0 w) else m.read? j := by
  rw [Memory.read?_write, BitVec.setWidth_eq_extractLsb' hw]

/-- Settles O12: a write at the offset of BUF_DATA is `writeBufData`, by its cases. -/
theorem bufferWrites : Obligations.BufferWrites := by
  intro s v
  rw [hostWrite_bufData]
  refine ⟨fun h hi => ?_, fun h hi => ?_, fun h hi => ?_, fun h => congrArg _ ?_⟩
  · rw [writeBufData_extIn h, if_pos hi]
    exact ⟨_, rfl, read?_write_lowBits (by decide) s.extIn _ v⟩
  · rw [writeBufData_dataIn h, if_pos hi]
    exact ⟨_, rfl, read?_write_lowBits (by decide) s.dataIn _ v⟩
  · rw [writeBufData_waveIn h, if_pos hi]
    exact ⟨_, rfl, read?_write_lowBits (by decide) s.waveIn _ v⟩
  · rcases h with ⟨h, hi⟩ | ⟨h, hi⟩ | ⟨h, hi⟩ | h
    · rw [writeBufData_extIn h, if_neg (Nat.not_lt.mpr hi)]
    · rw [writeBufData_dataIn h, if_neg (Nat.not_lt.mpr hi)]
    · rw [writeBufData_waveIn h, if_neg (Nat.not_lt.mpr hi)]
    · exact writeBufData_notInput h v

/-! Stops. -/

/-- Every command ends with a next state: the core has no trap (60_exceptions.md R215, R229). -/
theorem exec_completes (i : Instr) (s : State) : Completes (exec i s) := by
  cases i with
  | tone sym =>
    rw [exec, execTone]
    cases Symbol.ofCode sym <;> exact ⟨_, rfl⟩
  | _ => exact ⟨_, rfl⟩

/-- So does every write of CMD: a word that is no command is an error of the core, not a stop (60_exceptions.md R217). -/
theorem runCommand_completes (w : Word) (s : State) : Completes (runCommand w s) := by
  cases hd : decode w with
  | ok i => exact runCommand_ok hd s ▸ exec_completes i s
  | error e => exact ⟨_, runCommand_error hd s⟩

theorem aligned_iff (off : Word) : aligned off = true ↔ off.toNat % 4 = 0 := decide_eq_true_iff

theorem hostWrite_completes {off : Word} (h : aligned off = true) (v : Word) (s : State) :
    Completes (hostWrite off v s) := by
  rw [hostWrite, h]
  cases Reg.ofOffset off with
  | cmd => exact runCommand_completes v s
  | _ => exact ⟨_, rfl⟩

/-- An outcome that is no refusal, and a fault exactly with the faults that P allows. -/
def StopsWith (P : Fault → Prop) (o : Host.Outcome State Fault Refusal) : Prop :=
  (∀ r, o ≠ .refused r) ∧ ∀ f, o = .fault f ↔ P f

theorem Completes.stopsWith {o : Host.Outcome State Fault Refusal} (h : Completes o) {P : Fault → Prop} (hP : ∀ f, ¬ P f) :
    StopsWith P o := by
  obtain ⟨t, rfl⟩ := h
  exact ⟨nofun, fun f => ⟨nofun, fun hf => absurd hf (hP f)⟩⟩

theorem stopsWith_fault {g : Fault} {P : Fault → Prop} (hP : ∀ f, P f ↔ f = g) : StopsWith P (.fault g) :=
  ⟨nofun, fun f => by rw [hP, Host.Outcome.fault.injEq, eq_comm]⟩

theorem StopsWith.congr {P Q : Fault → Prop} {o : Host.Outcome State Fault Refusal} (h : StopsWith P o)
    (hPQ : ∀ f, Q f ↔ P f) : StopsWith Q o := by
  obtain ⟨hrefused, hfault⟩ := h
  exact ⟨hrefused, fun f => (hfault f).trans (hPQ f).symm⟩

/-- The stop of a register access: at an offset that is no multiple of 4 (20_memory.md R61; assumption 7). -/
def Misaligned (off : Word) (f : Fault) : Prop := f = .misalignedAccess off ∧ off.toNat % 4 ≠ 0

/-- An access that completes when aligned, and else faults as misaligned, stops as an access does. -/
theorem stopsWith_misaligned {off : Word} {o : Host.Outcome State Fault Refusal} (hok : aligned off = true → Completes o)
    (hbad : aligned off = false → o = .fault (.misalignedAccess off)) : StopsWith (Misaligned off) o := by
  cases h : aligned off with
  | true => exact (hok h).stopsWith fun _ ⟨_, hoff⟩ => hoff ((aligned_iff off).mp h)
  | false =>
    rw [hbad h]
    exact stopsWith_fault fun f => and_iff_left (by rw [Ne, ← aligned_iff, h]; decide)

theorem hostWrite_stopsWith (off v : Word) (s : State) : StopsWith (Misaligned off) (hostWrite off v s) :=
  stopsWith_misaligned (fun h => hostWrite_completes h v s) fun h => by rw [hostWrite, h]; rfl

theorem hostRead_stopsWith (off : Word) (s : State) : StopsWith (Misaligned off) (hostRead off s) :=
  stopsWith_misaligned (fun h => ⟨_, by rw [hostRead, h]; rfl⟩) fun h => by rw [hostRead, h]; rfl

/-- Settles O18: a step is the host's next action, and each action is an access, a write-back of nothing or the reset. -/
theorem stopsExactly : Obligations.StopsExactly := by
  intro s
  cases hp : s.pending with
  | nil => exact Completes.stopsWith ⟨s, by rw [step, hp]⟩ (by simp)
  | cons a rest =>
    rw [step_cons hp]
    cases a with
    | wr off v => exact (hostWrite_stopsWith off v (s.take rest)).congr (by simp [Misaligned])
    | rd off => exact (hostRead_stopsWith off (s.take rest)).congr (by simp [Misaligned])
    | wrLast off =>
      cases hr : s.reads with
      | nil =>
        rw [act, show (s.take rest).reads = [] from hr]
        exact stopsWith_fault (by simp)
      | cons v older =>
        rw [act_wrLast (s := s.take rest) hr]
        exact (hostWrite_stopsWith off v (s.take rest)).congr (by simp [Misaligned])
    | reset => exact Completes.stopsWith ⟨_, rfl⟩ (by simp)

end Sys2Proof.Machine
end

section
/-! PROOF. Command words (30_encoding.md R80 to R86): the layout that `commandWord` gives a word, the words that each format
reads, and that decoding and encoding are inverse to each other. -/

namespace Sys2Proof

/-- The bits of a command word: the opcode in the low eight and the operand above them (30_encoding.md R80). -/
theorem getLsbD_commandWord (arg : BitVec 12) (op : Byte) (k : Nat) :
    (commandWord arg op).getLsbD k = if k < 8 then op.getLsbD k else arg.getLsbD (k - 8) := by
  rw [commandWord, BitVec.getLsbD_or, BitVec.getLsbD_shiftLeft, BitVec.getLsbD_setWidth, BitVec.getLsbD_setWidth]
  grind

/-- The fields of a word with an operand of m bits, of which formats N, S, B and C have 0, 2, 8 and 12: the opcode, the
operand, and zeros above it (30_encoding.md R81 to R84). -/
theorem commandWord_eq_iff {m : Nat} (hm : m ≤ 12) (arg : BitVec m) (op : Byte) (w : Word) :
    commandWord (arg.setWidth 12) op = w ↔
      opField w = op ∧ w.extractLsb' 8 m = arg ∧ w.extractLsb' (8 + m) (24 - m) = 0#(24 - m) := by
  simp only [opField, BitVec.eq_of_getLsbD_eq_iff, getLsbD_commandWord, BitVec.getLsbD_extractLsb',
    BitVec.getLsbD_setWidth, BitVec.getLsbD_zero]
  constructor
  · intro h
    refine ⟨?_, ?_, ?_⟩ <;> grind
  · rintro ⟨hop, harg, hzero⟩ k hk
    rcases lt_or_ge k 8 with h8 | h8
    · grind
    · obtain ⟨j, rfl⟩ := Nat.exists_eq_add_of_le h8
      rcases lt_or_ge j m with hjm | hjm
      · grind
      · obtain ⟨l, rfl⟩ := Nat.exists_eq_add_of_le hjm
        grind

@[simp] theorem opField_commandWord (arg : BitVec 12) (op : Byte) : opField (commandWord arg op) = op := by
  obtain ⟨hop, -⟩ := (commandWord_eq_iff (le_refl 12) arg op _).mp (by rw [BitVec.setWidth_eq])
  exact hop

/-! Each format reads exactly the words laid out with its operand. -/

theorem formatN_eq_ok_iff {i j : Instr} {w : Word} :
    formatN i w = .ok j ↔ i = j ∧ commandWord 0#12 (opField w) = w := by
  have hw := commandWord_eq_iff (Nat.zero_le 12) 0#0 (opField w) w
  simp_all [formatN, ite_eq_iff, and_comm]

theorem formatS_eq_ok_iff {f : BitVec 2 → Instr} {i : Instr} {w : Word} :
    formatS f w = .ok i ↔ ∃ sym, sym ≠ 3#2 ∧ f sym = i ∧ commandWord (sym.setWidth 12) (opField w) = w := by
  simp [formatS, commandWord_eq_iff (m := 2), ite_eq_iff, and_comm, and_left_comm, and_assoc]

theorem formatB_eq_ok_iff {f : Byte → Instr} {i : Instr} {w : Word} :
    formatB f w = .ok i ↔ ∃ b, f b = i ∧ commandWord (b.setWidth 12) (opField w) = w := by
  simp [formatB, commandWord_eq_iff (m := 8), ite_eq_iff, and_comm]

theorem formatC_eq_ok_iff {f : Codeword → Instr} {i : Instr} {w : Word} :
    formatC f w = .ok i ↔ ∃ cw, f cw = i ∧ commandWord cw (opField w) = w := by
  have hw (cw : Codeword) := commandWord_eq_iff (le_refl 12) cw (opField w) w
  simp_all [formatC, ite_eq_iff, and_comm]

/-- Decoding gives back every command that has a word: the opcode selects the format, which reads the operand. -/
theorem decode_encode {i : Instr} (h : i.wellFormed = true) : decode (encode i) = .ok i := by
  cases i <;> rw [encode, decode, opField_commandWord]
  case tone sym => exact formatS_eq_ok_iff.mpr ⟨sym, bne_iff_ne.mp h, rfl, by rw [opField_commandWord]⟩
  case encb b | ench b | henc b => exact formatB_eq_ok_iff.mpr ⟨b, rfl, by rw [opField_commandWord]⟩
  case hdec cw => exact formatC_eq_ok_iff.mpr ⟨cw, rfl, by rw [opField_commandWord]⟩
  all_goals exact formatN_eq_ok_iff.mpr ⟨rfl, by rw [opField_commandWord]⟩

/-- The opcode, as `decode` compares it, in the layout of a word that a format reads. -/
theorem commandWord_of_toNat_opField {op : Byte} {arg : BitVec 12} {w : Word} (hop : (opField w).toNat = op.toNat)
    (hw : commandWord arg (opField w) = w) : commandWord arg op = w := by
  rwa [BitVec.eq_of_toNat_eq hop] at hw

/-- The converse of `decode_encode`, by the rows of the opcode map in their order (30_encoding.md R85). -/
theorem encode_of_decode {w : Word} {i : Instr} (h : decode w = .ok i) : i.wellFormed = true ∧ encode i = w := by
  unfold decode at h
  split at h
  case h_1 hop =>
    obtain ⟨sym, hsym, rfl, hw⟩ := formatS_eq_ok_iff.mp h
    exact ⟨bne_iff_ne.mpr hsym, commandWord_of_toNat_opField hop hw⟩
  case h_2 hop | h_3 hop | h_11 hop =>
    obtain ⟨b, rfl, hw⟩ := formatB_eq_ok_iff.mp h
    exact ⟨rfl, commandWord_of_toNat_opField hop hw⟩
  case h_4 hop | h_5 hop | h_6 hop | h_7 hop | h_8 hop | h_9 hop | h_10 hop =>
    obtain ⟨rfl, hw⟩ := formatN_eq_ok_iff.mp h
    exact ⟨rfl, commandWord_of_toNat_opField hop hw⟩
  case h_12 hop =>
    obtain ⟨cw, rfl, hw⟩ := formatC_eq_ok_iff.mp h
    exact ⟨rfl, commandWord_of_toNat_opField hop hw⟩
  case h_13 => cases h

/-- Settles O1: the opcode of a well-formed command's word selects the format that laid it out. -/
theorem commandWordRoundTrip : Obligations.CommandWordRoundTrip := fun _ => decode_encode

/-- Settles O2: what a format reads fixes every bit of the word. -/
theorem decodedWordIsEncoding : Obligations.DecodedWordIsEncoding := fun _ _ => encode_of_decode

/-- Settles O4: each of the words is the encoding of its command. -/
theorem sampleWordsDecode : Obligations.SampleWordsDecode :=
  ⟨decode_encode (i := .tone 1#2) rfl, decode_encode (i := .encb 0x41#8) rfl, decode_encode (i := .ench 0x41#8) rfl,
    decode_encode (i := .encf) rfl, decode_encode (i := .dsym) rfl, decode_encode (i := .dstep) rfl,
    decode_encode (i := .henc 0x41#8) rfl, decode_encode (i := .hdec 0x525#12) rfl⟩

end Sys2Proof
end

section
/-! PROOF. The phases of a tone (40_tone_generator.md R110, R121), |SINE| as a function of d, and the peak phase (R116). -/

namespace Sys2Proof.Machine

/-! |SINE| as a function of d: `d(p)/M` of a quarter turn is the distance of the phase from a peak of |SINE|. -/

theorem phaseDist_le {M : ℕ} (hM : 0 < M) (p : ℕ) : phaseDist M p ≤ M := by
  have hlt := Nat.mod_lt (2 * p) hM
  unfold phaseDist
  omega

/-- d is the modulus at the multiples of half a turn. -/
theorem phaseDist_of_half_turn {M p : ℕ} (h : 2 * p % M = 0) : phaseDist M p = M := by simp [phaseDist, h]

theorem abs_sine_eq_cos {M : ℕ} (hM : 0 < M) (p : ℕ) :
    |sine p M| = Real.cos (Real.pi / 2 * (phaseDist M p / M)) := by
  have hMr : (0 : ℝ) < M := by exact_mod_cast hM
  obtain ⟨k, t, ht, hp⟩ : ∃ k t, 2 * p % M = t ∧ 2 * p = M * k + t := ⟨_, _, rfl, (Nat.div_add_mod _ _).symm⟩
  have htM : (t : ℝ) ≤ M := by exact_mod_cast ht ▸ (Nat.mod_lt (2 * p) hM).le
  have hangle : 2 * Real.pi * p / M = Real.pi * (t / M) + k * Real.pi := by
    have hpr : (2 : ℝ) * p = M * k + t := by exact_mod_cast hp
    calc 2 * Real.pi * p / M = Real.pi * (2 * p) / M := by ring
      _ = Real.pi * (t / M) + k * Real.pi := by rw [hpr]; field_simp; ring
  have hdist : Real.pi / 2 * (phaseDist M p / M) = |Real.pi * (t / M) - Real.pi / 2| := by
    have hd : (phaseDist M p : ℝ) = |2 * (t : ℝ) - M| := by rw [phaseDist, ht, Nat.cast_natAbs]; push_cast; rfl
    calc Real.pi / 2 * (phaseDist M p / M) = |Real.pi / 2 * ((2 * t - M) / M)| := by
          rw [hd, abs_mul, abs_of_pos Real.pi_div_two_pos, abs_div, abs_of_pos hMr]
      _ = |Real.pi * (t / M) - Real.pi / 2| := by congr 1; field_simp
  have hnonneg : 0 ≤ Real.sin (Real.pi * (t / M)) :=
    Real.sin_nonneg_of_nonneg_of_le_pi (by positivity)
      (mul_le_of_le_one_right Real.pi_pos.le ((div_le_one hMr).mpr htM))
  rw [hdist, Real.cos_abs, Real.cos_sub_pi_div_two, sine, hangle, Real.sin_add_nat_mul_pi, abs_mul, abs_neg_one_pow,
    one_mul, abs_of_nonneg hnonneg]

/-- The angle of d lies in the first quarter turn, where the cosine decreases. -/
theorem phaseDist_angle_mem {M : ℕ} (hM : 0 < M) (p : ℕ) :
    Real.pi / 2 * (phaseDist M p / M) ∈ Set.Icc 0 Real.pi := by
  have hMr : (0 : ℝ) < M := by exact_mod_cast hM
  have hd : (phaseDist M p : ℝ) / M ≤ 1 := (div_le_one hMr).mpr (by exact_mod_cast phaseDist_le hM p)
  have hle := mul_le_of_le_one_right Real.pi_div_two_pos.le hd
  exact ⟨by positivity, hle.trans (half_le_self Real.pi_pos.le)⟩

/-- A phase is the louder the less its d (40_tone_generator.md R116). -/
theorem phaseDist_le_iff {M : ℕ} (hM : 0 < M) (p q : ℕ) : phaseDist M p ≤ phaseDist M q ↔ |sine q M| ≤ |sine p M| := by
  have hMr : (0 : ℝ) < M := by exact_mod_cast hM
  rw [abs_sine_eq_cos hM, abs_sine_eq_cos hM,
    Real.strictAntiOn_cos.le_iff_ge (phaseDist_angle_mem hM q) (phaseDist_angle_mem hM p),
    mul_le_mul_iff_right₀ Real.pi_div_two_pos, div_le_div_iff_of_pos_right hMr, Nat.cast_le]

theorem phaseDist_lt_iff {M : ℕ} (hM : 0 < M) (p q : ℕ) : phaseDist M p < phaseDist M q ↔ |sine q M| < |sine p M| := by
  simpa only [not_le] using (phaseDist_le_iff hM q p).not

@[simp] theorem sine_zero (M : ℕ) : sine 0 M = 0 := by simp [sine]

/-- Silence is at the greatest d, which phase 0 has. -/
theorem phaseDist_eq_modulus_iff {M : ℕ} (hM : 0 < M) (p : ℕ) : phaseDist M p = M ↔ sine p M = 0 := by
  have h0 : phaseDist M 0 = M := phaseDist_of_half_turn (Nat.zero_mod M)
  calc phaseDist M p = M ↔ phaseDist M 0 ≤ phaseDist M p := by rw [h0]; exact (phaseDist_le hM p).ge_iff_eq.symm
    _ ↔ sine p M = 0 := by rw [phaseDist_le_iff hM, sine_zero, abs_zero, abs_nonpos_iff]

/-! The least d of a list of phases. -/

theorem leastDist_mem (M : ℕ) (l : List ℕ) (b : ℕ) : leastDist M l b ∈ b :: l := by
  induction l generalizing b with
  | nil => exact List.mem_singleton_self b
  | cons p r ih =>
    rw [leastDist]
    split
    · exact List.mem_cons_of_mem _ (ih p)
    · exact List.cons_subset_cons b (List.subset_cons_self p r) (ih b)

theorem leastDist_le (M : ℕ) (l : List ℕ) (b : ℕ) : ∀ p ∈ b :: l, phaseDist M (leastDist M l b) ≤ phaseDist M p := by
  induction l generalizing b with
  | nil => simp [leastDist]
  | cons q r ih =>
    rw [leastDist]
    split
    case h_1 h =>
      have hle := ih q q List.mem_cons_self
      have hlt := of_decide_eq_true h
      grind
    case h_2 h =>
      have hle := ih b b List.mem_cons_self
      have hge := of_decide_eq_false h
      grind

/-! The phases of the tones. -/

theorem mem_tonePhases {s : State} {x : Symbol} {p : ℕ} :
    p ∈ s.tonePhases x ↔ ∃ n < s.nsym.toNat, s.freq x * n % s.phaseMod = p := by
  simp [State.tonePhases, tonePhase]

theorem phaseMod_pos {s : State} (h : s.cfgOk = true) : 0 < s.phaseMod := by
  obtain ⟨hrate, hnsym⟩ := (cfgOk_iff s).mp h
  exact Nat.mul_pos hrate hnsym

/-- The peak phase is a phase of a symbol used; with no symbol it is 0, at which its search starts. -/
theorem peakPhase_mem (s : State) (used : List Symbol) : s.peakPhase used ∈ 0 :: used.flatMap s.tonePhases :=
  leastDist_mem ..

theorem phaseDist_peakPhase_le {s : State} {used : List Symbol} {p : ℕ} (h : p ∈ used.flatMap s.tonePhases) :
    phaseDist s.phaseMod (s.peakPhase used) ≤ phaseDist s.phaseMod p :=
  leastDist_le _ _ _ p (List.mem_cons_of_mem _ h)

/-- Every tone begins at phase 0 (40_tone_generator.md R113). -/
theorem zero_mem_tonePhases {s : State} (h : s.cfgOk = true) (x : Symbol) : 0 ∈ s.tonePhases x :=
  mem_tonePhases.mpr ⟨0, ((cfgOk_iff s).mp h).2, by simp⟩

/-- Settles O32: |SINE| is the cosine of an angle that d measures, and `leastDist` finds a least d. -/
theorem peakPhaseIsLoudest : Obligations.PeakPhaseIsLoudest := by
  refine ⟨fun M hM => ⟨phaseDist_lt_iff hM, fun p hp => ?_, phaseDist_le hM, phaseDist_eq_modulus_iff hM⟩,
    fun s used hc hused => ⟨?_, fun x hx n hn => ?_⟩⟩
  · simp [abs_sine_eq_cos hM, hp]
  · obtain ⟨y, hy⟩ := List.exists_mem_of_ne_nil used hused
    have hzero : 0 ∈ used.flatMap s.tonePhases := List.mem_flatMap_of_mem hy (zero_mem_tonePhases hc y)
    have hmem : s.peakPhase used ∈ used.flatMap s.tonePhases :=
      List.cons_subset.mpr ⟨hzero, List.Subset.refl _⟩ (peakPhase_mem s used)
    obtain ⟨x, hx, hp⟩ := List.mem_flatMap.mp hmem
    obtain ⟨n, hn, hphase⟩ := mem_tonePhases.mp hp
    exact ⟨x, hx, n, hn, hphase.symm⟩
  · exact phaseDist_peakPhase_le (List.mem_flatMap_of_mem hx (mem_tonePhases.mpr ⟨n, hn, rfl⟩))

/-- The accumulator after n steps (40_tone_generator.md R121). -/
theorem iterate_accumulator (M F n : ℕ) : (fun acc => (acc + F % M) % M)^[n] 0 = tonePhase M F n := by
  induction n with
  | zero => simp [tonePhase]
  | succ n ih => rw [Function.iterate_succ_apply', ih, tonePhase, tonePhase, Nat.mul_succ, ← Nat.add_mod]

/-- Settles O33: the phases of a tone are the iterates of its accumulator. -/
theorem accumulatorPhases : Obligations.AccumulatorPhases := by
  intro s x
  rw [← List.range_map_iterate]
  exact List.map_congr_left fun n _ => (iterate_accumulator s.phaseMod (s.freq x) n).symm

end Sys2Proof.Machine
end

section
/-! PROOF. RN and the quantised samples (40_tone_generator.md R117, R120). -/

namespace Sys2Proof.Machine

/-! RN is odd, and the floor of the sum with a half where its argument is not negative. -/

theorem roundAway_of_nonneg {x : ℝ} (h : 0 ≤ x) : roundAway x = ⌊x + 1 / 2⌋ := if_pos h

@[simp] theorem roundAway_zero : roundAway 0 = 0 := by norm_num [roundAway]

theorem roundAway_neg (x : ℝ) : roundAway (-x) = -roundAway x := by
  rcases lt_trichotomy x 0 with h | rfl | h
  · rw [roundAway_of_nonneg (neg_nonneg.mpr h.le), roundAway, if_neg h.not_ge, neg_neg]
  · simp
  · rw [roundAway_of_nonneg h.le, roundAway, if_neg (neg_neg_of_pos h).not_ge, neg_neg]

/-! QSAMPLE. -/

theorem roundedMag_eq_floor {M p ps : ℕ} (hM : 0 < M) (h0 : sine ps M ≠ 0) (hle : |sine p M| ≤ |sine ps M|) :
    roundedMag M p ps = ⌊32767 * |sine p M| / |sine ps M| + 1 / 2⌋₊ := by
  have hquot : 32767 * |sine p M| / |sine ps M| ≤ 32767 := by
    rw [mul_div_assoc]
    exact mul_le_of_le_one_right (by norm_num) (div_le_one_of_le₀ hle (abs_nonneg _))
  refine roundedMag_eq (reaches_iff_le hM h0 p) ((Nat.floor_lt (by positivity)).mpr ?_)
  norm_num
  linarith

/-- The sign of QSAMPLE is the sine's, by the half turn the phase is in, and `roundedMag` rounds the magnitude. -/
theorem qsample_eq_roundAway {M p ps : ℕ} (hM : 0 < M) (h0 : sine ps M ≠ 0) (hle : |sine p M| ≤ |sine ps M|) :
    qsample M p ps = roundAway (32767 * sine p M / |sine ps M|) := by
  have hmag : (roundedMag M p ps : ℤ) = roundAway (32767 * |sine p M| / |sine ps M|) := by
    rw [roundedMag_eq_floor hM h0 hle, roundAway_of_nonneg (by positivity), Int.natCast_floor_eq_floor (by positivity)]
  unfold qsample
  split
  case isTrue h => rw [hmag, abs_of_nonneg (sine_nonneg hM h)]
  case isFalse h => rw [hmag, abs_of_neg (sine_neg hM h), ← roundAway_neg, mul_neg, neg_div, neg_neg]

/-- Settles O34: `qsample_eq_roundAway`, by what `reaches` decides and the half turn of the phase. -/
theorem quantisedSampleExact : Obligations.QuantisedSampleExact := fun _ _ _ => qsample_eq_roundAway

/-! The symmetries of the sine that the samples inherit (40_tone_generator.md R120). -/

theorem sine_sub {M p : ℕ} (hM : 0 < M) (hp : p ≤ M) : sine (M - p) M = -sine p M := by
  have hMr : (M : ℝ) ≠ 0 := by exact_mod_cast hM.ne'
  have hangle : 2 * Real.pi * (M - p : ℕ) / M = 2 * Real.pi - 2 * Real.pi * p / M := by
    rw [Nat.cast_sub hp]; field_simp
  rw [sine, hangle, Real.sin_two_pi_sub, sine]

/-- The sine is the same at two phases that mirror each other about a quarter or three quarters of a turn. -/
theorem sine_mirror {M p q : ℕ} (hM : 0 < M) (h : 2 * (p + q) = M ∨ 2 * (p + q) = 3 * M) : sine q M = sine p M := by
  have hMr : (M : ℝ) ≠ 0 := by exact_mod_cast hM.ne'
  unfold sine
  rcases h with h | h
  · have hr : (2 : ℝ) * (p + q) = M := by exact_mod_cast h
    have hangle : 2 * Real.pi * q / M = Real.pi - 2 * Real.pi * p / M := by
      field_simp; linear_combination hr
    rw [hangle, Real.sin_pi_sub]
  · have hr : (2 : ℝ) * (p + q) = 3 * M := by exact_mod_cast h
    have hangle : 2 * Real.pi * q / M = Real.pi - 2 * Real.pi * p / M + 2 * Real.pi := by
      field_simp; linear_combination hr
    rw [hangle, Real.sin_add_two_pi, Real.sin_pi_sub]

/-! The sign and the magnitude of a sample. -/

theorem qsample_nonneg {M p : ℕ} (hp : p < M) (h : 2 * p ≤ M) (ps : ℕ) : 0 ≤ qsample M p ps := by
  rw [qsample, Nat.mod_eq_of_lt hp, if_pos h]
  positivity

theorem qsample_nonpos {M p : ℕ} (hp : p < M) (h : M < 2 * p) (ps : ℕ) : qsample M p ps ≤ 0 := by
  rw [qsample, Nat.mod_eq_of_lt hp, if_neg h.not_ge]
  exact neg_nonpos.mpr (Int.natCast_nonneg _)

theorem abs_qsample (M p ps : ℕ) : |qsample M p ps| = roundedMag M p ps := by
  unfold qsample
  split <;> simp

/-- The magnitude of a sample grows with the magnitude of the sine. -/
theorem abs_qsample_le {M p q ps : ℕ} (hM : 0 < M) (h0 : sine ps M ≠ 0) (hq : |sine q M| ≤ |sine p M|)
    (hp : |sine p M| ≤ |sine ps M|) : |qsample M q ps| ≤ |qsample M p ps| := by
  rw [abs_qsample, abs_qsample, roundedMag_eq_floor hM h0 (hq.trans hp), roundedMag_eq_floor hM h0 hp]
  gcongr

/-- A phase as loud as the peak phase has a sample of full scale. -/
theorem abs_qsample_of_loudest {M p ps : ℕ} (hM : 0 < M) (h0 : sine ps M ≠ 0) (h : |sine p M| = |sine ps M|) :
    |qsample M p ps| = 32767 := by
  have hfloor : ⌊(32767 : ℝ) + 1 / 2⌋₊ = 32767 := by norm_num
  rw [abs_qsample, roundedMag_eq_floor hM h0 h.le, h, mul_div_cancel_right₀ _ (abs_ne_zero.mpr h0), hfloor]
  rfl

/-- Settles O35: the signs and magnitudes above, and the symmetries of the sine through `qsample_eq_roundAway`. -/
theorem quantisedSampleProperties : Obligations.QuantisedSampleProperties := by
  intro M ps hM hps p hp hle
  have h0 : sine ps M ≠ 0 := fun h => hps.ne ((phaseDist_eq_modulus_iff hM ps).mpr h)
  have hquiet : |sine p M| ≤ |sine ps M| := (phaseDist_le_iff hM ps p).mp hle
  have hexact := qsample_eq_roundAway hM h0 hquiet
  have hfull : |qsample M ps ps| = 32767 := abs_qsample_of_loudest hM h0 rfl
  refine ⟨abs_le.mp (hfull ▸ abs_qsample_le hM h0 hquiet le_rfl), fun h => ?_, fun _ h => qsample_nonneg hp h.le ps,
    fun h => qsample_nonpos hp h ps, fun _ => ?_, fun q _ h => ?_, fun h => ?_, fun q _ h => ?_⟩
  · rw [hexact, (phaseDist_eq_modulus_iff hM p).mp (phaseDist_of_half_turn h), mul_zero, zero_div, roundAway_zero]
  · have hsine := sine_sub hM hp.le
    rw [hexact, qsample_eq_roundAway hM h0 (by rwa [hsine, abs_neg]), hsine, mul_neg, neg_div, roundAway_neg]
  · have hsine := sine_mirror hM h
    rw [hexact, qsample_eq_roundAway hM h0 (by rwa [hsine]), hsine]
  · exact abs_qsample_of_loudest hM h0 (by rw [abs_sine_eq_cos hM, abs_sine_eq_cos hM, h])
  · exact abs_qsample_le hM h0 ((phaseDist_le_iff hM p q).mp h) hquiet

end Sys2Proof.Machine
end

section
/-! PROOF. Waveforms (40_tone_generator.md R110 to R118): the raw wave and the samples over one list of phases, the peak of the
raw wave at the peak phase, and the command TONE (R119). -/

namespace Sys2Proof.Machine

/-! P, the greatest magnitude of a list (40_tone_generator.md R115). -/

theorem peakOf_nonneg (l : List ℝ) : 0 ≤ peakOf l := by
  induction l with
  | nil => exact le_rfl
  | cons a r ih => exact le_max_of_le_right ih

theorem abs_le_peakOf {l : List ℝ} {x : ℝ} (h : x ∈ l) : |x| ≤ peakOf l := by
  induction l with
  | nil => cases h
  | cons a r ih =>
    rcases List.mem_cons.mp h with rfl | hr
    · exact le_max_left ..
    · exact le_max_of_le_right (ih hr)

theorem peakOf_le {l : List ℝ} {a : ℝ} (ha : 0 ≤ a) (h : ∀ x ∈ l, |x| ≤ a) : peakOf l ≤ a := by
  induction l with
  | nil => exact ha
  | cons b r ih =>
    obtain ⟨hb, hr⟩ := List.forall_mem_cons.mp h
    exact max_le hb (ih hr)

/-! The raw wave and the samples are the sines and the quantised samples of the same phases. -/

theorem rawWave_eq (s : State) (syms : List Symbol) :
    s.rawWave syms = (syms.flatMap s.tonePhases).map (fun p => sine p s.phaseMod) := by
  simp [State.rawWave, State.tonePhases, List.map_flatMap, Function.comp_def]

theorem waveSamples_eq (s : State) (syms : List Symbol) :
    s.waveSamples syms = (syms.flatMap s.tonePhases).map
      (fun p => BitVec.ofInt 16 (qsample s.phaseMod p (s.peakPhase (usedSymbols syms)))) := by
  simp [State.waveSamples, State.toneSamples, List.map_flatMap, Function.comp_def]

@[simp] theorem mem_usedSymbols {syms : List Symbol} {x : Symbol} : x ∈ usedSymbols syms ↔ x ∈ syms := by
  cases x <;> simp [usedSymbols]

/-- No phase of a waveform is louder than its peak phase. -/
theorem abs_sine_le_peak {s : State} (hM : 0 < s.phaseMod) {syms : List Symbol} {p : ℕ}
    (h : p ∈ syms.flatMap s.tonePhases) :
    |sine p s.phaseMod| ≤ |sine (s.peakPhase (usedSymbols syms)) s.phaseMod| := by
  rw [← phaseDist_le_iff hM]
  exact phaseDist_peakPhase_le (by simpa using h)

/-- P is the magnitude of the sine at the peak phase (40_tone_generator.md R115, R116). -/
theorem peakOf_rawWave {s : State} (hM : 0 < s.phaseMod) (syms : List Symbol) :
    peakOf (s.rawWave syms) = |sine (s.peakPhase (usedSymbols syms)) s.phaseMod| := by
  rw [rawWave_eq]
  apply le_antisymm
  · refine peakOf_le (abs_nonneg _) fun x hx => ?_
    obtain ⟨p, hp, rfl⟩ := List.mem_map.mp hx
    exact abs_sine_le_peak hM hp
  · rcases List.mem_cons.mp (peakPhase_mem s (usedSymbols syms)) with h | h
    · rw [h, sine_zero, abs_zero]
      exact peakOf_nonneg _
    · exact abs_le_peakOf (List.mem_map_of_mem (by simpa using h))

theorem zeroPeak_eq_true_iff {s : State} (hM : 0 < s.phaseMod) (used : List Symbol) :
    s.zeroPeak used = true ↔ sine (s.peakPhase used) s.phaseMod = 0 := by
  rw [State.zeroPeak, decide_eq_true_iff, phaseDist_eq_modulus_iff hM]

/-- Settles O36: phase by phase, the sample is the sine over the peak, scaled and rounded. -/
theorem waveformExact : Obligations.WaveformExact := by
  intro s syms hc hz
  have hM := phaseMod_pos hc
  have h0 : sine (s.peakPhase (usedSymbols syms)) s.phaseMod ≠ 0 := by
    rw [← Bool.not_eq_true, zeroPeak_eq_true_iff hM] at hz
    exact hz
  rw [peakOf_rawWave hM, rawWave_eq, waveSamples_eq, List.map_map]
  refine List.map_congr_left fun p hp => ?_
  rw [Function.comp_apply, qsample_eq_roundAway hM h0 (abs_sine_le_peak hM hp)]

theorem exec_tone_code (x : Symbol) (s : State) :
    exec (.tone x.code) s = .next (encodeCommand 1 [x] (fun t => t.setSymBin x t.bin) s) := by
  cases x <;> rfl

theorem usedSymbols_singleton (x : Symbol) : usedSymbols [x] = [x] := by
  cases x <;> rfl

/-- Settles O38: BuildWave completes, and its write of WAVE_OUT covers the elements below NSYM. -/
theorem toneResult : Obligations.ToneResult := by
  rintro s _ x rfl hc hfit hz
  refine ⟨s.waveOut.writeFront (s.waveSamples [x]), ?_, fun j => ?_⟩
  · rw [exec_tone_code, encodeCommand_completed hc (by rwa [mul_one]) (by rwa [usedSymbols_singleton]), mul_one,
      BitVec.ofNat_toNat, BitVec.setWidth_eq]
    rfl
  · rw [Memory.read?_writeFront, waveSamples_length, List.length_singleton, mul_one]

end Sys2Proof.Machine
end

section
/-! PROOF. Stage one of the detector (41_symbol_detector.md R131, R132): the peak bin over the real numbers, and what it is for a
constant window and for a scaled one (R139, R141). -/

namespace Sys2Proof.Machine

/-- k is the least of the bins 0 .. n with the greatest MAG2 (41_symbol_detector.md R132). -/
def IsPeakBin (w : List Int) (n k : ℕ) : Prop :=
  k ≤ n ∧ (∀ j, j ≤ n → mag2 w j ≤ mag2 w k) ∧ ∀ j, j < k → mag2 w j < mag2 w k

theorem IsPeakBin.unique {w : List Int} {n k l : ℕ} (hk : IsPeakBin w n k) (hl : IsPeakBin w n l) : k = l := by
  obtain ⟨hkn, hkmax, hkleast⟩ := hk
  obtain ⟨hln, hlmax, hlleast⟩ := hl
  rcases lt_trichotomy k l with h | h | h
  · exact absurd (hlleast k h) (hkmax l hln).not_gt
  · exact h
  · exact absurd (hkleast l h) (hlmax k hkn).not_gt

/-- Bin 0 is the peak bin wherever no bin exceeds it. -/
theorem isPeakBin_zero {w : List Int} {n : ℕ} (h : ∀ j, j ≤ n → mag2 w j ≤ mag2 w 0) : IsPeakBin w n 0 :=
  ⟨n.zero_le, h, fun j hj => absurd hj j.not_lt_zero⟩

/-- A further bin that is greater is the peak bin. -/
theorem IsPeakBin.succ_of_lt {w : List Int} {n b : ℕ} (hb : IsPeakBin w n b) (h : mag2 w b < mag2 w (n + 1)) :
    IsPeakBin w (n + 1) (n + 1) := by
  obtain ⟨-, hmax, -⟩ := hb
  have hbelow : ∀ j, j < n + 1 → mag2 w j < mag2 w (n + 1) := fun j hj => (hmax j (Nat.le_of_lt_succ hj)).trans_lt h
  refine ⟨le_rfl, fun j hj => ?_, hbelow⟩
  rcases hj.lt_or_eq with hlt | rfl
  · exact (hbelow j hlt).le
  · exact le_rfl

/-- A further bin that is not greater leaves the peak bin as it is: on a tie the lower bin stays. -/
theorem IsPeakBin.succ_of_le {w : List Int} {n b : ℕ} (hb : IsPeakBin w n b) (h : mag2 w (n + 1) ≤ mag2 w b) :
    IsPeakBin w (n + 1) b := by
  obtain ⟨hbn, hmax, hleast⟩ := hb
  refine ⟨hbn.trans n.le_succ, fun j hj => ?_, hleast⟩
  rcases hj.lt_or_eq with hlt | rfl
  · exact hmax j (Nat.le_of_lt_succ hlt)
  · exact h

/-- The scan carries the peak bin of the bins looked at so far on to that of all bins. -/
theorem scanBins_isPeakBin {w : List Int} (hw : 0 < w.length) (f : ℕ) {n b : ℕ} (hb : IsPeakBin w n b) :
    IsPeakBin w (n + f) (scanBins w.length (autocorr w) f (n + 1) b) := by
  induction f generalizing n b with
  | zero => exact hb
  | succ f ih =>
    rw [← Nat.succ_add_eq_add_succ, scanBins]
    cases hg : magGreater w.length (autocorr w) (n + 1) b with
    | true => exact ih (hb.succ_of_lt ((magGreater_iff hw _ _).mp hg))
    | false =>
      have hle : mag2 w (n + 1) ≤ mag2 w b := by
        rw [← not_lt, ← magGreater_iff hw, hg]
        exact Bool.false_ne_true
      exact ih (hb.succ_of_le hle)

theorem peakBin_isPeakBin {w : List Int} (hw : 0 < w.length) : IsPeakBin w (w.length / 2) (peakBin w) := by
  have h0 : IsPeakBin w 0 0 := isPeakBin_zero fun j hj => by rw [Nat.le_zero.mp hj]
  simpa [peakBin] using scanBins_isPeakBin hw (w.length / 2) h0

/-- Settles O43: `peakBin_isPeakBin`, by the scan's invariant. -/
theorem peakBinExact : Obligations.PeakBinExact := fun _ => peakBin_isPeakBin

theorem peakBin_eq {w : List Int} (hw : 0 < w.length) {k : ℕ} (h : IsPeakBin w (w.length / 2) k) : peakBin w = k :=
  (peakBin_isPeakBin hw).unique h

/-! Scaled windows (41_symbol_detector.md R141). -/

theorem windowReal_scale (w : List Int) (a : Int) (n : ℕ) : windowReal (w.map (a * ·)) n = a * windowReal w n := by
  unfold windowReal
  rw [← mul_zero a, List.getD_map, Int.cast_mul, mul_zero]

theorem mag2_scale (w : List Int) (a : Int) (k : ℕ) : mag2 (w.map (a * ·)) k = (a : ℝ) ^ 2 * mag2 w k := by
  simp only [mag2_eq_sq, List.length_map, windowReal_scale, mul_assoc (a : ℝ), ← Finset.mul_sum]
  ring

theorem IsPeakBin.scale {w : List Int} {n k : ℕ} (h : IsPeakBin w n k) {a : Int} (ha : a ≠ 0) :
    IsPeakBin (w.map (a * ·)) n k := by
  have hpos : (0 : ℝ) < (a : ℝ) ^ 2 := by positivity
  obtain ⟨hkn, hmax, hleast⟩ := h
  simp only [IsPeakBin, mag2_scale]
  exact ⟨hkn, fun j hj => mul_le_mul_of_nonneg_left (hmax j hj) hpos.le,
    fun j hj => mul_lt_mul_of_pos_left (hleast j hj) hpos⟩

theorem peakBin_scale (w : List Int) {a : Int} (ha : a ≠ 0) : peakBin (w.map (a * ·)) = peakBin w := by
  cases w with
  | nil => rfl
  | cons x r =>
    have hk : IsPeakBin (x :: r) ((x :: r).length / 2) (peakBin (x :: r)) := peakBin_isPeakBin (Nat.succ_pos _)
    exact peakBin_eq (by simp) (by simpa only [List.length_map] using hk.scale ha)

/-- Settles O47: the transform is linear, so its squared magnitudes keep their order. -/
theorem scaleInvariance : Obligations.ScaleInvariance := fun w a ha =>
  ⟨mag2_scale w a, peakBin_scale w ha, fun s => by rw [State.decodeSymbol, State.decodeSymbol, peakBin_scale w ha]⟩

/-! Constant windows (41_symbol_detector.md R139). -/

theorem windowReal_replicate {N n : ℕ} (hn : n < N) (a : Int) : windowReal (List.replicate N a) n = a := by
  simp [windowReal, hn]

/-- No bin of a constant window exceeds bin 0: every product of two samples is a square, and in bin 0 each is counted whole. -/
theorem mag2_replicate_le (N : ℕ) (a : Int) (k : ℕ) :
    mag2 (List.replicate N a) k ≤ mag2 (List.replicate N a) 0 := by
  rw [mag2_eq_double, mag2_eq_double, List.length_replicate]
  refine Finset.sum_le_sum fun n hn => Finset.sum_le_sum fun j hj => ?_
  rw [windowReal_replicate (Finset.mem_range.mp hn), windowReal_replicate (Finset.mem_range.mp hj)]
  refine mul_le_mul_of_nonneg_left ?_ (mul_self_nonneg _)
  simpa using Real.cos_le_one _

theorem peakBin_replicate {N : ℕ} (hN : 0 < N) (a : Int) : peakBin (List.replicate N a) = 0 :=
  peakBin_eq (by simpa using hN) (isPeakBin_zero fun j _ => mag2_replicate_le N a j)

end Sys2Proof.Machine
end

section
/-! PROOF. Stage two of the detector, the two-stage classification (41_symbol_detector.md R134, R137, R139), and the command
DSYM (R136, R140). -/

namespace Sys2Proof.Machine

/-! Distances from a carrier. -/

/-- `carrierDist` is the distance in hertz, times den. -/
theorem carrierDist_eq {den : ℕ} (hden : 0 < den) (num f : ℕ) :
    (carrierDist num den f : ℚ) = |(num : ℚ) / den - f| * den := by
  have hpos : (0 : ℚ) < den := by exact_mod_cast hden
  rw [carrierDist, Nat.cast_natAbs, ← abs_of_pos hpos, ← abs_mul, abs_of_pos hpos, sub_mul, div_mul_cancel₀ _ hpos.ne']
  push_cast
  rfl

/-- The integer comparison is the comparison of the distances in hertz. -/
theorem carrierDist_lt_iff {den : ℕ} (hden : 0 < den) (num f g : ℕ) :
    carrierDist num den f < carrierDist num den g ↔ |(num : ℚ) / den - f| < |(num : ℚ) / den - g| := by
  have hpos : (0 : ℚ) < den := by exact_mod_cast hden
  rw [← Nat.cast_lt (α := ℚ), carrierDist_eq hden, carrierDist_eq hden, mul_lt_mul_iff_left₀ hpos]

@[simp] theorem carrierDist_self (f : ℕ) : carrierDist f 1 f = 0 := by simp [carrierDist]

theorem carrierDist_one_eq_zero {f g : ℕ} : carrierDist f 1 g = 0 ↔ f = g := by
  unfold carrierDist
  omega

theorem carrierDist_one_pos {f g : ℕ} : 0 < carrierDist f 1 g ↔ f ≠ g :=
  Nat.pos_iff_ne_zero.trans carrierDist_one_eq_zero.not

theorem carrierDist_one_le_iff {f g h : ℕ} :
    carrierDist f 1 g ≤ carrierDist f 1 h ↔ |(f : ℤ) - g| ≤ |(f : ℤ) - h| := by
  simp [carrierDist, ← Int.ofNat_le]

/-! Which frequencies give which symbol. -/

theorem classifyQ_carriers (s : State) (num den : ℕ) :
    s.classifyQ num den =
      if carrierDist num den s.freqLow.toNat < carrierDist num den s.freqHigh.toNat then .zero
      else if carrierDist num den s.freqEnd.toNat < carrierDist num den s.freqHigh.toNat then .endSym
      else .one := rfl

/-- The two-stage rule over the rational frequency. -/
theorem classifyQ_eq (s : State) (num : ℕ) {den : ℕ} (hden : 0 < den) :
    s.classifyQ num den =
      if |(num : ℚ) / den - s.freqLow.toNat| < |(num : ℚ) / den - s.freqHigh.toNat| then .zero
      else if |(num : ℚ) / den - s.freqEnd.toNat| < |(num : ℚ) / den - s.freqHigh.toNat| then .endSym
      else .one := by
  simp only [classifyQ_carriers, carrierDist_lt_iff hden]

/-- Settles O44: `carrierDist` scales each distance by den, which keeps both comparisons. -/
theorem classifyTwoStage : Obligations.ClassifyTwoStage :=
  ⟨fun s num _ => classifyQ_eq s num, fun _ _ => rfl⟩

theorem classifyQ_eq_zero_iff (s : State) (num den : ℕ) :
    s.classifyQ num den = .zero ↔ carrierDist num den s.freqLow.toNat < carrierDist num den s.freqHigh.toNat := by
  rw [classifyQ_carriers]
  split
  case isTrue hlow => simp [hlow]
  case isFalse hlow => split <;> simp [hlow]

theorem classifyQ_eq_one_iff (s : State) (num den : ℕ) :
    s.classifyQ num den = .one ↔ carrierDist num den s.freqHigh.toNat ≤ carrierDist num den s.freqLow.toNat
      ∧ carrierDist num den s.freqHigh.toNat ≤ carrierDist num den s.freqEnd.toNat := by
  rw [classifyQ_carriers]
  split
  case isTrue hlow => simp [hlow.not_ge]
  case isFalse hlow =>
    split
    case isTrue hend => simp [hend.not_ge]
    case isFalse hend => simp [not_lt.mp hlow, not_lt.mp hend]

theorem classifyQ_eq_endSym_iff (s : State) (num den : ℕ) :
    s.classifyQ num den = .endSym ↔ carrierDist num den s.freqHigh.toNat ≤ carrierDist num den s.freqLow.toNat
      ∧ carrierDist num den s.freqEnd.toNat < carrierDist num den s.freqHigh.toNat := by
  rw [classifyQ_carriers]
  split
  case isTrue hlow => simp [hlow.not_ge]
  case isFalse hlow =>
    split
    case isTrue hend => simp [not_lt.mp hlow, hend]
    case isFalse hend => simp [hend]

/-! The carriers themselves (41_symbol_detector.md R137). -/

theorem classifyQ_freqHigh (s : State) : s.classifyQ s.freqHigh.toNat 1 = .one := by
  simp [classifyQ_eq_one_iff]

theorem classifyQ_freqLow_iff (s : State) : s.classifyQ s.freqLow.toNat 1 = .zero ↔ s.freqLow ≠ s.freqHigh := by
  rw [classifyQ_eq_zero_iff, carrierDist_self, carrierDist_one_pos, BitVec.toNat_ne]

theorem classifyQ_freqEnd_iff (s : State) :
    s.classifyQ s.freqEnd.toNat 1 = .endSym ↔
      carrierDist s.freqEnd.toNat 1 s.freqHigh.toNat ≤ carrierDist s.freqEnd.toNat 1 s.freqLow.toNat
        ∧ s.freqEnd ≠ s.freqHigh := by
  rw [classifyQ_eq_endSym_iff, carrierDist_self, carrierDist_one_pos, BitVec.toNat_ne]

/-- ORDERED is the conditions on LOW and on END. That END differs from LOW follows: END at LOW would be at HIGH too. -/
theorem ordered_iff (s : State) :
    s.ordered = true ↔ s.freqLow ≠ s.freqHigh
      ∧ carrierDist s.freqEnd.toNat 1 s.freqHigh.toNat ≤ carrierDist s.freqEnd.toNat 1 s.freqLow.toNat
      ∧ s.freqEnd ≠ s.freqHigh := by
  have hlow : carrierDist s.freqEnd.toNat 1 s.freqHigh.toNat ≤ carrierDist s.freqEnd.toNat 1 s.freqLow.toNat →
      s.freqEnd ≠ s.freqHigh → s.freqLow ≠ s.freqEnd := by
    intro hle hne heq
    rw [heq, carrierDist_self, Nat.le_zero, carrierDist_one_eq_zero, BitVec.toNat_inj] at hle
    exact hne hle
  simp only [State.ordered, Bool.and_eq_true, decide_eq_true_iff]
  constructor
  · rintro ⟨⟨⟨hlh, -⟩, hhe⟩, hle⟩
    exact ⟨hlh, hle, hhe.symm⟩
  · rintro ⟨hlh, hle, hne⟩
    exact ⟨⟨⟨hlh, hlow hle hne⟩, hne.symm⟩, hle⟩

/-- Settles O45: each carrier's condition, and `ordered_iff` for their conjunction. -/
theorem carriersClassify : Obligations.CarriersClassify := by
  intro s
  refine ⟨classifyQ_freqHigh s, classifyQ_freqLow_iff s, ?_, ?_⟩
  · rw [classifyQ_freqEnd_iff, carrierDist_one_le_iff]
  · rw [ordered_iff, classifyQ_freqLow_iff, classifyQ_freqEnd_iff]
    exact (and_iff_right (classifyQ_freqHigh s)).symm

/-! Frequency 0, where silence lies (41_symbol_detector.md R139). -/

theorem classifyQ_zero (s : State) {den : ℕ} (hden : 0 < den) : s.classifyQ 0 den = s.classifyQ 0 1 := by
  simp [classifyQ_eq s 0 hden, classifyQ_eq s 0 one_pos]

theorem classifyQ_zero_one_eq_zero_iff (s : State) :
    s.classifyQ 0 1 = .zero ↔ s.freqLow.toNat < s.freqHigh.toNat := by
  simp [classifyQ_eq_zero_iff, carrierDist]

theorem decodeSymbol_replicate (s : State) (a : Int) (hn : 1 ≤ s.nsym.toNat) :
    s.decodeSymbol (List.replicate s.nsym.toNat a) = s.classifyQ 0 1 := by
  rw [State.decodeSymbol, peakBin_replicate hn, State.classify, Nat.zero_mul, classifyQ_zero s hn]

/-- Settles O46: a constant window has its peak in bin 0, which stands for the frequency 0. -/
theorem constantWindowIsBinZero : Obligations.ConstantWindowIsBinZero := fun s a hn =>
  ⟨peakBin_replicate hn a, decodeSymbol_replicate s a hn, fun h =>
    (decodeSymbol_replicate s a hn).trans ((classifyQ_zero_one_eq_zero_iff s).mpr h)⟩

/-! DSYM (41_symbol_detector.md R136, R140). -/

theorem exec_dsym (s : State) : exec .dsym s = .next (dsym s) := rfl

theorem dsym_short {s : State} (hc : s.cfgOk = true) (ha : s.avail s.cursor.toNat 1 = false) :
    dsym s = raise .shortWindow s := by
  simp [dsym, hc, ha]

theorem dsym_completed {s : State} (hc : s.cfgOk = true) (ha : s.avail s.cursor.toNat 1 = true) :
    dsym s = finish (s.decodeSymbol (s.window s.cursor.toNat) == .endSym) false
      ((s.classifyWindow s.cursor.toNat).advance 1) := by
  simp [dsym, hc, ha]

theorem statusOk_isEnd (x : Symbol) : statusOk (x == .endSym) false = if x = .endSym then 0x002#12 else 0x000#12 := by
  cases x <;> rfl

/-- Settles O48: a window is available exactly where the cursor and NSYM lie within WAVE_IN_LEN. -/
theorem dsymResult : Obligations.DsymResult := by
  intro s hc
  obtain ⟨-, hn⟩ := (cfgOk_iff s).mp hc
  have havail : s.avail s.cursor.toNat 1 = true ↔ s.cursor.toNat + s.nsym.toNat ≤ s.waveInLen.toNat := by
    rw [avail_iff]
    omega
  refine ⟨fun h => ?_, fun h => ?_⟩
  · have ha := havail.mpr h
    obtain ⟨hcursor, -⟩ := advance_toNat (by omega) ha
    refine ⟨_, hcursor.trans (by rw [Nat.one_mul]), ?_⟩
    rw [exec_dsym, dsym_completed hc ha, ← statusOk_isEnd]
    rfl
  · rw [exec_dsym, dsym_short hc (by rw [← Bool.not_eq_true, havail]; omega)]
    rfl

end Sys2Proof.Machine
end

section
/-! PROOF. Bits, bytes and codewords as numbers (42_byte_codec.md R145, 30_encoding.md R89, R90): the number of a list of bits,
and that packing the bits of a word gives the word back. -/

namespace Sys2Proof.Machine

/-! The number of a list of bits. -/

@[simp] theorem bitsToNat_nil : bitsToNat [] = 0 := rfl

theorem foldl_bits_eq (v : List Bool) (n : ℕ) :
    v.foldl (fun n x => 2 * n + x.toNat) n = n * 2 ^ v.length + bitsToNat v := by
  unfold bitsToNat
  induction v generalizing n with
  | nil => simp
  | cons x v ih =>
    rw [List.foldl_cons, List.foldl_cons, ih, ih (2 * 0 + x.toNat), List.length_cons]
    ring

/-- The first bit is the most significant. -/
@[simp] theorem bitsToNat_cons (x : Bool) (v : List Bool) :
    bitsToNat (x :: v) = x.toNat * 2 ^ v.length + bitsToNat v := by
  rw [bitsToNat, List.foldl_cons, foldl_bits_eq, Nat.mul_zero, Nat.zero_add]

theorem bitsToNat_lt (v : List Bool) : bitsToNat v < 2 ^ v.length := by
  induction v with
  | nil => exact Nat.one_pos
  | cons x v ih =>
    have hx : x.toNat * 2 ^ v.length ≤ 1 * 2 ^ v.length := Nat.mul_le_mul_right _ x.toNat_le
    rw [bitsToNat_cons, List.length_cons, Nat.pow_succ]
    omega

/-- The lowest n bits of a word, the highest of them first, are its remainder modulo `2^n`. -/
theorem bitsToNat_getLsbD {w : ℕ} (b : BitVec w) (n : ℕ) :
    bitsToNat ((List.range n).reverse.map b.getLsbD) = b.toNat % 2 ^ n := by
  induction n with
  | zero => simp [Nat.mod_one]
  | succ n ih =>
    have hlen : ((List.range n).reverse.map b.getLsbD).length = n := by simp
    rw [List.range_succ, List.reverse_append, List.reverse_singleton, List.singleton_append, List.map_cons,
      bitsToNat_cons, ih, hlen, BitVec.getLsbD, Nat.toNat_testBit, Nat.mod_pow_succ, Nat.mul_comm, Nat.add_comm]

/-- Packing all the bits of a word, the most significant first, gives the word. -/
theorem ofNat_bitsToNat_getLsbD {w : ℕ} (b : BitVec w) :
    BitVec.ofNat w (bitsToNat ((List.range w).reverse.map b.getLsbD)) = b := by
  rw [bitsToNat_getLsbD, Nat.mod_eq_of_lt b.isLt, BitVec.ofNat_toNat, BitVec.setWidth_eq]

/-! Bytes and codewords. -/

theorem toNat_packMSB {v : List Bool} (h : v.length = 8) : (packMSB v).toNat = bitsToNat v := by
  have hlt := bitsToNat_lt v
  rw [h] at hlt
  rw [packMSB, BitVec.toNat_ofNat, Nat.mod_eq_of_lt hlt]

theorem byteBits_eq (b : Byte) : byteBits b = (List.range 8).reverse.map b.getLsbD := rfl

/-- Position 1 is the most significant bit of a codeword (30_encoding.md R90). -/
theorem codeBits_eq (c : Codeword) : codeBits c = (List.range 12).reverse.map c.getLsbD := rfl

@[simp] theorem byteBits_length (b : Byte) : (byteBits b).length = 8 := rfl

@[simp] theorem packMSB_byteBits (b : Byte) : packMSB (byteBits b) = b := by
  rw [packMSB, byteBits_eq, ofNat_bitsToNat_getLsbD]

@[simp] theorem packCode_codeBits (c : Codeword) : packCode (codeBits c) = c := by
  rw [packCode, codeBits_eq, ofNat_bitsToNat_getLsbD]

theorem bitSymbol_eq_ite (x : Bool) : bitSymbol x = if x then .one else .zero := by
  cases x <;> rfl

/-- Settles O49: the place value of each bit, and `ofNat_bitsToNat_getLsbD` at the widths of a byte and of a codeword. -/
theorem packingInverse : Obligations.PackingInverse := by
  refine ⟨fun v0 v1 v2 v3 v4 v5 v6 v7 => ?_, fun b => ⟨packMSB_byteBits b, rfl, ?_⟩, packCode_codeBits⟩
  · rw [toNat_packMSB rfl]
    simp [← Nat.add_assoc]
  · exact List.map_congr_left fun x _ => bitSymbol_eq_ite x

end Sys2Proof.Machine
end

section
/-! PROOF. The byte codec in plain mode: ENCB (42_byte_codec.md R146), DECB (R147, R148) and the round trip of a byte (R150). The
lemmas on encode commands and on byte windows are stated for any list of symbols and any number of windows. -/

namespace Sys2Proof.Machine

/-! ENCB. -/

/-- An encode command that completes: WAVE_OUT holds the waveform from element 0 on and is as before above it
(40_tone_generator.md R118). -/
theorem encodeCommand_result {s : State} (hc : s.cfgOk = true) {syms : List Symbol}
    (hfit : syms.length * s.nsym.toNat ≤ s.waveCap.toNat) (hz : s.zeroPeak (usedSymbols syms) = false)
    (results : State → State) :
    ∃ m n, encodeCommand syms.length syms results s = finish false false (results (s.setWaveOut m n))
      ∧ n.toNat = syms.length * s.nsym.toNat
      ∧ ∀ j, m.read? j = if j < syms.length * s.nsym.toNat then (s.waveSamples syms)[j]? else s.waveOut.read? j := by
  rw [Nat.mul_comm] at hfit ⊢
  have hcap := s.waveCap.isLt
  refine ⟨_, _, encodeCommand_completed hc hfit hz results, ?_, fun j => ?_⟩
  · rw [BitVec.toNat_ofNat, Nat.mod_eq_of_lt (hfit.trans_lt hcap)]
  · rw [Memory.read?_writeFront, waveSamples_length]

theorem exec_encb (b : Byte) (s : State) :
    exec (.encb b) s = .next (encodeCommand 8 (plainSyms b) (fun t => t.setByte b) s) := rfl

/-- Settles O39: an encode command whose eight symbols are those of the byte. -/
theorem encbResult : Obligations.EncbResult := by
  intro s b hc hfit hz
  obtain ⟨m, n, hend, hlen, hread⟩ :=
    encodeCommand_result (syms := plainSyms b) hc (by rwa [plainSyms_length]) hz (fun t => t.setByte b)
  rw [plainSyms_length] at hend hlen hread
  exact ⟨m, n, by rw [exec_encb, hend]; rfl, hlen, hread⟩

/-! DECB. -/

/-- Where L windows have a sample at all, they are available exactly where they end within WAVE_IN_LEN
(41_symbol_detector.md R130). -/
theorem avail_iff_add_le {s : State} {c L : ℕ} (h : 1 ≤ L * s.nsym.toNat) :
    s.avail c L = true ↔ c + L * s.nsym.toNat ≤ s.waveInLen.toNat := by
  rw [avail_iff]
  omega

theorem avail_eq_false_iff {s : State} {c L : ℕ} (h : 1 ≤ L * s.nsym.toNat) :
    s.avail c L = false ↔ s.waveInLen.toNat < c + L * s.nsym.toNat := by
  rw [← Bool.not_eq_true, avail_iff_add_le h, Nat.not_le]

/-- In a good configuration L windows have a sample. -/
theorem one_le_mul_nsym {s : State} (hc : s.cfgOk = true) {L : ℕ} (hL : 1 ≤ L) : 1 ≤ L * s.nsym.toNat :=
  Nat.mul_pos hL ((cfgOk_iff s).mp hc).2

theorem exec_decb (s : State) : exec .decb s = .next (decb s) := rfl

theorem decb_trunc {s : State} (hc : s.cfgOk = true) (ha : s.avail s.cursor.toNat 8 = false) :
    decb s = finish false true s := by
  simp [decb, hc, Config.plainLen, decodeByteWindow_trunc ha]

theorem decb_end {s : State} (hc : s.cfgOk = true) (ha : s.avail s.cursor.toNat 8 = true) {j : ℕ}
    (h : s.firstEnd s.cursor.toNat 8 j) :
    decb s = finish true false (s.setSymBin .endSym (s.binAt s.cursor.toNat j)) := by
  simp [decb, hc, Config.plainLen, decodeByteWindow_end ha h]

theorem decb_bits {s : State} (hc : s.cfgOk = true) (ha : s.avail s.cursor.toNat 8 = true)
    (h : s.noEnd s.cursor.toNat 8) :
    decb s = finish false false
      (((s.setSymBin (s.symbolAt s.cursor.toNat 7) (s.binAt s.cursor.toNat 7)).setByte
        (packMSB (s.bitsAt s.cursor.toNat 8))).advance 8) := by
  simp [decb, hc, Config.plainLen, decodeByteWindow_bits ha h]

/-- The state after a plain byte, its registers named. -/
theorem finish_byte_eq (s : State) (x : Symbol) (k : Word) (b : Byte) (L : ℕ) :
    finish false false (((s.setSymBin x k).setByte b).advance L) = { s with
      sym := x, bin := k, byte := b, cursor := BitVec.ofNat 32 (s.cursor.toNat + L * s.nsym.toNat), status := 0x000#12 } :=
  rfl

/-- Settles O50: the three results of a byte window of eight. -/
theorem decbResult : Obligations.DecbResult := by
  intro s hc
  have hpos := one_le_mul_nsym hc (L := 8) (by decide)
  refine ⟨fun hshort => ?_, fun hfits => ?_⟩
  · rw [exec_decb, decb_trunc hc ((avail_eq_false_iff hpos).mpr hshort)]
    rfl
  · have ha := (avail_iff_add_le hpos).mpr hfits
    refine ⟨fun j hend => ?_, fun hno => ?_⟩
    · rw [exec_decb, decb_end hc ha hend]
      rfl
    · obtain ⟨hcursor, -⟩ := advance_toNat hpos ha
      refine ⟨_, hcursor, ?_⟩
      rw [exec_decb, decb_bits hc ha hno, finish_byte_eq]

/-! The round trip of a byte (42_byte_codec.md R150). -/

/-- The symbols used by a list that holds x are one of the sets that DISTINGUISHABLE looks at for x. -/
theorem usedSymbols_mem_symbolSets {syms : List Symbol} {x : Symbol} (hx : x ∈ syms) :
    usedSymbols syms ∈ symbolSets x := by
  have hsub : usedSymbols syms ∈ List.sublists [.zero, .one, .endSym] := List.mem_sublists.mpr List.filter_sublist
  have hsets : ∀ used ∈ List.sublists [.zero, .one, .endSym], x ∈ used → used ∈ symbolSets x := by cases x <;> decide
  exact hsets _ hsub (mem_usedSymbols.mpr hx)

/-- Under DISTINGUISHABLE a tone is received as its symbol, whatever waveform it stands in (41_symbol_detector.md R142). -/
theorem decodeSymbol_toneSamples {s : State} (hd : s.distinguishable = true) {syms : List Symbol} {x : Symbol}
    (hx : x ∈ syms) (hz : s.zeroPeak (usedSymbols syms) = false) :
    s.decodeSymbol (s.toneSamples (s.peakPhase (usedSymbols syms)) x) = x := by
  rw [State.distinguishable, List.all_eq_true] at hd
  have hsets := List.all_eq_true.mp (hd x (by cases x <;> decide)) _ (usedSymbols_mem_symbolSets hx)
  simpa [State.distinguishes, hz] using hsets

/-- Windows that are received as the symbols of a list of bits: there is no END, and the bits are read back. -/
theorem noEnd_and_bitsAt_of_symbolAt {s : State} {c : ℕ} {v : List Bool}
    (h : ∀ j (hj : j < v.length), s.symbolAt c j = bitSymbol v[j]) :
    s.noEnd c v.length ∧ s.bitsAt c v.length = v := by
  have hbit : ∀ x : Bool, bitSymbol x ≠ .endSym ∧ (bitSymbol x == .one) = x := by decide
  refine ⟨fun j hj => ?_, List.ext_getElem (by simp [State.bitsAt]) fun j _ hj => ?_⟩
  · rw [h j hj]
    exact (hbit _).1
  · simp only [State.bitsAt, List.getElem_map, List.getElem_range, h j hj, (hbit _).2]

/-- Settles O52: each window is received as the symbol it was sent as, so the byte window gives the bits sent. -/
theorem plainByteRoundTrip : Obligations.PlainByteRoundTrip := by
  intro s b syms hc hd hmem hz hfits hplays
  have hsym : ∀ j (hj : j < (byteBits b).length), s.symbolAt s.cursor.toNat j = bitSymbol (byteBits b)[j] := by
    intro j hj
    have hx : (plainSyms b)[j]? = some (bitSymbol (byteBits b)[j]) := by
      rw [plainSyms, List.getElem?_map, List.getElem?_eq_getElem hj, Option.map_some]
    rw [State.symbolAt, hplays j _ hx, decodeSymbol_toneSamples hd (hmem _ (List.mem_of_getElem? hx)) hz]
  obtain ⟨hno, hbits⟩ := noEnd_and_bitsAt_of_symbolAt hsym
  rw [byteBits_length] at hno hbits
  have hpos := one_le_mul_nsym hc (L := 8) (by decide)
  have ha := (avail_iff_add_le hpos).mpr hfits
  obtain ⟨hcursor, -⟩ := advance_toNat hpos ha
  refine ⟨by rw [decodeByteWindow_bits ha hno, hbits], _, exec_decb s, ?_⟩
  rw [decb_bits hc ha hno, hbits, packMSB_byteBits, finish_byte_eq]
  exact ⟨rfl, rfl, hcursor⟩

end Sys2Proof.Machine
end

section
/-! PROOF. Hamming(12,8) (43_hamming.md R160 to R169, R175, R176). Everything rests on three facts: a flip at position p changes
the syndrome by xor with p, the even checks fix the parity bits (R163), and a codeword is fixed by its byte. -/

namespace Sys2Proof.Machine

/-! The bits of a packed list. -/

/-- The lowest bit of the number is the last of the list. -/
theorem testBit_bitsToNat (v : List Bool) (i : ℕ) : (bitsToNat v).testBit i = v.reverse.getD i false := by
  induction v with
  | nil => simp
  | cons x v ih =>
    rw [bitsToNat_cons, Nat.mul_comm, Nat.testBit_two_pow_mul_add _ (bitsToNat_lt v), List.reverse_cons, ih]
    split
    case isTrue h => rw [List.getD_append _ _ _ _ (by simpa using h)]
    case isFalse h =>
      rw [List.getD_append_right _ _ _ _ (by simpa using h), List.length_reverse, Nat.testBit_bool_toNat]
      cases i - v.length <;> simp

theorem getLsbD_ofNat_bitsToNat {w : ℕ} (v : List Bool) {i : ℕ} (hi : i < w) :
    (BitVec.ofNat w (bitsToNat v)).getLsbD i = v.reverse.getD i false := by
  rw [BitVec.getLsbD_ofNat, testBit_bitsToNat, decide_eq_true hi, Bool.true_and]

theorem getLsbD_packMSB (v : List Bool) {i : ℕ} (hi : i < 8) : (packMSB v).getLsbD i = v.reverse.getD i false :=
  getLsbD_ofNat_bitsToNat v hi

theorem posBit_packCode (v : List Bool) {p : ℕ} (hp : 1 ≤ p) : posBit (packCode v) p = v.reverse.getD (12 - p) false :=
  getLsbD_ofNat_bitsToNat v (by omega)

theorem bitsToNat_eq_zero_iff (v : List Bool) : bitsToNat v = 0 ↔ ∀ x ∈ v, x = false := by
  induction v with
  | nil => simp
  | cons x v ih => simp [ih]

/-! Positions and flips. -/

theorem posBit_xor (c d : Codeword) (p : ℕ) : posBit (c ^^^ d) p = (posBit c p ^^ posBit d p) := BitVec.getLsbD_xor

/-- The word with a one at position p only. -/
theorem posBit_one_shiftLeft {p q : ℕ} (hp : 1 ≤ p) (hp' : p ≤ 12) (hq' : q ≤ 12) :
    posBit (1#12 <<< (12 - q)) p = decide (q = p) := by
  rw [posBit, BitVec.getLsbD_shiftLeft, BitVec.getLsbD_one]
  grind

theorem posBit_flipPos {c : Codeword} {p q : ℕ} (hp : 1 ≤ p) (hp' : p ≤ 12) (hq' : q ≤ 12) :
    posBit (flipPos c q) p = if q = p then !posBit c p else posBit c p := by
  rw [flipPos, posBit_xor, posBit_one_shiftLeft hp hp' hq']
  split <;> simp [*]

@[simp] theorem flipPos_flipPos (c : Codeword) (p : ℕ) : flipPos (flipPos c p) p = c := by
  rw [flipPos, flipPos, BitVec.xor_assoc, BitVec.xor_self, BitVec.xor_zero]

/-! Checks and the syndrome (R162, R165). -/

@[simp] theorem checkBit_nil (c : Codeword) : checkBit c [] = false := rfl

@[simp] theorem checkBit_cons (c : Codeword) (p : ℕ) (k : List ℕ) : checkBit c (p :: k) = (posBit c p ^^ checkBit c k) := by
  have hfold : ∀ (k : List ℕ) (x : Bool), k.foldl (fun x p => x ^^ posBit c p) x = (x ^^ checkBit c k) := by
    intro k
    induction k with
    | nil => simp
    | cons q k ih =>
      intro x
      rw [checkBit, List.foldl_cons, List.foldl_cons, ih, ih (false ^^ _), Bool.false_xor, Bool.xor_assoc]
  rw [checkBit, List.foldl_cons, hfold, Bool.false_xor]

theorem checkBit_xor (c d : Codeword) (k : List ℕ) : checkBit (c ^^^ d) k = (checkBit c k ^^ checkBit d k) := by
  induction k with
  | nil => rfl
  | cons p k ih => simp only [checkBit_cons, ih, posBit_xor, Bool.xor_assoc, Bool.xor_left_comm]

theorem toNat_syndrome (c : Codeword) : (syndrome c).toNat = bitsToNat (checkSets.map (checkBit c)) :=
  Nat.mod_eq_of_lt (bitsToNat_lt (checkSets.map (checkBit c)))

/-- Bit i of the syndrome is the check of weight `2^i`. -/
theorem getLsbD_syndrome (c : Codeword) {i : ℕ} (hi : i < 4) :
    (syndrome c).getLsbD i = checkBit c (checkSets.reverse.getD i []) := by
  rw [syndrome, getLsbD_ofNat_bitsToNat _ hi, ← List.map_reverse, ← checkBit_nil c, List.getD_map]

theorem syndrome_xor (c d : Codeword) : syndrome (c ^^^ d) = syndrome c ^^^ syndrome d :=
  BitVec.eq_of_getLsbD_eq fun i hi => by
    rw [BitVec.getLsbD_xor, getLsbD_syndrome _ hi, getLsbD_syndrome _ hi, getLsbD_syndrome _ hi, checkBit_xor]

/-- Position p takes part in the checks whose weights are the bits of p (R160). -/
theorem syndrome_one_shiftLeft : ∀ p ≤ 12, 1 ≤ p → (syndrome (1#12 <<< (12 - p))).toNat = p := by decide

/-- A flip changes the syndrome by the number of its position. -/
theorem toNat_syndrome_flipPos (c : Codeword) {p : ℕ} (hp : 1 ≤ p) (hp' : p ≤ 12) :
    (syndrome (flipPos c p)).toNat = (syndrome c).toNat ^^^ p := by
  rw [flipPos, syndrome_xor, BitVec.toNat_xor, syndrome_one_shiftLeft p hp' hp]

theorem toNat_syndrome_foldl_flipPos (E : List ℕ) (hE : ∀ p ∈ E, 1 ≤ p ∧ p ≤ 12) (c : Codeword) :
    (syndrome (E.foldl flipPos c)).toNat = E.foldl (fun x p => x ^^^ p) (syndrome c).toNat := by
  induction E generalizing c with
  | nil => rfl
  | cons p E ih =>
    obtain ⟨⟨hp, hp'⟩, hE⟩ := List.forall_mem_cons.mp hE
    rw [List.foldl_cons, List.foldl_cons, ih hE, toNat_syndrome_flipPos c hp hp']

theorem syndrome_eq_zero_iff (c : Codeword) : syndrome c = 0#4 ↔ ∀ k ∈ checkSets, checkBit c k = false := by
  rw [← BitVec.toNat_inj, toNat_syndrome, BitVec.toNat_ofNat, Nat.zero_mod, bitsToNat_eq_zero_iff, List.forall_mem_map]

/-- Settles O27: each flip is an xor with its position, from the syndrome 0 of the codeword on. -/
theorem syndromeNamesPositions : Obligations.SyndromeNamesPositions := by
  refine ⟨fun c => ?_, syndrome_eq_zero_iff, fun c E hc _ hE => ?_⟩
  · rw [toNat_syndrome]
    simp [checkSets, ← Nat.add_assoc, Nat.mul_comm]
  · rw [toNat_syndrome_foldl_flipPos E hE, (syndrome_eq_zero_iff c).mpr hc]
    rfl

/-! Encoding (R161 to R164). -/

theorem checkBit_perm (c : Codeword) {k l : List ℕ} (h : k.Perm l) : checkBit c k = checkBit c l :=
  h.foldl_eq' (fun _ _ _ _ _ => Bool.xor_right_comm ..) false

/-- An even check gives any one of its bits as the xor of the others. -/
theorem checkBit_eq_false_iff (c : Codeword) {k l : List ℕ} {p : ℕ} (h : k.Perm (p :: l)) :
    checkBit c k = false ↔ posBit c p = checkBit c l := by
  rw [checkBit_perm c h, checkBit_cons, bne_eq_false_iff_eq]

/-- The even checks give the parity bits, as R163 computes them. -/
theorem evenChecks_iff (c : Codeword) :
    (∀ k ∈ checkSets, checkBit c k = false) ↔
      posBit c 11 = (posBit c 1 ^^ posBit c 3 ^^ posBit c 5 ^^ posBit c 7 ^^ posBit c 9)
      ∧ posBit c 10 = (posBit c 2 ^^ posBit c 3 ^^ posBit c 6 ^^ posBit c 7 ^^ posBit c 11)
      ∧ posBit c 12 = (posBit c 4 ^^ posBit c 5 ^^ posBit c 6 ^^ posBit c 7)
      ∧ posBit c 8 = (posBit c 9 ^^ posBit c 10 ^^ posBit c 11 ^^ posBit c 12) := by
  have h11 := checkBit_eq_false_iff c (k := [1, 3, 5, 7, 9, 11]) (l := [1, 3, 5, 7, 9]) (p := 11) (by decide)
  have h10 := checkBit_eq_false_iff c (k := [2, 3, 6, 7, 10, 11]) (l := [2, 3, 6, 7, 11]) (p := 10) (by decide)
  have h12 := checkBit_eq_false_iff c (k := [4, 5, 6, 7, 12]) (l := [4, 5, 6, 7]) (p := 12) (by decide)
  have h8 := checkBit_eq_false_iff c (k := [8, 9, 10, 11, 12]) (l := [9, 10, 11, 12]) (p := 8) (by decide)
  simp only [checkSets, List.forall_mem_cons, List.not_mem_nil, false_implies, implies_true, and_true]
  rw [h11, h10, h12, h8]
  simp only [checkBit_cons, checkBit_nil, Bool.xor_false, Bool.xor_assoc]
  exact ⟨fun ⟨e8, e12, e10, e11⟩ => ⟨e11, e10, e12, e8⟩, fun ⟨e11, e10, e12, e8⟩ => ⟨e8, e12, e10, e11⟩⟩

/-- The positions of the data bits, the most significant bit's first (R161, R167). -/
def dataPositions : List ℕ := [1, 2, 3, 5, 6, 7, 9, 4]

theorem extract_eq (c : Codeword) : extract c = packMSB (dataPositions.map (posBit c)) := rfl

theorem posBit_hamEnc_data (b : Byte) : dataPositions.map (posBit (hamEnc b)) = byteBits b := by
  simp only [dataPositions, List.map_cons, List.map_nil, hamEnc, posBit_packCode, Nat.one_le_ofNat, le_refl]
  rfl

theorem hamEnc_evenChecks (b : Byte) : ∀ k ∈ checkSets, checkBit (hamEnc b) k = false := by
  simp only [evenChecks_iff, hamEnc, posBit_packCode, Nat.one_le_ofNat, le_refl]
  exact ⟨rfl, rfl, rfl, rfl⟩

@[simp] theorem extract_hamEnc (b : Byte) : extract (hamEnc b) = b := by
  rw [extract_eq, posBit_hamEnc_data, packMSB_byteBits]

theorem getLsbD_extract (c : Codeword) {i : ℕ} (hi : i < 8) :
    (extract c).getLsbD i = posBit c (dataPositions.reverse.getD i 0) := by
  have h0 : posBit c 0 = false := BitVec.getLsbD_of_ge c 12 (by decide)
  rw [extract_eq, getLsbD_packMSB _ hi, ← List.map_reverse, ← h0, List.getD_map]

/-- Words with the same byte agree at the data positions. -/
theorem posBit_eq_of_extract_eq {c d : Codeword} (h : extract c = extract d) {p : ℕ} (hp : p ∈ dataPositions) :
    posBit c p = posBit d p := by
  have hbit : ∀ p ∈ dataPositions, ∃ i < 8, dataPositions.reverse.getD i 0 = p := by decide
  obtain ⟨i, hi, rfl⟩ := hbit p hp
  rw [← getLsbD_extract c hi, ← getLsbD_extract d hi, h]

/-- A codeword is the encoding of its byte: the two agree at the data positions, and both have even checks. -/
theorem eq_hamEnc_of_evenChecks {c : Codeword} (h : ∀ k ∈ checkSets, checkBit c k = false) : c = hamEnc (extract c) := by
  have hdata : ∀ p ∈ dataPositions, posBit c p = posBit (hamEnc (extract c)) p :=
    fun _ => posBit_eq_of_extract_eq (extract_hamEnc _).symm
  have hparity := (evenChecks_iff c).mp h
  have hparity' := (evenChecks_iff _).mp (hamEnc_evenChecks (extract c))
  have hbits : codeBits c = codeBits (hamEnc (extract c)) := by
    simp only [dataPositions, List.forall_mem_cons] at hdata
    simp only [codeBits, List.map_cons, List.map_nil, hdata, hparity, hparity']
  exact (packCode_codeBits c).symm.trans (hbits ▸ packCode_codeBits _)

/-- Settles O26: the even checks, with the data bits put in for their positions. -/
theorem hammingEncode : Obligations.HammingEncode := by
  refine ⟨fun b => ?_, fun c => eq_hamEnc_of_evenChecks⟩
  have hdata := posBit_hamEnc_data b
  obtain ⟨h11, h10, h12, h8⟩ := (evenChecks_iff _).mp (hamEnc_evenChecks b)
  simp only [dataPositions, byteBits, List.map_cons, List.map_nil, List.cons.injEq, and_true] at hdata
  obtain ⟨h1, h2, h3, h5, h6, h7, h9, h4⟩ := hdata
  rw [h1, h3, h5, h7, h9] at h11
  rw [h11, h2, h3, h6, h7] at h10
  rw [h4, h5, h6, h7] at h12
  rw [h9, h10, h11, h12] at h8
  refine ⟨h1, h2, h3, h4, h5, h6, h7, h9, h11, ?_, ?_, ?_, hamEnc_evenChecks b⟩
  · simpa only [Bool.xor_assoc, Bool.xor_left_comm, Bool.xor_comm, Bool.bne_self_left, Bool.xor_self, Bool.xor_false]
      using h10
  · simpa only [Bool.xor_left_comm, Bool.xor_comm] using h12
  · simpa only [Bool.xor_assoc, Bool.xor_left_comm, Bool.xor_comm, Bool.bne_self_left, Bool.xor_self, Bool.false_xor]
      using h8

/-! Correction and extraction (R166 to R169). -/

theorem correct_of_named {c : Codeword} {p : ℕ} (hp : 1 ≤ p) (hp' : p ≤ 12) (h : (syndrome c).toNat = p) :
    correct c = flipPos c p := by
  subst h
  exact if_pos ⟨hp, hp'⟩

theorem correct_of_unnamed {c : Codeword} (h : (syndrome c).toNat = 0 ∨ 13 ≤ (syndrome c).toNat) : correct c = c :=
  if_neg (by omega)

/-- Settles O28: the syndrome names a position or it does not. -/
theorem correctAndExtract : Obligations.CorrectAndExtract := by
  intro c
  have hbit := fun i : Fin 8 => getLsbD_extract c i.isLt
  refine ⟨fun p hp hp' => ?_, correct_of_unnamed, ?_⟩
  · by_cases hs : (syndrome c).toNat = 0 ∨ 13 ≤ (syndrome c).toNat
    · rw [correct_of_unnamed hs, if_neg (by omega)]
    · rw [correct_of_named (by omega) (by omega) rfl, posBit_flipPos hp hp' (by omega)]
  · exact ⟨hbit 7, hbit 6, hbit 5, hbit 4, hbit 3, hbit 2, hbit 1, hbit 0⟩

/-! HENC and HDEC (R170, R171). -/

theorem exec_henc (b : Byte) (s : State) :
    exec (.henc b) s = .next (finish false false ((s.setByte b).setCode (hamEnc b) 0#4)) := rfl

theorem exec_hdec (c : Codeword) (s : State) : exec (.hdec c) s = .next (finish false false (s.setDecoded c)) := rfl

theorem errFlag_statusOk (isend trunc : Bool) : errFlag (statusOk isend trunc) = false := by
  decide +revert

/-- Settles O31: neither command looks at the state before it writes its registers. -/
theorem hencHdecResult : Obligations.HencHdecResult := by
  refine fun s => ⟨fun b => ?_, fun c => ?_⟩
  · simp only [exec_henc, finish_eq, statusOk_none, State.setByte, State.setCode, State.setStatus]
  · simp only [exec_hdec, setDecoded_eq, finish_eq, statusOk_none, State.setByte, State.setCode, State.setStatus]

/-! Errors (R175, R176). -/

theorem toNat_syndrome_hamEnc (b : Byte) : (syndrome (hamEnc b)).toNat = 0 := by
  rw [(syndrome_eq_zero_iff _).mpr (hamEnc_evenChecks b), BitVec.toNat_ofNat, Nat.zero_mod]

/-- Settles O29: the codeword's syndrome is 0, so a flip's is its position, and a second flip there undoes it. -/
theorem singleErrorCorrected : Obligations.SingleErrorCorrected := by
  intro b
  have hsyn := toNat_syndrome_hamEnc b
  have hcorrect : correct (hamEnc b) = hamEnc b := correct_of_unnamed (.inl hsyn)
  refine ⟨fun p hp hp' => ?_, BitVec.eq_of_toNat_eq hsyn, hcorrect, by rw [hcorrect, extract_hamEnc]⟩
  have hnamed : (syndrome (flipPos (hamEnc b) p)).toNat = p := by
    rw [toNat_syndrome_flipPos _ hp hp', hsyn, Nat.zero_xor]
  have hback : correct (flipPos (hamEnc b) p) = hamEnc b := by
    rw [correct_of_named hp hp' hnamed, flipPos_flipPos]
  exact ⟨hnamed, hback, by rw [hback, extract_hamEnc]⟩

/-- Of two positions whose xor names no position, one holds a data bit. -/
theorem mem_dataPositions_of_xor {p q : ℕ} (hp : p ≤ 12) (hq : q ≤ 12) (h : 13 ≤ p ^^^ q) :
    p ∈ dataPositions ∨ q ∈ dataPositions := by
  have hall : ∀ p q : Fin 13, 13 ≤ p.val ^^^ q.val → p.val ∈ dataPositions ∨ q.val ∈ dataPositions := by decide
  exact hall ⟨p, by omega⟩ ⟨q, by omega⟩ h

theorem xor_ne_of_ne {p q : ℕ} (hp : 1 ≤ p) (hq : 1 ≤ q) (hpq : p ≠ q) : p ^^^ q ≠ 0 ∧ p ^^^ q ≠ p ∧ p ^^^ q ≠ q := by
  simp only [ne_eq, Nat.xor_eq_zero_iff, xor_left_eq_self_iff, xor_right_eq_self_iff]
  omega

section DoubleError
variable {b : Byte} {p q : ℕ} (hp : 1 ≤ p) (hp' : p ≤ 12) (hq : 1 ≤ q) (hq' : q ≤ 12)
include hp hp' hq hq'

theorem toNat_syndrome_doubleError : (syndrome (flipPos (flipPos (hamEnc b) p) q)).toNat = p ^^^ q := by
  rw [toNat_syndrome_flipPos _ hq hq', toNat_syndrome_flipPos _ hp hp', toNat_syndrome_hamEnc, Nat.zero_xor]

/-- A third flip makes a codeword again, but another one. -/
theorem extract_tripleFlip_ne (hpq : p ≠ q) (hr : p ^^^ q ≤ 12) :
    extract (flipPos (flipPos (flipPos (hamEnc b) p) q) (p ^^^ q)) ≠ b := by
  obtain ⟨hr0, hrp, -⟩ := xor_ne_of_ne hp hq hpq
  intro hb
  have hsyn : (syndrome (flipPos (flipPos (flipPos (hamEnc b) p) q) (p ^^^ q))).toNat = 0 := by
    rw [toNat_syndrome_flipPos _ (by omega) hr, toNat_syndrome_doubleError hp hp' hq hq', Nat.xor_self]
  have hcode := eq_hamEnc_of_evenChecks ((syndrome_eq_zero_iff _).mp (BitVec.eq_of_toNat_eq hsyn))
  rw [hb] at hcode
  have hbit := congrArg (posBit · p) hcode
  simp [posBit_flipPos, hp, hp', hq', hr, hrp, hpq.symm] at hbit

/-- One of the two flips is in the data. -/
theorem extract_doubleFlip_ne (hpq : p ≠ q) (hr : 13 ≤ p ^^^ q) : extract (flipPos (flipPos (hamEnc b) p) q) ≠ b := by
  intro hb
  have hsame : ∀ r ∈ dataPositions, posBit (flipPos (flipPos (hamEnc b) p) q) r = posBit (hamEnc b) r :=
    fun _ => posBit_eq_of_extract_eq (hb.trans (extract_hamEnc b).symm)
  rcases mem_dataPositions_of_xor hp' hq' hr with h | h
  · simpa [posBit_flipPos, hp, hp', hq', hpq.symm] using hsame p h
  · simpa [posBit_flipPos, hq, hp', hq', hpq] using hsame q h

end DoubleError

/-- Settles O30: the syndrome names a third position or none, and either way a data bit stays wrong. -/
theorem doubleErrorSilent : Obligations.DoubleErrorSilent := by
  intro b p q hp hp' hq hq' hpq c
  have hsyn : (syndrome c).toNat = p ^^^ q := toNat_syndrome_doubleError hp hp' hq hq'
  obtain ⟨hne, hnep, hneq⟩ := xor_ne_of_ne hp hq hpq
  have hnamed : p ^^^ q ≤ 12 → correct c = flipPos c (p ^^^ q) := fun hr =>
    correct_of_named (Nat.one_le_iff_ne_zero.mpr hne) hr hsyn
  have hunnamed : 13 ≤ p ^^^ q → correct c = c := fun hr => correct_of_unnamed (.inr (hsyn ▸ hr))
  refine ⟨hsyn, hne, hnep, hneq, hnamed, hunnamed, ?_, fun s => ⟨_, exec_hdec c s, errFlag_statusOk false false⟩⟩
  rcases Nat.lt_or_ge 12 (p ^^^ q) with hr | hr
  · rw [hunnamed hr]
    exact extract_doubleFlip_ne hp hp' hq hq' hpq hr
  · rw [hnamed hr]
    exact extract_tripleFlip_ne hp hp' hq hq' hpq hr

end Sys2Proof.Machine
end

section
/-! PROOF. The commands of protected mode that make or take tones: ENCH (43_hamming.md R172) and DECH (R174), by the lemmas on
encode commands and on byte windows, with twelve symbols. -/

namespace Sys2Proof.Machine

/-! ENCH. -/

theorem exec_ench (b : Byte) (s : State) : exec (.ench b) s
    = .next (encodeCommand 12 (cwSyms (hamEnc b)) (fun t => (t.setByte b).setCode (hamEnc b) 0#4) s) := rfl

/-- Settles O40: an encode command whose twelve symbols are those of the codeword. -/
theorem enchResult : Obligations.EnchResult := by
  intro s b hc hfit hz
  obtain ⟨m, n, hend, hlen, hread⟩ := encodeCommand_result (syms := cwSyms (hamEnc b)) hc (by rwa [cwSyms_length]) hz
    (fun t => (t.setByte b).setCode (hamEnc b) 0#4)
  rw [cwSyms_length] at hend hlen hread
  exact ⟨m, n, by rw [exec_ench, hend]; rfl, hlen, hread⟩

/-! DECH. -/

theorem exec_dech (s : State) : exec .dech s = .next (dech s) := rfl

theorem dech_trunc {s : State} (hc : s.cfgOk = true) (ha : s.avail s.cursor.toNat 12 = false) :
    dech s = finish false true s := by
  simp [dech, hc, Config.cwLen, decodeByteWindow_trunc ha]

theorem dech_end {s : State} (hc : s.cfgOk = true) (ha : s.avail s.cursor.toNat 12 = true) {j : ℕ}
    (h : s.firstEnd s.cursor.toNat 12 j) :
    dech s = finish true false (s.setSymBin .endSym (s.binAt s.cursor.toNat j)) := by
  simp [dech, hc, Config.cwLen, decodeByteWindow_end ha h]

theorem dech_bits {s : State} (hc : s.cfgOk = true) (ha : s.avail s.cursor.toNat 12 = true)
    (h : s.noEnd s.cursor.toNat 12) :
    dech s = finish false false
      (((s.setSymBin (s.symbolAt s.cursor.toNat 11) (s.binAt s.cursor.toNat 11)).setDecoded
        (packCode (s.bitsAt s.cursor.toNat 12))).advance 12) := by
  simp [dech, hc, Config.cwLen, decodeByteWindow_bits ha h]

/-- The state after a protected byte, its registers named. -/
theorem finish_decoded_eq (s : State) (x : Symbol) (k : Word) (w : Codeword) (L : ℕ) :
    finish false false (((s.setSymBin x k).setDecoded w).advance L) = { s with
      sym := x, bin := k, syn := syndrome w, cw := correct w, byte := extract (correct w),
      cursor := BitVec.ofNat 32 (s.cursor.toNat + L * s.nsym.toNat), status := 0x000#12 } := by
  simp only [finish_eq, advance_eq, setDecoded_eq, statusOk_none, State.setSymBin, State.setByte, State.setCode,
    State.setCursor, State.setStatus]

/-- Settles O51: the three results of a byte window of twelve. -/
theorem dechResult : Obligations.DechResult := by
  intro s hc
  have hpos := one_le_mul_nsym hc (L := 12) (by decide)
  refine ⟨fun hshort => ?_, fun hfits => ?_⟩
  · rw [exec_dech, dech_trunc hc ((avail_eq_false_iff hpos).mpr hshort)]
    rfl
  · have ha := (avail_iff_add_le hpos).mpr hfits
    refine ⟨fun j hend => ?_, fun hno w hw => ?_⟩
    · rw [exec_dech, dech_end hc ha hend]
      rfl
    · obtain ⟨hcursor, -⟩ := advance_toNat hpos ha
      refine ⟨_, hcursor, ?_⟩
      rw [exec_dech, dech_bits hc ha hno, finish_decoded_eq, hw]

end Sys2Proof.Machine
end

section
/-! PROOF. The frame encoder ENCF (44_frame_codec.md R185, R186): an encode command whose symbols are those of the frame. -/

namespace Sys2Proof.Machine

/-- ENCF counts the symbols of its frame without wrap-around (44_frame_codec.md R186). -/
theorem exec_encf {s : State} {syms : List Symbol}
    (h : syms = frameSyms s.mode s.extInput s.dataInput s.endRepeat.toNat) :
    exec .encf s = .next (encodeCommand syms.length syms id s) := by
  rw [h, frameSyms_length, extInput_length, dataInput_length]
  rfl

/-- Settles O41: an encode command whose symbols are the frame's, and the length of a frame is R186's count. -/
theorem encfResult : Obligations.EncfResult := by
  intro s total syms hsyms htotal hc hfit hz
  have hlen : syms.length * s.nsym.toNat = total := by
    rw [hsyms, htotal, frameSyms_length, extInput_length, dataInput_length, Nat.mul_comm]
    rfl
  obtain ⟨m, n, hend, hn, hread⟩ := encodeCommand_result hc (hlen ▸ hfit) hz id
  rw [hlen] at hn hread
  exact ⟨m, n, by rw [exec_encf hsyms, hend]; rfl, hn, by rw [waveSamples_length, Nat.mul_comm, hlen], hread⟩

end Sys2Proof.Machine
end

section
/-! PROOF. The frame decoder's commands DINIT (44_frame_codec.md R190) and DSTEP (R191 to R195): what each does as one equation
per outcome, in the order of the checks. -/

namespace Sys2Proof.Machine

theorem exec_dinit (s : State) : exec .dinit s = .next (dinit s) := rfl

theorem exec_dstep (s : State) : exec .dstep s = .next (dstep s) := rfl

theorem exec_decf (s : State) : exec .decf s = .next (decf s) := rfl

/-! DINIT. -/

theorem inRate_toNat_eq_iff (s : State) : s.inRate.toNat = 44100 ↔ s.inRate = 44100#32 := by
  rw [← BitVec.toNat_inj]
  rfl

theorem dinit_completed {s : State} (hc : s.cfgOk = true) (hr : s.inRate = 44100#32) :
    dinit s = { s with
      extOutLen := 0#32, dataOutLen := 0#32, cursor := 0#32, fstate := startState s.mode, status := 0x000#12 } := by
  rw [dinit_eq, if_neg (by simp [hc]), if_neg (by simp [hr])]
  rfl

theorem dinit_rateMismatch {s : State} (hc : s.cfgOk = true) (hr : s.inRate ≠ 44100#32) :
    dinit s = { s with fstate := .done, extOutLen := 0#32, dataOutLen := 0#32, status := 0x308#12 } := by
  rw [dinit_eq, if_neg (by simp [hc]), if_pos (mt (inRate_toNat_eq_iff s).mp hr)]
  rfl

/-- On a rate mismatch DECF is the DINIT it begins with (44_frame_codec.md R196). -/
theorem decf_rateMismatch {s : State} (hr : s.inRate ≠ 44100#32) : decf s = dinit s := by
  rcases decf_cases s with ⟨h, -⟩ | ⟨-, h, -⟩
  · exact h
  · exact absurd ((inRate_toNat_eq_iff s).mp h) hr

/-- Settles O53: the two outcomes of DINIT in a good configuration. -/
theorem dinitResult : Obligations.DinitResult := by
  refine fun s hc => ⟨fun hr => ?_, fun hr i hi => ?_⟩
  · rw [exec_dinit, dinit_completed hc hr, startState]
  · have hexec : exec i s = .next (dinit s) := by
      rcases hi with rfl | rfl
      · rfl
      · rw [exec_decf, decf_rateMismatch hr]
    rw [hexec, dinit_rateMismatch hc hr]

/-! DSTEP goes by FSTATE. -/

theorem dstep_done {s : State} (hc : s.cfgOk = true) (hf : s.fstate = .done) : dstep s = { s with status := 0x000#12 } := by
  simp [dstep, hc, hf, statusOk_none, State.setStatus]

/-! In PREAMBLE. -/

section Preamble
variable {s : State} (hc : s.cfgOk = true) (hf : s.fstate = .preamble)
include hc hf

theorem dstep_preamble : dstep s = stepPreamble s := by
  simp [dstep, hc, hf]

theorem dstep_preamble_skipped (ha : s.avail s.cursor.toNat 10 = true) :
    dstep s = { s with
      cursor := BitVec.ofNat 32 (s.cursor.toNat + 10 * s.nsym.toNat), fstate := .header, status := 0x000#12 } := by
  rw [dstep_preamble hc hf, stepPreamble, Config.preambleLen, if_pos ha]
  rfl

theorem dstep_preamble_trunc (ha : s.avail s.cursor.toNat 10 = false) :
    dstep s = { s with fstate := .done, status := 0x004#12 } := by
  rw [dstep_preamble hc hf, stepPreamble, Config.preambleLen, ha]
  rfl

end Preamble

/-- Settles O54: ten windows are there or are not, and in DONE DSTEP is nothing but its end. -/
theorem dstepPreambleAndDone : Obligations.DstepPreambleAndDone := by
  intro s hc
  have hpos := one_le_mul_nsym hc (L := 10) (by decide)
  refine ⟨fun hf => ⟨fun hfits => ?_, fun hshort => ?_⟩, fun hf => by rw [exec_dstep, dstep_done hc hf]⟩
  · have ha := (avail_iff_add_le hpos).mpr hfits
    exact ⟨_, (advance_toNat hpos ha).1, by rw [exec_dstep, dstep_preamble_skipped hc hf ha]⟩
  · rw [exec_dstep, dstep_preamble_trunc hc hf ((avail_eq_false_iff hpos).mpr hshort)]

/-! In HEADER. -/

section Header
variable {s : State} (hc : s.cfgOk = true) (hf : s.fstate = .header)
include hc hf

theorem dstep_header : dstep s = stepHeader s := by
  simp [dstep, hc, hf]

theorem dstep_header_trunc (ha : s.avail s.cursor.toNat 8 = false) :
    dstep s = { s with fstate := .done, status := 0x004#12 } := by
  rw [dstep_header hc hf, stepHeader, Config.plainLen, decodeByteWindow_trunc ha]
  rfl

variable (ha : s.avail s.cursor.toNat 8 = true)
include ha

theorem dstep_header_end {j : ℕ} (h : s.firstEnd s.cursor.toNat 8 j) :
    dstep s = { s with sym := .endSym, bin := s.binAt s.cursor.toNat j, fstate := .done, status := 0x002#12 } := by
  rw [dstep_header hc hf, stepHeader, Config.plainLen, decodeByteWindow_end ha h]
  rfl

variable (h : s.noEnd s.cursor.toNat 8) {b : Byte} (hb : b = packMSB (s.bitsAt s.cursor.toNat 8))
include h hb

/-- Eight windows without an END: SYM, BIN and BYTE are written, and the byte is looked at. -/
theorem dstep_header_byte :
    dstep s = takeHeaderByte b
      ((s.setSymBin (s.symbolAt s.cursor.toNat 7) (s.binAt s.cursor.toNat 7)).setByte b) := by
  rw [dstep_header hc hf, stepHeader, Config.plainLen, decodeByteWindow_bits ha h, hb]

theorem dstep_header_terminator (hzero : b = 0#8) :
    dstep s = { s with
      sym := s.symbolAt s.cursor.toNat 7, bin := s.binAt s.cursor.toNat 7, byte := b,
      cursor := BitVec.ofNat 32 (s.cursor.toNat + 8 * s.nsym.toNat), fstate := .payload, status := 0x000#12 } := by
  rw [dstep_header_byte hc hf ha h hb, takeHeaderByte, if_pos hzero]
  simp only [finish_eq, statusOk_none, advance_eq, Config.plainLen, State.setSymBin, State.setByte, State.setCursor,
    State.setFstate, State.setStatus]

theorem dstep_header_full (hne : b ≠ 0#8) (hfull : s.extOutLen = s.extCap) :
    dstep s = { s with
      sym := s.symbolAt s.cursor.toNat 7, bin := s.binAt s.cursor.toNat 7, byte := b, fstate := .done,
      status := 0x608#12 } := by
  rw [dstep_header_byte hc hf ha h hb, takeHeaderByte, if_neg hne, if_pos (by exact hfull)]
  rfl

theorem dstep_header_stored (hne : b ≠ 0#8) (hfits : s.extOutLen ≠ s.extCap) :
    dstep s = { s with
      sym := s.symbolAt s.cursor.toNat 7, bin := s.binAt s.cursor.toNat 7, byte := b,
      cursor := BitVec.ofNat 32 (s.cursor.toNat + 8 * s.nsym.toNat),
      extOut := s.extOut.write s.extOutLen.toNat b, extOutLen := s.extOutLen + 1#32, status := 0x000#12 } := by
  rw [dstep_header_byte hc hf ha h hb, takeHeaderByte, if_neg hne, if_neg (by exact hfits)]
  simp only [finish_eq, statusOk_none, advance_eq, Config.plainLen, State.setSymBin, State.setByte, State.appendExtOut,
    State.setCursor, State.setStatus]

end Header

/-- An output length below its capacity does not wrap when it is counted up (20_memory.md R69). -/
theorem toNat_add_one_of_lt {n cap : Word} (h : n.toNat < cap.toNat) : (n + 1#32).toNat = n.toNat + 1 := by
  have hcap := cap.isLt
  rw [BitVec.toNat_add]
  exact Nat.mod_eq_of_lt (by simp; omega)

theorem ne_of_toNat_lt {n cap : Word} (h : n.toNat < cap.toNat) : n ≠ cap :=
  fun heq => h.ne (congrArg BitVec.toNat heq)

/-- Settles O55: the byte window's three results, and the three things done with a byte. -/
theorem dstepHeader : Obligations.DstepHeader := by
  intro s hc hf
  have hpos := one_le_mul_nsym hc (L := 8) (by decide)
  rw [exec_dstep]
  refine ⟨fun hshort => by rw [dstep_header_trunc hc hf ((avail_eq_false_iff hpos).mpr hshort)], fun hfits => ?_⟩
  have ha := (avail_iff_add_le hpos).mpr hfits
  obtain ⟨hcursor, -⟩ := advance_toNat hpos ha
  refine ⟨fun j hend => by rw [dstep_header_end hc hf ha hend], fun hno b hb => ⟨fun hzero => ?_, fun hne hfull => ?_,
    fun hne hlt => ?_⟩⟩
  · exact ⟨_, hcursor, by rw [dstep_header_terminator hc hf ha hno hb hzero]⟩
  · rw [dstep_header_full hc hf ha hno hb hne hfull]
  · exact ⟨_, _, _, hcursor, toNat_add_one_of_lt hlt, fun k => Memory.read?_write .., by
      rw [dstep_header_stored hc hf ha hno hb hne (ne_of_toNat_lt hlt)]⟩

/-! In PAYLOAD. -/

theorem payloadLen_eq (mode : BitVec 1) : payloadLen mode = if mode = 1#1 then 12 else 8 := rfl

theorem eight_le_payloadLen (mode : BitVec 1) : 8 ≤ payloadLen mode := by
  rw [payloadLen_eq]
  split <;> decide

theorem one_le_payloadLen (mode : BitVec 1) : 1 ≤ payloadLen mode :=
  (eight_le_payloadLen mode).trans' (by decide)

/-- `decodeByteWindow_bits` for a number of windows that is not a numeral. -/
theorem decodeByteWindow_noEnd {s : State} {c L : ℕ} (hL : 1 ≤ L) (ha : s.avail c L = true) (h : s.noEnd c L) :
    decodeByteWindow c L s = (.bits (s.bitsAt c L), s.setSymBin (s.symbolAt c (L - 1)) (s.binAt c (L - 1))) := by
  obtain ⟨L, rfl⟩ := Nat.exists_eq_add_of_le' hL
  exact decodeByteWindow_bits ha h

/-- s with the registers of a payload byte b, received as the word w in protected mode (44_frame_codec.md R194). -/
def State.setPayloadByte (s : State) (w : Codeword) (b : Byte) : State :=
  { s with
    byte := b, cw := if s.mode = 1#1 then correct w else s.cw, syn := if s.mode = 1#1 then syndrome w else s.syn }

theorem setPayload_eq {s : State} {v : List Bool} {w : Codeword} {b : Byte} (hw : s.mode = 1#1 → w = packCode v)
    (hb : b = if s.mode = 1#1 then extract (correct w) else packMSB v) : s.setPayload v = s.setPayloadByte w b := by
  unfold State.setPayload State.setPayloadByte
  split
  case isTrue h => simp [hb, h, ← hw h, State.setCode, State.setByte]
  case isFalse h => simp [hb, h, State.setByte]

section Payload
variable {s : State} (hc : s.cfgOk = true) (hf : s.fstate = .payload)
include hc hf

theorem dstep_payload : dstep s = stepPayload s := by
  simp [dstep, hc, hf]

theorem dstep_payload_trunc (ha : s.avail s.cursor.toNat (payloadLen s.mode) = false) :
    dstep s = { s with fstate := .done, status := 0x004#12 } := by
  rw [dstep_payload hc hf, stepPayload, decodeByteWindow_trunc ha]
  rfl

variable (ha : s.avail s.cursor.toNat (payloadLen s.mode) = true)
include ha

theorem dstep_payload_end {j : ℕ} (h : s.firstEnd s.cursor.toNat (payloadLen s.mode) j) :
    dstep s = { s with sym := .endSym, bin := s.binAt s.cursor.toNat j, fstate := .done, status := 0x002#12 } := by
  rw [dstep_payload hc hf, stepPayload, decodeByteWindow_end ha h]
  rfl

variable (h : s.noEnd s.cursor.toNat (payloadLen s.mode)) {w : Codeword} (hw : w = packCode (s.bitsAt s.cursor.toNat 12))
  {b : Byte} (hb : b = if s.mode = 1#1 then extract (correct w) else packMSB (s.bitsAt s.cursor.toNat 8))
include h hw hb

/-- A byte window without an END: SYM, BIN, BYTE and in protected mode CW and SYN are written, and there is a byte to store. -/
theorem dstep_payload_byte :
    dstep s = takePayloadByte
      ((s.setSymBin (s.symbolAt s.cursor.toNat (payloadLen s.mode - 1))
        (s.binAt s.cursor.toNat (payloadLen s.mode - 1))).setPayloadByte w b) := by
  rw [dstep_payload hc hf, stepPayload, decodeByteWindow_noEnd (one_le_payloadLen s.mode) ha h]
  refine congrArg takePayloadByte (setPayload_eq (fun hm => ?_) ?_)
  · rw [hw, payloadLen_eq, if_pos (show s.mode = 1#1 from hm)]
  · rw [hb, State.setSymBin_mode]
    by_cases hm : s.mode = 1#1
    · rw [if_pos hm, if_pos hm]
    · rw [if_neg hm, if_neg hm, payloadLen_eq, if_neg hm]

theorem dstep_payload_full (hfull : s.dataOutLen = s.dataCap) :
    dstep s = { s with
      sym := s.symbolAt s.cursor.toNat (payloadLen s.mode - 1), bin := s.binAt s.cursor.toNat (payloadLen s.mode - 1),
      byte := b, cw := if s.mode = 1#1 then correct w else s.cw, syn := if s.mode = 1#1 then syndrome w else s.syn,
      fstate := .done, status := 0x608#12 } := by
  rw [dstep_payload_byte hc hf ha h hw hb, takePayloadByte, if_pos (by exact hfull)]
  rfl

theorem dstep_payload_stored (hfits : s.dataOutLen ≠ s.dataCap) :
    dstep s = { s with
      sym := s.symbolAt s.cursor.toNat (payloadLen s.mode - 1), bin := s.binAt s.cursor.toNat (payloadLen s.mode - 1),
      byte := b, cw := if s.mode = 1#1 then correct w else s.cw, syn := if s.mode = 1#1 then syndrome w else s.syn,
      cursor := BitVec.ofNat 32 (s.cursor.toNat + payloadLen s.mode * s.nsym.toNat),
      dataOut := s.dataOut.write s.dataOutLen.toNat b, dataOutLen := s.dataOutLen + 1#32, status := 0x000#12 } := by
  rw [dstep_payload_byte hc hf ha h hw hb, takePayloadByte, if_neg (by exact hfits)]
  simp only [finish_eq, statusOk_none, advance_eq, State.setPayloadByte, State.setSymBin, State.appendDataOut,
    State.setCursor, State.setStatus]
  rfl

end Payload

/-- Settles O56: the byte window's three results, and the two things done with a byte. -/
theorem dstepPayload : Obligations.DstepPayload := by
  intro s L w b hc hf hL hw hb
  obtain rfl : L = payloadLen s.mode := hL
  have hpos := one_le_mul_nsym hc (one_le_payloadLen s.mode)
  rw [exec_dstep]
  refine ⟨fun hshort => by rw [dstep_payload_trunc hc hf ((avail_eq_false_iff hpos).mpr hshort)], fun hfits => ?_⟩
  have ha := (avail_iff_add_le hpos).mpr hfits
  obtain ⟨hcursor, -⟩ := advance_toNat hpos ha
  refine ⟨fun j hend => by rw [dstep_payload_end hc hf ha hend], fun hno => ⟨fun hfull => ?_, fun hlt => ?_⟩⟩
  · rw [dstep_payload_full hc hf ha hno hw hb hfull]
  · exact ⟨_, _, _, hcursor, toNat_add_one_of_lt hlt, fun k => Memory.read?_write .., by
      rw [dstep_payload_stored hc hf ha hno hw hb (ne_of_toNat_lt hlt)]⟩

end Sys2Proof.Machine
end

section
/-! PROOF. A decode as a run (44_frame_codec.md R196, R197): the states that DINIT and then one DSTEP after another reach. Each
DSTEP before DONE ends the decode or moves CURSOR over at least eight windows, so the run reaches DONE within R197's bound. -/

namespace Sys2Proof.Machine

/-! One DSTEP before DONE. -/

/-- A decode has ended, with one of the outcomes of R196. -/
def State.DecodeEnded (t : State) : Prop :=
  t.fstate = .done ∧ (t.status = 0x002#12 ∨ t.status = 0x004#12 ∨ t.status = 0x608#12)

/-- A decode goes on in t, CURSOR of s moved over at least one plain byte. -/
def GoesOn (s t : State) : Prop := t.fstate ≠ .done ∧ ∃ L, 8 ≤ L ∧ CursorAdvanced L s t

theorem State.consumes.goesOn {s t : State} {L : ℕ} (h : s.consumes L) (hL : 8 ≤ L) (hf : t.fstate ≠ .done)
    (hcursor : t.cursor = BitVec.ofNat 32 (s.cursor.toNat + L * s.nsym.toNat)) : GoesOn s t :=
  ⟨hf, L, hL, h.advanced (by omega) hcursor⟩

section
variable {s : State} (hc : s.cfgOk = true)
include hc

theorem dstep_preamble_ended_or_goesOn (hf : s.fstate = .preamble) : (dstep s).DecodeEnded ∨ GoesOn s (dstep s) := by
  cases ha : s.avail s.cursor.toNat 10 with
  | false => left; rw [dstep_preamble_trunc hc hf ha]; exact ⟨rfl, .inr (.inl rfl)⟩
  | true => right; rw [dstep_preamble_skipped hc hf ha]; exact State.consumes.goesOn ⟨hc, ha⟩ (by decide) nofun rfl

theorem dstep_header_ended_or_goesOn (hf : s.fstate = .header) : (dstep s).DecodeEnded ∨ GoesOn s (dstep s) := by
  cases ha : s.avail s.cursor.toNat 8 with
  | false => left; rw [dstep_header_trunc hc hf ha]; exact ⟨rfl, .inr (.inl rfl)⟩
  | true =>
    rcases noEnd_or_firstEnd s s.cursor.toNat 8 with hno | ⟨j, hend⟩
    · by_cases hzero : packMSB (s.bitsAt s.cursor.toNat 8) = 0#8
      · right
        rw [dstep_header_terminator hc hf ha hno rfl hzero]
        exact State.consumes.goesOn ⟨hc, ha⟩ le_rfl nofun rfl
      · by_cases hfull : s.extOutLen = s.extCap
        · left; rw [dstep_header_full hc hf ha hno rfl hzero hfull]; exact ⟨rfl, .inr (.inr rfl)⟩
        · right
          rw [dstep_header_stored hc hf ha hno rfl hzero hfull]
          exact State.consumes.goesOn ⟨hc, ha⟩ le_rfl (by simp [hf]) rfl
    · left; rw [dstep_header_end hc hf ha hend]; exact ⟨rfl, .inl rfl⟩

theorem dstep_payload_ended_or_goesOn (hf : s.fstate = .payload) : (dstep s).DecodeEnded ∨ GoesOn s (dstep s) := by
  cases ha : s.avail s.cursor.toNat (payloadLen s.mode) with
  | false => left; rw [dstep_payload_trunc hc hf ha]; exact ⟨rfl, .inr (.inl rfl)⟩
  | true =>
    rcases noEnd_or_firstEnd s s.cursor.toNat (payloadLen s.mode) with hno | ⟨j, hend⟩
    · by_cases hfull : s.dataOutLen = s.dataCap
      · left; rw [dstep_payload_full hc hf ha hno rfl rfl hfull]; exact ⟨rfl, .inr (.inr rfl)⟩
      · right
        rw [dstep_payload_stored hc hf ha hno rfl rfl hfull]
        exact State.consumes.goesOn ⟨hc, ha⟩ (eight_le_payloadLen s.mode) (by simp [hf]) rfl
    · left; rw [dstep_payload_end hc hf ha hend]; exact ⟨rfl, .inl rfl⟩

theorem dstep_ended_or_goesOn (hf : s.fstate ≠ .done) : (dstep s).DecodeEnded ∨ GoesOn s (dstep s) := by
  cases h : s.fstate with
  | preamble => exact dstep_preamble_ended_or_goesOn hc h
  | header => exact dstep_header_ended_or_goesOn hc h
  | payload => exact dstep_payload_ended_or_goesOn hc h
  | done => exact absurd h hf

end

/-! The run. -/

/-- The state after DINIT and k DSTEPs. -/
def decodeState (s : State) (k : ℕ) : State := dstep^[k] (dinit s)

@[simp] theorem decodeState_zero (s : State) : decodeState s 0 = dinit s := rfl

theorem decodeState_succ (s : State) (k : ℕ) : decodeState s (k + 1) = dstep (decodeState s k) :=
  Function.iterate_succ_apply' dstep k (dinit s)

/-- A decode writes nothing outside the row of DECF (10_state.md R47). -/
theorem decodeState_eq_withWritten (s : State) (k : ℕ) : decodeState s k = s.withWritten .decf (decodeState s k) :=
  Function.Iterate.rec (fun u => u = s.withWritten .decf u) (dinit_eq_withWritten s) (fun _ => dstep_eq_withWritten) k

theorem decodeState_nsym (s : State) (k : ℕ) : (decodeState s k).nsym = s.nsym :=
  (congrArg State.nsym (decodeState_eq_withWritten s k) :)

theorem decodeState_cfgOk (s : State) (k : ℕ) : (decodeState s k).cfgOk = s.cfgOk :=
  (congrArg State.cfgOk (decodeState_eq_withWritten s k) :)

theorem decodeState_mode (s : State) (k : ℕ) : (decodeState s k).mode = s.mode :=
  (congrArg State.mode (decodeState_eq_withWritten s k) :)

theorem decodeState_extCap (s : State) (k : ℕ) : (decodeState s k).extCap = s.extCap :=
  (congrArg State.extCap (decodeState_eq_withWritten s k) :)

theorem decodeState_dataCap (s : State) (k : ℕ) : (decodeState s k).dataCap = s.dataCap :=
  (congrArg State.dataCap (decodeState_eq_withWritten s k) :)

theorem decodeState_waveInLen (s : State) (k : ℕ) : (decodeState s k).waveInLen = s.waveInLen :=
  (congrArg State.waveInLen (decodeState_eq_withWritten s k) :)

section
variable {s : State} (hc : s.cfgOk = true)
include hc

theorem decodeState_ended_or_goesOn {k : ℕ} (hf : (decodeState s k).fstate ≠ .done) :
    (decodeState s (k + 1)).DecodeEnded ∨ GoesOn (decodeState s k) (decodeState s (k + 1)) := by
  rw [decodeState_succ]
  exact dstep_ended_or_goesOn ((decodeState_cfgOk s k).trans hc) hf

/-- Each DSTEP that does not end the decode has moved CURSOR over at least eight windows. -/
theorem mul_le_cursor_decodeState (k : ℕ) (h : ∀ m ≤ k, (decodeState s m).fstate ≠ .done) :
    k * (8 * s.nsym.toNat) ≤ (decodeState s k).cursor.toNat := by
  induction k with
  | zero => simp
  | succ k ih =>
    have ih := ih fun m hm => h m (by omega)
    rcases decodeState_ended_or_goesOn hc (h k (by omega)) with ⟨hdone, -⟩ | ⟨-, L, hL, hcursor, -⟩
    · exact absurd hdone (h (k + 1) le_rfl)
    · rw [decodeState_nsym] at hcursor
      have hstep : 8 * s.nsym.toNat ≤ L * s.nsym.toNat := Nat.mul_le_mul_right _ hL
      rw [hcursor, Nat.succ_mul]
      omega

variable (hr : s.inRate = 44100#32)
include hr

theorem cursor_decodeState_le (k : ℕ) : (decodeState s k).cursor.toNat ≤ s.waveInLen.toNat :=
  (Function.Iterate.rec (CursorFromZero s) (dinit_cursorFromZero hc ((inRate_toNat_eq_iff s).mpr hr))
    (fun _ => CursorFromZero.dstep) k).within

theorem decf_eq_decodeLoop : decf s = decodeLoop (decodeBound s) (dinit s) := by
  rcases decf_cases s with ⟨-, hbad⟩ | ⟨-, -, h⟩
  · simp [hc, hr] at hbad
  · exact h

/-- The loop of DECF stops at DONE, not at its bound (44_frame_codec.md R197): past it CURSOR would be past WAVE_IN_LEN. -/
theorem exists_decodeState_done :
    ∃ n ≤ decodeBound s, (∀ k < n, (decodeState s k).fstate ≠ .done) ∧ (decodeState s n).fstate = .done
      ∧ decf s = decodeState s n := by
  obtain ⟨n, hn, hloop, hundone, hstop⟩ := decodeLoop_iterate (decodeBound s) (dinit s)
  refine ⟨n, hn, hundone, ?_, (decf_eq_decodeLoop hc hr).trans hloop⟩
  by_contra hf
  have hall : ∀ m ≤ n, (decodeState s m).fstate ≠ .done := fun m hm =>
    (Nat.lt_or_eq_of_le hm).elim (hundone m) fun h => h ▸ hf
  have hcursor := (mul_le_cursor_decodeState hc n hall).trans (cursor_decodeState_le hc hr n)
  have hfew : n ≤ s.waveInLen.toNat / (8 * s.nsym.toNat) :=
    (Nat.le_div_iff_mul_le (one_le_mul_nsym hc (by decide))).mpr hcursor
  have hbound : n = 2 + s.waveInLen.toNat / (8 * s.nsym.toNat) := hstop.resolve_right hf
  omega

/-- DECF ends in the first state of the run that is DONE. -/
theorem decf_eq_decodeState {k : ℕ} (hundone : ∀ m < k, (decodeState s m).fstate ≠ .done)
    (hdone : (decodeState s k).fstate = .done) : decf s = decodeState s k := by
  obtain ⟨n, -, hn, hndone, heq⟩ := exists_decodeState_done hc hr
  have hle : n ≤ k := not_lt.mp fun h => hn k h hdone
  have hge : k ≤ n := not_lt.mp fun h => hundone n h hndone
  rw [heq, le_antisymm hle hge]

theorem dinit_fstate : (dinit s).fstate = startState s.mode := by
  rw [dinit_completed hc hr]

end

theorem startState_ne_done (mode : BitVec 1) : startState mode ≠ .done := by
  unfold startState
  split <;> nofun

/-- Settles O57: the run is that of `decodeState`, and the DSTEP that reaches DONE ends the decode. -/
theorem decfRunsToDone : Obligations.DecfRunsToDone := by
  intro s hc hr
  obtain ⟨n, hn, hundone, hdone, heq⟩ := exists_decodeState_done hc hr
  refine ⟨n, decodeState s, hn, rfl, fun k hk => ⟨hundone k hk, by rw [exec_dstep, decodeState_succ]⟩, hdone,
    by rw [exec_decf, heq], ?_⟩
  cases n with
  | zero => exact absurd ((dinit_fstate hc hr).symm.trans hdone) (startState_ne_done s.mode)
  | succ m =>
    rcases decodeState_ended_or_goesOn hc (hundone m m.lt_succ_self) with ⟨-, hstatus⟩ | ⟨hgoes, -⟩
    · exact hstatus
    · exact absurd hdone hgoes

end Sys2Proof.Machine
end

section
/-! PROOF. The round trip of a frame (44_frame_codec.md R200): what ENCF sends is received symbol by symbol, and DECF consumes it
part by part, preamble, header, payload and sentinel, each part one lemma that takes the decoder on along its run. -/

namespace Sys2Proof.Machine

/-! What a waveform played back is received as. -/

/-- A list of parts of one length: element n of part j stands at `j * k + n`. -/
theorem getElem?_flatMap_const {α β : Type*} {f : α → List β} {k : ℕ} (hf : ∀ a, (f a).length = k) {l : List α} {j n : ℕ}
    (hj : j < l.length) (hn : n < k) : (l.flatMap f)[j * k + n]? = (f l[j])[n]? := by
  induction l generalizing j with
  | nil => exact absurd hj (Nat.not_lt_zero j)
  | cons a l ih =>
    rw [List.flatMap_cons]
    cases j with
    | zero => rw [Nat.zero_mul, Nat.zero_add, List.getElem?_append_left (by rwa [hf])]; rfl
    | succ j =>
      have hsplit : (j + 1) * k + n = (f a).length + (j * k + n) := by rw [hf, Nat.succ_mul]; omega
      rw [hsplit, List.getElem?_append_right (Nat.le_add_right ..), Nat.add_sub_cancel_left,
        ih (Nat.lt_of_succ_lt_succ hj), List.getElem_cons_succ]

section Playback
variable {s : State} {syms : List Symbol} (hc : s.cfgOk = true) (hz : s.zeroPeak (usedSymbols syms) = false)
include hc hz

/-- The samples of a waveform fit in 16 bits (40_tone_generator.md R120). -/
theorem toInt_ofInt_toneSample {x : Symbol} (hx : x ∈ syms) {v : ℤ}
    (hv : v ∈ s.toneSamples (s.peakPhase (usedSymbols syms)) x) : (BitVec.ofInt 16 v).toInt = v := by
  have hM := phaseMod_pos hc
  obtain ⟨p, hp, rfl⟩ := List.mem_map.mp hv
  obtain ⟨n, -, hphase⟩ := mem_tonePhases.mp hp
  have hquiet : phaseDist s.phaseMod (s.peakPhase (usedSymbols syms)) ≤ phaseDist s.phaseMod p :=
    phaseDist_peakPhase_le (List.mem_flatMap_of_mem (mem_usedSymbols.mpr hx) hp)
  have hpeak : phaseDist s.phaseMod (s.peakPhase (usedSymbols syms)) < s.phaseMod :=
    lt_of_le_of_ne (phaseDist_le hM _) (of_decide_eq_false hz)
  obtain ⟨⟨hlow, hhigh⟩, -⟩ :=
    quantisedSampleProperties _ _ hM hpeak p (hphase ▸ Nat.mod_lt _ hM) hquiet
  exact BitVec.toInt_ofInt_eq_self (by decide) (by norm_num; omega) (by norm_num; omega)

theorem window_of_plays (hplays : s.plays 0 (s.waveSamples syms)) {j : ℕ} (hj : j < syms.length) :
    s.window (j * s.nsym.toNat) = s.toneSamples (s.peakPhase (usedSymbols syms)) syms[j] := by
  refine List.ext_getElem (by simp) fun n hn hn' => ?_
  have hns : n < s.nsym.toNat := by simpa using hn
  have hin : j * s.nsym.toNat + n < (s.waveSamples syms).length := by
    rw [waveSamples_length, Nat.mul_comm s.nsym.toNat]
    have := Nat.mul_le_mul_right s.nsym.toNat (Nat.succ_le_of_lt hj)
    rw [Nat.succ_mul] at this
    omega
  have hread : s.waveIn.read? (j * s.nsym.toNat + n)
      = some (BitVec.ofInt 16 (s.toneSamples (s.peakPhase (usedSymbols syms)) syms[j])[n]) := by
    have hplayed := hplays _ hin
    rw [Nat.zero_add] at hplayed
    rw [hplayed, State.waveSamples, List.getElem?_map,
      getElem?_flatMap_const (toneSamples_length s _) hj hns, List.getElem?_eq_getElem hn', Option.map_some]
  simp only [State.window, List.getElem_map, List.getElem_range, State.waveInAt, hread, Option.getD_some]
  exact toInt_ofInt_toneSample hc hz (List.getElem_mem hj) (List.getElem_mem hn')

/-- Under DISTINGUISHABLE a waveform played back is received as the symbols it was made of. -/
theorem symbolAt_of_plays (hd : s.distinguishable = true) (hplays : s.plays 0 (s.waveSamples syms)) {j : ℕ}
    (hj : j < syms.length) : s.symbolAt 0 j = syms[j] := by
  rw [State.symbolAt, Nat.zero_add, window_of_plays hc hz hplays hj, decodeSymbol_toneSamples hd (List.getElem_mem hj) hz]

end Playback

/-! What the decoder still has before it. -/

/-- From CURSOR to WAVE_IN_LEN there are exactly the windows of a list of symbols, and they are received as these. -/
structure State.Hears (s : State) (syms : List Symbol) : Prop where
  waveInLen : s.waveInLen.toNat = s.cursor.toNat + syms.length * s.nsym.toNat
  symbolAt : ∀ j (hj : j < syms.length), s.symbolAt s.cursor.toNat j = syms[j]

namespace State.Hears
variable {s : State} {x rest : List Symbol}

theorem avail_iff {syms : List Symbol} (h : s.Hears syms) (hc : s.cfgOk = true) (L : ℕ) :
    s.avail s.cursor.toNat L = true ↔ L ≤ syms.length := by
  rw [Machine.avail_iff, h.waveInLen, Nat.add_sub_cancel_left]
  exact Nat.mul_le_mul_right_iff ((cfgOk_iff s).mp hc).2

theorem avail (h : s.Hears (x ++ rest)) (hc : s.cfgOk = true) : s.avail s.cursor.toNat x.length = true :=
  (h.avail_iff hc _).mpr (by simp)

/-- The symbols of bits are received as the bits. -/
theorem noEnd_and_bitsAt {v : List Bool} (h : s.Hears (v.map bitSymbol ++ rest)) :
    s.noEnd s.cursor.toNat v.length ∧ s.bitsAt s.cursor.toNat v.length = v := by
  refine noEnd_and_bitsAt_of_symbolAt fun j hj => ?_
  have hx : j < (v.map bitSymbol).length := by simpa using hj
  rw [h.symbolAt j (by rw [List.length_append]; omega), List.getElem_append_left hx, List.getElem_map]

theorem plainByte {b : Byte} (h : s.Hears (plainSyms b ++ rest)) :
    s.noEnd s.cursor.toNat 8 ∧ b = packMSB (s.bitsAt s.cursor.toNat 8) := by
  obtain ⟨hno, hbits⟩ := noEnd_and_bitsAt h
  rw [byteBits_length] at hno hbits
  exact ⟨hno, by rw [hbits, packMSB_byteBits]⟩

/-- A DSTEP that consumes the first symbols leaves the rest. -/
theorem dstep (h : s.Hears (x ++ rest))
    (hcursor : (dstep s).cursor.toNat = s.cursor.toNat + x.length * s.nsym.toNat) : (Machine.dstep s).Hears rest := by
  obtain ⟨hlen, hsym⟩ := h
  have hframe := (dstep_ends s).eq_withWritten
  have hwave : (Machine.dstep s).waveInLen = s.waveInLen := (congrArg State.waveInLen hframe :)
  have hnsym : (Machine.dstep s).nsym = s.nsym := (congrArg State.nsym hframe :)
  have hkept : ∀ c j, (Machine.dstep s).symbolAt c j = s.symbolAt c j := fun c j =>
    (congrArg (State.symbolAt · c j) hframe :)
  refine ⟨?_, fun j hj => ?_⟩
  · rw [hwave, hnsym, hcursor, hlen, List.length_append, Nat.add_mul, Nat.add_assoc]
  · have hlater : s.symbolAt (s.cursor.toNat + x.length * s.nsym.toNat) j
        = s.symbolAt s.cursor.toNat (x.length + j) := by
      rw [State.symbolAt, State.symbolAt, Nat.add_mul, Nat.add_assoc]
    rw [hkept, hcursor, hlater, hsym _ (by rw [List.length_append]; omega), List.getElem_append_right (by omega)]
    simp

end State.Hears

/-- A decode of a waveform played back begins with all of its symbols before it. -/
theorem hears_dinit {s : State} {syms : List Symbol} (hc : s.cfgOk = true) (hr : s.inRate = 44100#32)
    (hz : s.zeroPeak (usedSymbols syms) = false) (hd : s.distinguishable = true)
    (hlen : s.waveInLen.toNat = s.nsym.toNat * syms.length) (hplays : s.plays 0 (s.waveSamples syms)) :
    (dinit s).Hears syms := by
  rw [dinit_completed hc hr]
  exact ⟨by simpa [Nat.mul_comm] using hlen, fun j hj => symbolAt_of_plays hc hz hd hplays hj⟩

/-! What the decoder has stored. -/

/-- An output buffer and its length register hold a list of bytes. -/
structure Holds (m : Memory 8) (n : Word) (l : List Byte) : Prop where
  length : n.toNat = l.length
  read : ∀ j < l.length, m.read? j = l[j]?

theorem holds_nil (m : Memory 8) : Holds m 0#32 [] := ⟨rfl, nofun⟩

theorem Holds.append {m : Memory 8} {n cap : Word} {l : List Byte} (h : Holds m n l) (hlt : l.length < cap.toNat)
    (b : Byte) : Holds (m.write n.toNat b) (n + 1#32) (l ++ [b]) := by
  obtain ⟨hn, hread⟩ := h
  refine ⟨by rw [toNat_add_one_of_lt (hn ▸ hlt), hn, List.length_append, List.length_singleton], fun j hj => ?_⟩
  rw [Memory.read?_write, hn]
  split
  case isTrue heq => simp [heq]
  case isFalse hne =>
    have hj' : j < l.length := by rw [List.length_append, List.length_singleton] at hj; omega
    rw [hread j hj', List.getElem?_append_left hj']

/-! The bits of a payload byte. -/

/-- The bits a payload byte is sent as (30_encoding.md R95). -/
def payloadBits (mode : BitVec 1) (b : Byte) : List Bool := if mode = 1#1 then codeBits (hamEnc b) else byteBits b

theorem payloadByteSyms_eq (mode : BitVec 1) (b : Byte) :
    payloadByteSyms mode b = (payloadBits mode b).map bitSymbol := by
  unfold payloadByteSyms payloadBits
  split <;> rfl

theorem payloadBits_length (mode : BitVec 1) (b : Byte) : (payloadBits mode b).length = payloadLen mode := by
  rw [← payloadByteSyms_length mode b, payloadByteSyms_eq, List.length_map]

/-- The bits of a payload byte, received, stand for the byte: packed, or as a codeword that needs no correction. -/
theorem byte_of_payloadBits {s : State} {c : ℕ} {b : Byte}
    (h : s.bitsAt c (payloadLen s.mode) = payloadBits s.mode b) :
    b = if s.mode = 1#1 then extract (correct (packCode (s.bitsAt c 12))) else packMSB (s.bitsAt c 8) := by
  by_cases hm : s.mode = 1#1
  · rw [payloadLen_eq, payloadBits, if_pos hm, if_pos hm] at h
    rw [if_pos hm, h, packCode_codeBits, correct_of_unnamed (.inl (toNat_syndrome_hamEnc b)), extract_hamEnc]
  · rw [payloadLen_eq, payloadBits, if_neg hm, if_neg hm] at h
    rw [if_neg hm, h, packMSB_byteBits]

/-! The decoder along a frame. -/

/-- After k DSTEPs the decode of s is in f, not DONE before; it has stored ext and data, and has the symbols rest before it. -/
structure Receiving (s : State) (k : ℕ) (f : FState) (ext data : List Byte) (rest : List Symbol) : Prop where
  cfgOk : (decodeState s k).cfgOk = true
  undone : ∀ m < k, (decodeState s m).fstate ≠ .done
  fstate : (decodeState s k).fstate = f
  ahead : (decodeState s k).Hears rest
  ext : Holds (decodeState s k).extOut (decodeState s k).extOutLen ext
  data : Holds (decodeState s k).dataOut (decodeState s k).dataOutLen data

namespace Receiving
variable {s : State} {k : ℕ} {f : FState} {ext data : List Byte} {x rest : List Symbol}

theorem undone_succ (h : Receiving s k f ext data rest) (hf : f ≠ .done) :
    ∀ m < k + 1, (decodeState s m).fstate ≠ .done := fun m hm =>
  (Nat.lt_succ_iff_lt_or_eq.mp hm).elim (h.undone m) fun heq => by rwa [heq, h.fstate]

theorem avail (h : Receiving s k f ext data (x ++ rest)) :
    (decodeState s k).avail (decodeState s k).cursor.toNat x.length = true :=
  h.ahead.avail h.cfgOk

/-- A DSTEP that consumes the symbols x: `hstep` gives the state after it, of which only these fields matter. -/
theorem step (h : Receiving s k f ext data (x ++ rest)) (hf : f ≠ .done) (hx : 1 ≤ x.length) {t : State}
    (hstep : dstep (decodeState s k) = t)
    (hcursor : t.cursor
      = BitVec.ofNat 32 ((decodeState s k).cursor.toNat + x.length * (decodeState s k).nsym.toNat))
    {ext' data' : List Byte} (hext : Holds t.extOut t.extOutLen ext') (hdata : Holds t.dataOut t.dataOutLen data') :
    Receiving s (k + 1) t.fstate ext' data' rest := by
  obtain ⟨hmoved, -⟩ := advance_toNat (one_le_mul_nsym h.cfgOk hx) h.avail
  have hcfg : (decodeState s (k + 1)).cfgOk = true := by rw [decodeState_cfgOk, ← decodeState_cfgOk s k, h.cfgOk]
  have hahead := h.ahead.dstep (by rw [hstep, hcursor, hmoved])
  rw [← decodeState_succ] at hstep hahead
  subst hstep
  exact ⟨hcfg, h.undone_succ hf, rfl, hahead, hext, hdata⟩

/-- The preamble is skipped by count (R192). -/
theorem preamble (h : Receiving s k .preamble ext data (preambleSyms ++ rest)) :
    Receiving s (k + 1) .header ext data rest := by
  exact h.step nofun (by decide) (dstep_preamble_skipped h.cfgOk h.fstate h.avail) rfl h.ext h.data

/-- A character is stored (R193). -/
theorem character {b : Byte} (h : Receiving s k .header ext data (plainSyms b ++ rest)) (hb : b ≠ 0#8)
    (hcap : ext.length < s.extCap.toNat) : Receiving s (k + 1) .header (ext ++ [b]) data rest := by
  obtain ⟨hno, hbyte⟩ := h.ahead.plainByte
  have hfits : (decodeState s k).extOutLen ≠ (decodeState s k).extCap :=
    ne_of_toNat_lt (by rwa [h.ext.length, decodeState_extCap])
  have hstep := dstep_header_stored h.cfgOk h.fstate h.avail hno hbyte hb hfits
  have hnext := h.step nofun (by simp) hstep rfl (h.ext.append hcap b) h.data
  rwa [h.fstate] at hnext

/-- The zero byte ends the header and is not stored (R193). -/
theorem terminator (h : Receiving s k .header ext data (plainSyms 0#8 ++ rest)) :
    Receiving s (k + 1) .payload ext data rest := by
  obtain ⟨hno, hbyte⟩ := h.ahead.plainByte
  have hstep := dstep_header_terminator h.cfgOk h.fstate h.avail hno hbyte rfl
  exact h.step nofun (by decide) hstep rfl h.ext h.data

/-- A payload byte is stored, in either mode (R194). -/
theorem payloadByte {b : Byte} (h : Receiving s k .payload ext data (payloadByteSyms s.mode b ++ rest))
    (hcap : data.length < s.dataCap.toNat) : Receiving s (k + 1) .payload ext (data ++ [b]) rest := by
  rw [← decodeState_mode s k] at h
  have hlen := payloadByteSyms_length (decodeState s k).mode b
  have ha := h.avail
  obtain ⟨hno, hbits⟩ := State.Hears.noEnd_and_bitsAt (payloadByteSyms_eq (decodeState s k).mode b ▸ h.ahead)
  rw [hlen] at ha
  rw [payloadBits_length] at hno hbits
  have hfits : (decodeState s k).dataOutLen ≠ (decodeState s k).dataCap :=
    ne_of_toNat_lt (by rwa [h.data.length, decodeState_dataCap])
  have hstep := dstep_payload_stored h.cfgOk h.fstate ha hno rfl (byte_of_payloadBits hbits) hfits
  have hnext := h.step nofun (hlen ▸ one_le_payloadLen _) hstep (by rw [hlen]) h.ext (h.data.append hcap b)
  rwa [h.fstate] at hnext

theorem characters {more : List Byte} (h : Receiving s k .header ext data (more.flatMap plainSyms ++ rest))
    (hne : ∀ b ∈ more, b ≠ 0#8) (hcap : (ext ++ more).length ≤ s.extCap.toNat) :
    Receiving s (k + more.length) .header (ext ++ more) data rest := by
  induction more generalizing k ext with
  | nil => simpa using h
  | cons b more ih =>
    obtain ⟨hb, hne⟩ := List.forall_mem_cons.mp hne
    rw [List.flatMap_cons, List.append_assoc] at h
    have hroom : ext.length < s.extCap.toNat := by rw [List.length_append, List.length_cons] at hcap; omega
    simpa [Nat.add_assoc, Nat.add_comm 1] using ih (h.character hb hroom) hne (by simpa using hcap)

theorem payloadBytes {more : List Byte}
    (h : Receiving s k .payload ext data (payloadSyms (payloadByteSyms s.mode) more ++ rest))
    (hcap : (data ++ more).length ≤ s.dataCap.toNat) :
    Receiving s (k + more.length) .payload ext (data ++ more) rest := by
  induction more generalizing k data with
  | nil => simpa [payloadSyms] using h
  | cons b more ih =>
    rw [payloadSyms, List.flatMap_cons, List.append_assoc] at h
    have hroom : data.length < s.dataCap.toNat := by rw [List.length_append, List.length_cons] at hcap; omega
    simpa [Nat.add_assoc, Nat.add_comm 1] using ih (h.payloadByte hroom) (by simpa using hcap)

/-- At the sentinel the decode ends where it stands: by END where it fills a payload byte window, else by truncation. -/
theorem sentinel {n : ℕ} (h : Receiving s k .payload ext data (sentinelSyms n)) :
    ∃ y j st, decodeState s (k + 1) = { decodeState s k with sym := y, bin := j, fstate := .done, status := st }
      ∧ (payloadLen s.mode ≤ n → st = 0x002#12) ∧ (n < payloadLen s.mode → st = 0x004#12) := by
  have hmode := decodeState_mode s k
  have havail := h.ahead.avail_iff h.cfgOk (payloadLen s.mode)
  rw [sentinelSyms, List.length_replicate, ← hmode] at havail
  rw [decodeState_succ]
  rcases Nat.lt_or_ge n (payloadLen s.mode) with hlt | hge
  · have ha : (decodeState s k).avail (decodeState s k).cursor.toNat (payloadLen (decodeState s k).mode) = false := by
      rw [← Bool.not_eq_true, havail, hmode]
      omega
    exact ⟨_, _, _, dstep_payload_trunc h.cfgOk h.fstate ha, fun hle => absurd hlt (by omega), fun _ => rfl⟩
  · have hpos := one_le_payloadLen s.mode
    have hfirst : (decodeState s k).firstEnd (decodeState s k).cursor.toNat (payloadLen (decodeState s k).mode) 0 := by
      refine ⟨by rw [hmode]; omega, ?_, nofun⟩
      rw [h.ahead.symbolAt 0 (by simp [sentinelSyms]; omega)]
      simp [sentinelSyms]
    exact ⟨_, _, _, dstep_payload_end h.cfgOk h.fstate (havail.mpr (by rwa [hmode])) hfirst, fun _ => rfl,
      fun hlt => absurd hlt (by omega)⟩

/-- A decode begins in PREAMBLE or HEADER with nothing stored, and the preamble, if there is one, is skipped. -/
theorem header_of_dinit (hc : s.cfgOk = true) (hr : s.inRate = 44100#32)
    (h : (dinit s).Hears ((if s.mode = 1#1 then preambleSyms else []) ++ rest)) :
    ∃ k, Receiving s k .header [] [] rest := by
  have hstart : Receiving s 0 (startState s.mode) [] [] ((if s.mode = 1#1 then preambleSyms else []) ++ rest) := by
    have hempty : Holds (dinit s).extOut (dinit s).extOutLen [] ∧ Holds (dinit s).dataOut (dinit s).dataOutLen [] := by
      rw [dinit_completed hc hr]
      exact ⟨holds_nil _, holds_nil _⟩
    exact ⟨(decodeState_cfgOk s 0).trans hc, nofun, dinit_fstate hc hr, h, hempty.1, hempty.2⟩
  by_cases hm : s.mode = 1#1
  · rw [startState, if_pos hm, if_pos hm] at hstart
    exact ⟨1, hstart.preamble⟩
  · rw [startState, if_neg hm, if_neg hm] at hstart
    exact ⟨0, hstart⟩

/-- A frame before the decoder is received up to its sentinel. -/
theorem frame_of_dinit (hc : s.cfgOk = true) (hr : s.inRate = 44100#32) {n : ℕ}
    (h : (dinit s).Hears (frameSyms s.mode ext data n)) (hne : ∀ b ∈ ext, b ≠ 0#8) (hext : ext.length ≤ s.extCap.toNat) (hdata : data.length ≤ s.dataCap.toNat) :
    ∃ k, Receiving s k .payload ext data (sentinelSyms n) := by
  rw [frameSyms, headerSyms, List.append_assoc, List.append_assoc, List.append_assoc] at h
  obtain ⟨k, hheader⟩ := header_of_dinit hc hr h
  have hpayload := (hheader.characters hne hext).terminator
  exact ⟨_, hpayload.payloadBytes hdata⟩

end Receiving

/-- Settles O58: DECF stops at the sentinel, where all of the frame before it is received. -/
theorem frameRoundTrip : Obligations.FrameRoundTrip := by
  intro s ext data n L syms hsyms hL hc hd hr hne hextCap hdataCap hz hlen hplays
  obtain rfl : L = payloadLen s.mode := hL
  have hhears := hears_dinit hc hr hz hd hlen hplays
  obtain ⟨k, hrec⟩ := Receiving.frame_of_dinit hc hr (hsyms ▸ hhears) hne hextCap hdataCap
  obtain ⟨y, j, st, hend, hisend, htrunc⟩ := hrec.sentinel
  have hdone : (decodeState s (k + 1)).fstate = .done := by rw [hend]
  have hdecf := decf_eq_decodeState hc hr (hrec.undone_succ nofun) hdone
  have hcursor : (decodeState s k).cursor.toNat = s.nsym.toNat * (syms.length - n) := by
    have hleft := hrec.ahead.waveInLen
    rw [decodeState_waveInLen, hlen, decodeState_nsym, sentinelSyms, List.length_replicate, Nat.mul_comm n] at hleft
    rw [Nat.mul_sub, hleft, Nat.add_sub_cancel]
  refine ⟨decodeState s (k + 1), by rw [exec_decf, hdecf], hdone, ?_⟩
  rw [hend]
  exact ⟨hrec.ext.length, hrec.ext.read, hrec.data.length, hrec.data.read, hcursor, hisend, htrunc⟩

end Sys2Proof.Machine
end

section
/-! PROOF. How commands end with an error (60_exceptions.md R215 to R229): every command ends, and what each error
leaves behind beside STATUS. -/

namespace Sys2Proof.Machine

/-- Settles O17: no arm of `exec` stops. -/
theorem everyCommandEnds : Obligations.EveryCommandEnds := exec_completes

/-! BAD_CONFIG. -/

theorem cfgOk_eq_false_iff (s : State) : s.cfgOk = false ↔ s.symbolRate = 0#32 ∨ s.nsym = 0#32 := by
  rw [← Bool.not_eq_true, cfgOk_iff, ← BitVec.toNat_inj, ← BitVec.toNat_inj, BitVec.toNat_zero]
  omega

/-- Settles O24: without a good configuration `exec_badConfig` gives the refusal. -/
theorem unconfiguredRefused : Obligations.UnconfiguredRefused := fun _ s hzero =>
  exec_badConfig ((cfgOk_eq_false_iff s).mpr hzero)

/-! The encode commands. -/

/-- A command that has symbols is an encode command of these. -/
theorem exec_of_commandSyms {s : State} {i : Instr} {syms : List Symbol} (h : s.commandSyms i = some syms) :
    ∃ results, exec i s = .next (encodeCommand syms.length syms results s) := by
  cases i with
  | tone sym =>
    obtain ⟨x, hx, rfl⟩ := Option.map_eq_some_iff.mp h
    exact ⟨_, by rw [exec, execTone, hx]; rfl⟩
  | encb b => obtain rfl := Option.some.inj h; exact ⟨_, exec_encb b s⟩
  | ench b => obtain rfl := Option.some.inj h; exact ⟨_, exec_ench b s⟩
  | encf => exact ⟨_, exec_encf (Option.some.inj h).symm⟩
  | _ => cases h

/-- Settles O42: BuildWave raises the two errors before it writes a sample. -/
theorem encodeFaults : Obligations.EncodeFaults := by
  intro s i syms hsyms hc
  obtain ⟨results, hexec⟩ := exec_of_commandSyms hsyms
  rw [hexec]
  refine ⟨fun hbig => ?_, fun hfit hz => ?_⟩
  · rw [encodeCommand_overflow hc hbig]; rfl
  · rw [encodeCommand_zeroPeak hc hfit hz]; rfl

/-! What an error writes (60_exceptions.md R226, R227). -/

/-- What a command that ends with error e has written when it comes to write STATUS. -/
inductive ErrorWrote (s : State) : Instr → CoreError → State → Prop
  | refused (i : Instr) (e : CoreError) (he : e = .illegalCmd ∨ e = .badConfig ∨ e = .shortWindow) : ErrorWrote s i e s
  | rateMismatch (i : Instr) (hi : i = .dinit ∨ i = .decf) :
      ErrorWrote s i .rateMismatch (s.setFstate .done).clearOutputs
  | waveDropped (i : Instr) (e : CoreError) (hi : (s.commandSyms i).isSome = true) (he : e = .overflow ∨ e = .zeroPeak) :
      ErrorWrote s i e (s.setWaveOut s.waveOut 0#32)
  | outputFull (x : Symbol) (k : Word) (b : Byte) (c : Codeword) (y : BitVec 4) :
      ErrorWrote s .dstep .overflow ((s.setByteRegs x k b c y).setFstate .done)
  /-- A DECF is a run of DSTEPs, which may have written all they can before the last one found its output full. -/
  | runFull (r : State) : ErrorWrote s .decf .overflow r

/-- If command i ends in t with ERR set, then t is what one of its errors wrote and the error's STATUS. -/
def FailsOnly (i : Instr) (s t : State) : Prop :=
  errFlag t.status = true → ∃ e r, ErrorWrote s i e r ∧ t = raise e r

theorem ErrorWrote.failsOnly {i : Instr} {e : CoreError} {s r : State} (h : ErrorWrote s i e r) :
    FailsOnly i s (raise e r) := fun _ => ⟨e, r, h, rfl⟩

theorem failsOnly_finish {i : Instr} {s r : State} {isend trunc : Bool} : FailsOnly i s (finish isend trunc r) := by
  intro herr
  rw [finish_eq, State.setStatus_status, errFlag_statusOk] at herr
  cases herr

theorem failsOnly_badConfig {i : Instr} {s : State} : FailsOnly i s (raise .badConfig s) :=
  (ErrorWrote.refused i _ (.inr (.inl rfl))).failsOnly

theorem encodeCommand_failsOnly {i : Instr} {s : State} {syms : List Symbol} (hi : s.commandSyms i = some syms)
    (results : State → State) : FailsOnly i s (encodeCommand syms.length syms results s) := by
  have hsome : (s.commandSyms i).isSome = true := by rw [hi]; rfl
  rcases encodeCommand_cases syms.length syms results s with ⟨h, _⟩ | ⟨h, _⟩ | ⟨h, _⟩ | ⟨h, _⟩ <;> rw [h]
  · exact failsOnly_badConfig
  · exact (ErrorWrote.waveDropped i .overflow hsome (.inl rfl)).failsOnly
  · exact (ErrorWrote.waveDropped i .zeroPeak hsome (.inr rfl)).failsOnly
  · exact failsOnly_finish

theorem dsym_failsOnly (s : State) : FailsOnly .dsym s (dsym s) := by
  unfold dsym
  split
  · exact failsOnly_badConfig
  · split
    · exact (ErrorWrote.refused _ _ (.inr (.inr rfl))).failsOnly
    · exact failsOnly_finish

theorem decb_failsOnly (s : State) : FailsOnly .decb s (decb s) := by
  unfold decb
  split
  · exact failsOnly_badConfig
  · split <;> exact failsOnly_finish

theorem dech_failsOnly (s : State) : FailsOnly .dech s (dech s) := by
  unfold dech
  split
  · exact failsOnly_badConfig
  · split <;> exact failsOnly_finish

/-- The errors of DINIT, which are DECF's too where its DINIT does not complete (44_frame_codec.md R190, R196). -/
theorem dinit_failsOnly {i : Instr} (hi : i = .dinit ∨ i = .decf) (s : State) : FailsOnly i s (dinit s) := by
  rw [dinit_eq]
  split
  · exact failsOnly_badConfig
  · split
    · exact (ErrorWrote.rateMismatch i hi).failsOnly
    · exact failsOnly_finish

theorem dstep_failsOnly (s : State) : FailsOnly .dstep s (dstep s) := by
  rcases dstep_cases s with ⟨h, _⟩ | ⟨x, k, b, c, y, ⟨st, h, hst, _⟩ | ⟨L, f, _, _, _, h | ⟨h, _⟩ | ⟨h, _⟩⟩⟩ <;> rw [h]
  · exact failsOnly_badConfig
  · rcases hst with rfl | rfl | rfl | rfl
    case inr.inr.inr => exact (ErrorWrote.outputFull x k b c y).failsOnly
    all_goals exact failsOnly_finish
  all_goals exact failsOnly_finish

/-- Once its DINIT has completed, DECF can fail only with OVERFLOW (44_frame_codec.md R196). -/
theorem decf_failsOnly (s : State) : FailsOnly .decf s (decf s) := by
  rcases decf_cases s with ⟨h, _⟩ | ⟨hc, hr, _⟩
  · rw [h]; exact dinit_failsOnly (.inr rfl) s
  · obtain ⟨n, run, -, -, -, -, hexec, hstatus⟩ := decfRunsToDone s hc ((inRate_toNat_eq_iff s).mp hr)
    rw [Host.Outcome.next.inj hexec]
    intro herr
    rcases hstatus with h | h | h
    · rw [h] at herr; cases herr
    · rw [h] at herr; cases herr
    · refine ⟨.overflow, run n, .runFull (run n), ?_⟩
      rw [raise_eq, statusError_overflow, ← h]
      rfl

theorem exec_failsOnly {i : Instr} {s t : State} (h : exec i s = .next t) : FailsOnly i s t := by
  cases hsyms : s.commandSyms i with
  | some syms =>
    obtain ⟨results, hexec⟩ := exec_of_commandSyms hsyms
    exact Host.Outcome.next.inj (hexec.symm.trans h) ▸ encodeCommand_failsOnly hsyms results
  | none =>
    cases i with
    | tone sym =>
      rw [exec, execTone, Option.map_eq_none_iff.mp hsyms] at h
      exact Host.Outcome.next.inj h ▸ (ErrorWrote.refused _ _ (.inl rfl)).failsOnly
    | encb b | ench b | encf => cases hsyms
    | dsym => exact Host.Outcome.next.inj h ▸ dsym_failsOnly s
    | decb => exact Host.Outcome.next.inj h ▸ decb_failsOnly s
    | dech => exact Host.Outcome.next.inj h ▸ dech_failsOnly s
    | decf => exact Host.Outcome.next.inj h ▸ decf_failsOnly s
    | dinit => exact Host.Outcome.next.inj h ▸ dinit_failsOnly (.inl rfl) s
    | dstep => exact Host.Outcome.next.inj h ▸ dstep_failsOnly s
    | henc b | hdec cw => exact Host.Outcome.next.inj h ▸ failsOnly_finish

theorem errCode_statusError (e : CoreError) : errCode (statusError e) = e.code := by cases e <;> rfl

theorem isendFlag_statusError (e : CoreError) : isendFlag (statusError e) = false := by cases e <;> rfl

theorem truncFlag_statusError (e : CoreError) : truncFlag (statusError e) = false := by cases e <;> rfl

/-- Settles O23: the code tells the error, and the error what it wrote. -/
theorem errorWrites : Obligations.ErrorWrites := by
  intro i s t h herr
  obtain ⟨e, r, hwrote, rfl⟩ := exec_failsOnly h herr
  rw [raise_eq, State.setStatus_status, errCode_statusError]
  refine ⟨isendFlag_statusError e, truncFlag_statusError e, ?_⟩
  cases hwrote with
  | refused _ _ he => rcases he with rfl | rfl | rfl <;> exact ⟨fun _ => rfl, by simp [CoreError.code]⟩
  | rateMismatch _ hi => exact ⟨by simp [CoreError.code], fun _ => ⟨hi, rfl⟩, by simp [CoreError.code]⟩
  | waveDropped _ _ hi he =>
    have hdstep : i ≠ .dstep := by rintro rfl; cases hi
    rcases he with rfl | rfl <;>
      exact ⟨by simp [CoreError.code], by simp [CoreError.code], fun _ => ⟨hi, rfl⟩, fun h => absurd h.2 hdstep⟩
  | outputFull x k b c y =>
    refine ⟨by simp [CoreError.code], by simp [CoreError.code], by simp [CoreError.code], fun _ => ?_⟩
    simp only [State.setByteRegs, State.setSymBin, State.setByte, State.setCode, State.setFstate, State.setStatus]
  | runFull r => simp [CoreError.code]

end Sys2Proof.Machine
end

section
/-! PROOF. The STATUS a command finds (60_exceptions.md R228, 10_state.md R42): its end overwrites it, and nothing before looks
at it. -/

namespace Sys2Proof.Machine

section StatusUnread
variable (s : State) (st : BitVec 12)

theorem encodeCommand_setStatus (count : ℕ) (syms : List Symbol) {results : State → State}
    (hres : ∀ t, results (t.setStatus st) = (results t).setStatus st) :
    encodeCommand count syms results (s.setStatus st) = encodeCommand count syms results s := by
  cases hc : s.cfgOk with
  | false => rw [encodeCommand_badConfig hc, encodeCommand_badConfig (s := s.setStatus st) hc]; rfl
  | true =>
    by_cases hbig : s.waveCap.toNat < s.nsym.toNat * count
    · rw [encodeCommand_overflow hc hbig, encodeCommand_overflow (s := s.setStatus st) hc hbig]; rfl
    · have hfit := not_lt.mp hbig
      cases hz : s.zeroPeak (usedSymbols syms) with
      | true => rw [encodeCommand_zeroPeak hc hfit hz, encodeCommand_zeroPeak (s := s.setStatus st) hc hfit hz]; rfl
      | false =>
        rw [encodeCommand_completed hc hfit hz, encodeCommand_completed (s := s.setStatus st) hc hfit hz]
        have hend := congrArg (State.setStatus · (statusOk false false)) (hres (s.setWaveOut
          (s.waveOut.writeFront (s.waveSamples syms)) (BitVec.ofNat 32 (s.nsym.toNat * count))))
        exact hend

theorem execTone_setStatus (sym : BitVec 2) : execTone sym (s.setStatus st) = execTone sym s := by
  unfold execTone
  split
  · rfl
  · rw [encodeCommand_setStatus s st _ _ fun _ => rfl]

theorem dsym_setStatus : dsym (s.setStatus st) = dsym s := rfl

theorem classifyRun_setStatus (n c : ℕ) (v : List Bool) :
    classifyRun n c v (s.setStatus st) = ((classifyRun n c v s).1, (classifyRun n c v s).2.setStatus st) := by
  induction n generalizing c v s with
  | zero => rfl
  | succ n ih =>
    rw [classifyRun, classifyRun, State.setStatus_window, State.setStatus_decodeSymbol]
    split
    · rfl
    · exact ih (s.classifyWindow c) _ _

theorem decodeByteWindow_setStatus (c L : ℕ) :
    decodeByteWindow c L (s.setStatus st) = ((decodeByteWindow c L s).1, (decodeByteWindow c L s).2.setStatus st) := by
  rw [decodeByteWindow, decodeByteWindow, State.setStatus_avail]
  split
  · exact classifyRun_setStatus s st L c []
  · rfl

theorem decb_setStatus : decb (s.setStatus st) = decb s := by
  rw [decb, decb, State.setStatus_cursor, decodeByteWindow_setStatus]
  rcases decodeByteWindow s.cursor.toNat Config.plainLen s with ⟨r, t⟩
  cases r <;> rfl

theorem dech_setStatus : dech (s.setStatus st) = dech s := by
  rw [dech, dech, State.setStatus_cursor, decodeByteWindow_setStatus]
  rcases decodeByteWindow s.cursor.toNat Config.cwLen s with ⟨r, t⟩
  cases r <;> rfl

theorem dinit_setStatus : dinit (s.setStatus st) = dinit s := by
  rw [dinit_eq, dinit_eq]; rfl

theorem setPayload_setStatus (v : List Bool) : (s.setStatus st).setPayload v = (s.setPayload v).setStatus st := by
  rw [State.setPayload, State.setPayload, State.setStatus_mode]
  split <;> rfl

theorem takePayloadByte_setStatus : takePayloadByte (s.setStatus st) = takePayloadByte s := rfl

theorem stepHeader_setStatus : stepHeader (s.setStatus st) = stepHeader s := by
  rw [stepHeader, stepHeader, State.setStatus_cursor, decodeByteWindow_setStatus]
  rcases decodeByteWindow s.cursor.toNat Config.plainLen s with ⟨r, t⟩
  cases r <;> rfl

theorem stepPayload_setStatus : stepPayload (s.setStatus st) = stepPayload s := by
  rw [stepPayload, stepPayload, State.setStatus_cursor, State.setStatus_mode, decodeByteWindow_setStatus]
  rcases decodeByteWindow s.cursor.toNat (payloadLen s.mode) s with ⟨r, t⟩
  cases r with
  | trunc | endMark => rfl
  | bits v =>
    dsimp only
    rw [setPayload_setStatus, takePayloadByte_setStatus]

theorem dstep_setStatus : dstep (s.setStatus st) = dstep s := by
  rw [dstep, dstep, stepHeader_setStatus, stepPayload_setStatus]
  rfl

/-- `decf_cases` as one equation. -/
theorem decf_eq : decf s = if s.cfgOk = false ∨ s.inRate.toNat ≠ 44100 then dinit s
    else decodeLoop (decodeBound s) (dinit s) := by
  rcases decf_cases s with ⟨h, hbad⟩ | ⟨hc, hr, h⟩
  · rw [h, if_pos hbad]
  · rw [h, if_neg (by simp [hc, hr])]

theorem decf_setStatus : decf (s.setStatus st) = decf s := by
  rw [decf_eq, decf_eq, dinit_setStatus]
  rfl

theorem exec_setStatus (i : Instr) : exec i (s.setStatus st) = exec i s := by
  cases i with
  | tone sym => exact execTone_setStatus s st sym
  | encb b | ench b | encf => exact congrArg Host.Outcome.next (encodeCommand_setStatus s st _ _ fun _ => rfl)
  | dsym => exact congrArg Host.Outcome.next (dsym_setStatus s st)
  | decb => exact congrArg Host.Outcome.next (decb_setStatus s st)
  | dech => exact congrArg Host.Outcome.next (dech_setStatus s st)
  | decf => exact congrArg Host.Outcome.next (decf_setStatus s st)
  | dinit => exact congrArg Host.Outcome.next (dinit_setStatus s st)
  | dstep => exact congrArg Host.Outcome.next (dstep_setStatus s st)
  | henc b | hdec cw => rfl

end StatusUnread

/-- Settles O20: what `exec_setStatus` says of a write of STATUS before the command. -/
theorem nothingSticky : Obligations.NothingSticky := fun i s st => exec_setStatus s st i

end Sys2Proof.Machine
end

section
/-! PROOF. The words that spell a command, by the masks of the formats (30_encoding.md R81 to R86): they are the encodings of the
well-formed commands, so every other word is refused (60_exceptions.md R217). -/

namespace Sys2Proof

/-- A mask of 0s over an operand of m bits and 1s elsewhere gives the opcode exactly for the words laid out with an operand. -/
theorem and_mask_eq_iff {m : ℕ} (hm : m ≤ 12) {mask : Word}
    (hmask : ∀ k < 32, mask.getLsbD k = (decide (k < 8) || decide (8 + m ≤ k))) (op : Byte) (w : Word) :
    w &&& mask = op.setWidth 32 ↔ ∃ arg : BitVec m, commandWord (arg.setWidth 12) op = w := by
  simp only [commandWord_eq_iff hm, opField, BitVec.eq_of_getLsbD_eq_iff, BitVec.getLsbD_and, BitVec.getLsbD_setWidth,
    BitVec.getLsbD_extractLsb', BitVec.getLsbD_zero]
  constructor
  · intro h
    refine ⟨w.extractLsb' 8 m, ?_, ?_, ?_⟩ <;> grind
  · rintro ⟨arg, hop, -, hzero⟩ k hk
    rw [hmask k hk]
    rcases lt_or_ge k 8 with h8 | h8
    · grind
    · rcases lt_or_ge k (8 + m) with hkm | hkm
      · grind
      · obtain ⟨j, rfl⟩ := Nat.exists_eq_add_of_le hkm
        grind

theorem and_maskS_eq_iff (w : Word) :
    w &&& 0xFFFFFCFF#32 = 0x10#32 ↔ ∃ sym : BitVec 2, commandWord (sym.setWidth 12) 0x10#8 = w :=
  and_mask_eq_iff (by decide) (by decide) 0x10#8 w

theorem and_maskB_eq_iff (op : Byte) (w : Word) :
    w &&& 0xFFFF00FF#32 = op.setWidth 32 ↔ ∃ b : Byte, commandWord (b.setWidth 12) op = w :=
  and_mask_eq_iff (by decide) (by decide) op w

theorem and_maskC_eq_iff (w : Word) : w &&& 0xFFF000FF#32 = 0x31#32 ↔ ∃ cw : Codeword, commandWord cw 0x31#8 = w := by
  simpa using and_mask_eq_iff (m := 12) (mask := 0xFFF000FF#32) (by decide) (by decide) 0x31#8 w

/-- The code 3 of format S (30_encoding.md R82), by its two bits. -/
theorem symbolBits_eq_iff (sym : BitVec 2) :
    commandWord (sym.setWidth 12) 0x10#8 &&& 0x300#32 = 0x300#32 ↔ sym = 3#2 := by
  revert sym; decide

/-- The commands of format N (30_encoding.md R81, R85), which have one word each. -/
def formatNInstrs : List Instr := [.encf, .dsym, .decb, .dech, .decf, .dinit, .dstep]

theorem map_encode_formatNInstrs :
    formatNInstrs.map encode = [0x13#32, 0x20#32, 0x21#32, 0x22#32, 0x23#32, 0x24#32, 0x25#32] := by decide

theorem formatNInstrs_wellFormed : ∀ i ∈ formatNInstrs, i.wellFormed = true := by decide

theorem toneWord_iff (w : Word) :
    w &&& 0xFFFFFCFF#32 = 0x10#32 ∧ w &&& 0x300#32 ≠ 0x300#32 ↔ ∃ sym, sym ≠ 3#2 ∧ encode (.tone sym) = w := by
  rw [and_maskS_eq_iff]
  constructor
  · rintro ⟨⟨sym, rfl⟩, hsym⟩
    exact ⟨sym, mt (symbolBits_eq_iff sym).mpr hsym, rfl⟩
  · rintro ⟨sym, hsym, rfl⟩
    exact ⟨⟨sym, rfl⟩, mt (symbolBits_eq_iff sym).mp hsym⟩

/-- The masks, format by format. -/
theorem legalWord_iff (w : Word) : Machine.legalWord w = true ↔
    (∃ sym, sym ≠ 3#2 ∧ encode (.tone sym) = w)
      ∨ ((∃ b, encode (.encb b) = w) ∨ (∃ b, encode (.ench b) = w) ∨ ∃ b, encode (.henc b) = w)
      ∨ (∃ cw, encode (.hdec cw) = w)
      ∨ ∃ i ∈ formatNInstrs, encode i = w := by
  have hb (op : Byte) := and_maskB_eq_iff op w
  simp only [Machine.legalWord, Bool.or_eq_true, Bool.and_eq_true, beq_iff_eq, bne_iff_ne, List.contains_iff_mem,
    toneWord_iff, and_maskC_eq_iff, ← map_encode_formatNInstrs, List.mem_map, List.mem_cons, List.not_mem_nil, or_false,
    or_assoc]
  exact or_congr_right (or_congr (hb 0x11#8) (or_congr (hb 0x12#8) (or_congr_left (hb 0x30#8))))

theorem legalWord_iff_exists_encode (w : Word) :
    Machine.legalWord w = true ↔ ∃ i : Instr, i.wellFormed = true ∧ encode i = w := by
  rw [legalWord_iff]
  constructor
  · rintro (⟨sym, hsym, rfl⟩ | (⟨b, rfl⟩ | ⟨b, rfl⟩ | ⟨b, rfl⟩) | ⟨cw, rfl⟩ | ⟨i, hi, rfl⟩)
    · exact ⟨.tone sym, bne_iff_ne.mpr hsym, rfl⟩
    case inr.inr.inr => exact ⟨i, formatNInstrs_wellFormed i hi, rfl⟩
    all_goals exact ⟨_, rfl, rfl⟩
  · rintro ⟨i, hwf, rfl⟩
    cases i with
    | tone sym => exact .inl ⟨sym, bne_iff_ne.mp hwf, rfl⟩
    | encb b => exact .inr (.inl (.inl ⟨b, rfl⟩))
    | ench b => exact .inr (.inl (.inr (.inl ⟨b, rfl⟩)))
    | henc b => exact .inr (.inl (.inr (.inr ⟨b, rfl⟩)))
    | hdec cw => exact .inr (.inr (.inl ⟨cw, rfl⟩))
    | _ => exact .inr (.inr (.inr ⟨_, by decide, rfl⟩))

/-- A word decodes exactly where the masks of the formats allow it. -/
theorem legalWord_iff_decode (w : Word) : Machine.legalWord w = true ↔ ∃ i, decode w = .ok i := by
  rw [legalWord_iff_exists_encode]
  constructor
  · rintro ⟨i, hwf, rfl⟩
    exact ⟨i, decode_encode hwf⟩
  · rintro ⟨i, hd⟩
    exact ⟨i, encode_of_decode hd⟩

namespace Machine

/-- Settles O3: a word that the masks do not allow does not decode, and its write of CMD raises ILLEGAL_CMD. -/
theorem illegalWordRefused : Obligations.IllegalWordRefused := by
  refine ⟨fun s w rest hp hillegal => ?_, fun w => (legalWord_iff_decode w).mp⟩
  rw [step_cons hp]
  cases hd : decode w with
  | ok i => cases hillegal.symm.trans ((legalWord_iff_decode w).mpr ⟨i, hd⟩)
  | error e => exact (hostWrite_cmd w _).trans (runCommand_error hd _)

end Machine

end Sys2Proof
end

section
/-! PROOF. The zero peak (60_exceptions.md R221, 40_tone_generator.md R116, R119): which tones are silent. -/

namespace Sys2Proof.Machine

theorem peakOf_eq_zero_iff {l : List ℝ} : peakOf l = 0 ↔ ∀ x ∈ l, x = 0 :=
  ⟨fun h _ hx => abs_nonpos_iff.mp (h ▸ abs_le_peakOf hx),
    fun h => le_antisymm (peakOf_le le_rfl fun x hx => abs_nonpos_iff.mpr (h x hx)) (peakOf_nonneg l)⟩

/-- The peak is 0 exactly when the raw wave is silent. -/
theorem zeroPeak_iff_rawWave {s : State} (hM : 0 < s.phaseMod) (syms : List Symbol) :
    s.zeroPeak (usedSymbols syms) = true ↔ ∀ x ∈ s.rawWave syms, x = 0 := by
  rw [zeroPeak_eq_true_iff hM, ← abs_eq_zero, ← peakOf_rawWave hM, peakOf_eq_zero_iff]

/-- The silent phases are those at the multiples of half a turn. -/
theorem sine_eq_zero_iff {M : ℕ} (hM : 0 < M) (p : ℕ) : sine p M = 0 ↔ 2 * p % M = 0 := by
  rw [← phaseDist_eq_modulus_iff hM]
  refine ⟨fun h => ?_, phaseDist_of_half_turn⟩
  have hlt := Nat.mod_lt (2 * p) hM
  unfold phaseDist at h
  omega

theorem sine_tonePhase_eq_zero_iff {M : ℕ} (hM : 0 < M) (F n : ℕ) : sine (tonePhase M F n) M = 0 ↔ M ∣ 2 * F * n := by
  rw [sine_eq_zero_iff hM, tonePhase, Nat.mul_mod_mod, ← Nat.mul_assoc, Nat.dvd_iff_mod_eq_zero]

/-- A tone is silent when it is its phase 0 alone, or when each of its steps is a multiple of half a turn. -/
theorem silent_tone_iff {M : ℕ} (hM : 0 < M) {N : ℕ} (hN : 1 ≤ N) (F : ℕ) :
    (∀ n < N, sine (tonePhase M F n) M = 0) ↔ N = 1 ∨ 2 * F % M = 0 := by
  simp only [sine_tonePhase_eq_zero_iff hM, ← Nat.dvd_iff_mod_eq_zero]
  constructor
  · intro h
    rcases hN.eq_or_lt' with rfl | hlt
    · exact .inl rfl
    · exact .inr (by simpa using h 1 hlt)
  · rintro (rfl | h) n hn
    · obtain rfl : n = 0 := by omega
      exact dvd_zero M
    · exact h.mul_right n

theorem rawWave_silent_iff (s : State) (syms : List Symbol) :
    (∀ x ∈ s.rawWave syms, x = 0) ↔
      ∀ y ∈ syms, ∀ n < s.nsym.toNat, sine (tonePhase s.phaseMod (s.freq y) n) s.phaseMod = 0 := by
  simp only [State.rawWave, List.forall_mem_flatMap, List.forall_mem_map, List.mem_range]

/-- Settles O37: the raw wave is the sines of its tones' phases, and `silent_tone_iff` says which tones are silent. -/
theorem zeroPeakExactly : Obligations.ZeroPeakExactly := by
  intro s syms hc
  have hM := phaseMod_pos hc
  obtain ⟨-, hN⟩ := (cfgOk_iff s).mp hc
  have hraw := zeroPeak_iff_rawWave hM syms
  refine ⟨hraw, ?_⟩
  calc s.zeroPeak (usedSymbols syms) = true
      ↔ ∀ y ∈ syms, s.nsym.toNat = 1 ∨ 2 * s.freq y % s.phaseMod = 0 := by
        simp only [hraw, rawWave_silent_iff, silent_tone_iff hM hN]
    _ ↔ s.nsym.toNat = 1 ∨ ∀ y ∈ syms, 2 * s.freq y % s.phaseMod = 0 := by grind

end Sys2Proof.Machine
end

section
/-! PROOF. The reset event (70_reset_and_hazards.md R240): which parts of the state before it the state after it has. -/

namespace Sys2Proof.Machine

theorem act_reset (s : State) : act .reset s = .next s.afterReset := rfl

/-- Of a state in which an action is carried out, the reset event sees the rest of the queue and the moved count, and what the
model keeps (assumptions 10 and 16); every register and buffer has its reset value. -/
theorem take_afterReset (s : State) (rest : List HostAction) : (s.take rest).afterReset = { State.reset with
    extCap := s.extCap, dataCap := s.dataCap, waveCap := s.waveCap,
    pending := rest, reads := s.reads, freeCtr := s.freeCtr + 1 } := rfl

/-- Settles O14: the step takes the reset action, and the event forgets all of the state but what `take_afterReset` names. -/
theorem resetEvent : Obligations.ResetEvent := by
  intro s rest hp
  calc step s
      = act .reset (s.take rest) := step_cons hp
    _ = .next (s.take rest).afterReset := act_reset _
    _ = _ := congrArg Host.Outcome.next (take_afterReset s rest)

end Sys2Proof.Machine
end
